-- ==== Sys2Proof/Word.lean ====
section
/-! DEFINITION. The word types of the machine (spec/00_scope.md R7, R9, R10; spec/20_memory.md R46). -/

namespace Sys2Proof

/-- One byte of a host's byte view of a word (R53). -/
abbrev Byte := BitVec 8

/-- A machine word: 64 bits, bit 0 the least significant (R7). -/
abbrev Word := BitVec 64

/-- A byte address of the core's aperture, 0x00000 to 0xFFFFF (R46). -/
abbrev Addr := BitVec 20

/-- A word read as an IEEE-754 binary64 number (R9). -/
abbrev F64 := Word

/-- A complex value: two binary64 words, real part first (R10). -/
structure C64 where
  re : F64
  im : F64
  deriving DecidableEq, Repr

end Sys2Proof
end

