-- ==== Sys2Proof/Syntax.lean ====
section
/-! DEFINITION. The commands of spec/opcode_table.json and the one raw format `CMD64` (spec/30_encoding.md R64, R65). -/

namespace Sys2Proof

/-- The nine commands (R65). A command has no operand fields: every operand is held in registers and buffers (R69). -/
inductive Instr where
  /-- NOP, 0x00 (R104). -/
  | nop
  /-- DCONV, 0x01 (R76). -/
  | dconv
  /-- FILT, 0x02 (R80). -/
  | filt
  /-- DECIM, 0x03 (R84). -/
  | decim
  /-- SYNC, 0x04 (R91). -/
  | sync
  /-- DEMAP, 0x05 (R95). -/
  | demap
  /-- PACK, 0x06 (R98). -/
  | pack
  /-- RUN, 0x07 (R105). -/
  | run
  /-- SRESET, 0x0F (R106). -/
  | sreset
  deriving DecidableEq, Repr

/-- A CTRL word as its two fields (R64): `RES` is bits 63:8 and `OPC` bits 7:0. -/
structure Cmd64 where
  res : BitVec 56
  opc : BitVec 8
  deriving DecidableEq, Repr

end Sys2Proof
end

