-- ==== Sys2Proof/WellFormed.lean ====
section
/-! DEFINITION. Which raw CTRL words are commands (spec/30_encoding.md R64 to R67). An `Instr` carries no field, so each
one is well formed; the two checks there are stand on the raw format. -/

namespace Sys2Proof

/-- The opcodes of R65: 0x00 to 0x07, and 0x0F. -/
def opcodeDefined (opc : BitVec 8) : Bool := decide (opc.toNat ≤ 0x07) || opc == 0x0F#8

/-- Bits 63:8 are zero (R64). -/
def Cmd64.reservedZero (c : Cmd64) : Bool := c.res == 0#56

/-- A word of the format is a legal command exactly when both checks pass (R65, R66). -/
def Cmd64.wellFormed (c : Cmd64) : Bool := c.reservedZero && opcodeDefined c.opc

/-- A command has no operand field that could hold a value its encoding does not admit (R69), so each of the nine is well
formed. -/
def Instr.wellFormed : Instr → Bool
  | .nop => true
  | .dconv => true
  | .filt => true
  | .decim => true
  | .sync => true
  | .demap => true
  | .pack => true
  | .run => true
  | .sreset => true

end Sys2Proof
end

