-- ==== Sys2Proof/Decode.lean ====
section
/-! DEFINITION. The byte order of a word, the decoder (total, rejecting by name) and after it the encoder
(spec/20_memory.md R53; spec/30_encoding.md R64 to R68). -/

namespace Sys2Proof

/-- The eight bytes of a word in address order: byte `k` is bits `8k+7 : 8k` (R53, little-endian;
log 18). -/
def wordBytes (w : Word) : List Byte :=
  [w.extractLsb' 0 8, w.extractLsb' 8 8, w.extractLsb' 16 8, w.extractLsb' 24 8,
   w.extractLsb' 32 8, w.extractLsb' 40 8, w.extractLsb' 48 8, w.extractLsb' 56 8]

/-- The word whose bytes in address order are given (R53). -/
def bytesWord : List Byte → Word
  | [] => 0#64
  | b :: bs => (bytesWord bs <<< 8) ||| b.setWidth 64

/-- Why bits are no command. -/
inductive DecodeError where
  /-- Fewer than the eight bytes of one CMD64 word (R68). Never raised by the bus port. -/
  | shortInput
  /-- A bit of 63:8 is set (R66). -/
  | reservedBitsSet
  /-- The opcode is not one of R65's nine (R66). -/
  | undefinedOpcode (opc : BitVec 8)
  deriving DecidableEq, Repr

/-- The two fields of a CTRL word (R64). -/
def cmdFields (w : Word) : Cmd64 := ⟨w.extractLsb' 8 56, w.extractLsb' 0 8⟩

/-- The opcode map of R65, on the opcode field alone. -/
def decodeOpcode (opc : BitVec 8) : Except DecodeError Instr :=
  if opc = 0x00#8 then .ok .nop
  else if opc = 0x01#8 then .ok .dconv
  else if opc = 0x02#8 then .ok .filt
  else if opc = 0x03#8 then .ok .decim
  else if opc = 0x04#8 then .ok .sync
  else if opc = 0x05#8 then .ok .demap
  else if opc = 0x06#8 then .ok .pack
  else if opc = 0x07#8 then .ok .run
  else if opc = 0x0F#8 then .ok .sreset
  else .error (.undefinedOpcode opc)

/-- One CTRL word read as a command: the whole word is compared, reserved bits included (R64, R66). -/
def decodeWord (w : Word) : Except DecodeError Instr :=
  let c := cmdFields w
  if c.reservedZero then decodeOpcode c.opc else .error .reservedBitsSet

/-- One command read from bytes in address order, with the bytes after it (R68: always one word). -/
def decode : List Byte → Except DecodeError (Instr × List Byte)
  | b0 :: b1 :: b2 :: b3 :: b4 :: b5 :: b6 :: b7 :: rest =>
    match decodeWord (bytesWord [b0, b1, b2, b3, b4, b5, b6, b7]) with
    | .ok i => .ok (i, rest)
    | .error e => .error e
  | _ => .error .shortInput

/-- The CTRL word of a command, R65's table. -/
def encodeWord : Instr → Word
  | .nop => 0x0000000000000000#64
  | .dconv => 0x0000000000000001#64
  | .filt => 0x0000000000000002#64
  | .decim => 0x0000000000000003#64
  | .sync => 0x0000000000000004#64
  | .demap => 0x0000000000000005#64
  | .pack => 0x0000000000000006#64
  | .run => 0x0000000000000007#64
  | .sreset => 0x000000000000000F#64

/-- The command's bytes in address order (R53). -/
def encode (i : Instr) : List Byte := wordBytes (encodeWord i)

/-- The CTRL word of an instruction whose table bits are `w`: the table numbers a CMD64 word's bits as R7 does, and
every bit at or above `nbits` is zero (log 23). -/
def tableWord (nbits w : Nat) : Word := BitVec.ofNat 64 (w % 2 ^ nbits)

/-- What the decoder reads from the instruction whose bits are `w`. -/
def decodeTableWord (nbits w : Nat) : Option Instr :=
  match decode (wordBytes (tableWord nbits w)) with
  | .ok (i, _) => some i
  | .error _ => none

end Sys2Proof
end

