-- ==== Sys2Proof/Config.lean ====
section
/-! DEFINITION. What an implementation fixes and the free values: the capacity `N_MAX`, the shape of a numerics
record, and the words a read may draw where the spec says "unspecified" (spec/00_scope.md R6, R12;
spec/93_implementation_defined.md 1.2). The OPEN numerics `NUM_HW` with its bound `NUM_TOL`, `Config.implementation`,
stands in Machine/Numerics.lean, after the reference it is held to. -/

namespace Sys2Proof

/-- A numerics record (R12): the four total functions every real-valued computation of the units goes through.
`lpf` is given entry by entry: `lpf N x keep g n` is entry `n` of the result sequence. -/
structure NumRecord where
  mix : F64 → Nat → Nat → F64 × F64
  lpf : Nat → List F64 → (Nat → Bool) → F64 → Nat → F64
  corrPower : Nat → List C64 → List C64 → F64
  closer : C64 → C64 → C64 → Bool

namespace Config

/-- Entries per buffer, `N_MAX` (R6, R41). -/
def nMax : Nat := 4096

/-- FREE: the `k`-th unspecified word a host read returns (R57 (d), R127; log 5). -/
opaque drawnWord : Nat → Word

end Config

end Sys2Proof
end

