-- ==== Sys2Proof/Machine/State.lean ====
section
/-! DEFINITION. The machine's state as plain data, the reasons a step can stop, and the state after reset
(spec/10_state.md; spec/70_reset_and_hazards.md R126, R127). -/

namespace Sys2Proof.Machine

/-- The six stages, in pipeline order (R1, R22). The stage with opcode `s` owns VALID bit `s - 1`. -/
inductive Stage where
  | dconv
  | filt
  | decim
  | sync
  | demap
  | pack
  deriving DecidableEq, Repr

/-- The ten buffers (R41). -/
inductive Buffer where
  | sample
  | pre
  | i
  | q
  | iF
  | qF
  | dec
  | corr
  | code
  | text
  deriving DecidableEq, Repr

/-- One turn of the interleaving of R58: a step of the core sequencer, a host bus read, a host bus write, or the
platform's reset input (R125). The agents' order is data of the state (log 1). -/
inductive Turn where
  | core
  | read (a : Addr)
  | write (a : Addr) (v : Word)
  | reset
  deriving DecidableEq, Repr

/-- STATUS by its fields; bits 7:6 and 63:32 are res0 (R21). -/
structure Status where
  busy : Bool
  done : Bool
  err : Bool
  errSticky : Bool
  busErr : Bool
  hostConflict : Bool
  errCode : BitVec 8
  lastOpc : BitVec 8
  failOpc : BitVec 8
  deriving DecidableEq, Repr

/-- INTR by its fields; bits 63:2 are res0 (R23). -/
structure Intr where
  en : Bool
  pend : Bool
  deriving DecidableEq, Repr

/-- The configuration registers (R25 to R32). -/
structure ConfigRegs where
  n : Word
  fsHz : Word
  fcMhz : Word
  cutoffMhz : Word
  decim : Word
  guard : Word
  m : Word
  gain : F64
  deriving DecidableEq, Repr

/-- The result registers (R33 to R39). -/
structure ResultRegs where
  lLen : Word
  startIndex : Word
  peakPower : F64
  payloadStart : Word
  payloadLen : Word
  bitCount : Word
  charCount : Word
  deriving DecidableEq, Repr

/-- One constellation entry: the point and its 4-bit code (R40; CODE bits 63:4 are res0). -/
structure ConstPoint where
  point : C64
  code : BitVec 4
  deriving DecidableEq, Repr

/-- The buffers' contents: the bytes written since power-on, keyed by bus address. An address that is not listed has no
value (R42, R127; log 6). -/
abbrev Memory := List Host.Cell

/-- The whole state. `opq` is the hidden stage list of R43; `turns`, `readData` and `draws` are the model's own
(log 1, log 4, log 5). -/
structure State where
  status : Status
  valid : BitVec 6
  intr : Intr
  errInfo : Word
  cfg : ConfigRegs
  res : ResultRegs
  table : Vector ConstPoint 16
  mem : Memory
  opq : List Stage
  turns : List Turn
  readData : Word
  draws : Nat
  deriving DecidableEq, Repr

/-- Why the machine stops. -/
inductive Fault where
  /-- A stage read an entry of buffer `b` that nothing has written since power-on, or that no buffer has. R42, R127 and
  spec/93 1.2 ask a model for this fault on SAMPLE and PRE; on the other buffers R42 says it never happens.
  Raised by the stages. Safe: the model stops where the hardware goes on with an unspecified value (log 6, log 15). -/
  | unwrittenEntry (b : Buffer)
  deriving DecidableEq, Repr

/-- Why an instruction is refused. -/
inductive Refusal where
  /-- The instruction has no meaning in the model. No arm of `exec` answers it any more. Safe. -/
  | notModelled (mnemonic : String)
  deriving DecidableEq, Repr

/-- Every STATUS field is 0 (R126). -/
def Status.zero : Status := ⟨false, false, false, false, false, false, 0#8, 0#8, 0#8⟩

/-- The source's constants (R25 to R32, R126). -/
def ConfigRegs.default : ConfigRegs where
  n := 3000#64
  fsHz := 100#64
  fcMhz := 20000#64
  cutoffMhz := 5100#64
  decim := 10#64
  guard := 50#64
  m := 0#64
  gain := 0x4000000000000000#64

/-- Every result register is 0 (R126). -/
def ResultRegs.zero : ResultRegs := ⟨0#64, 0#64, 0#64, 0#64, 0#64, 0#64, 0#64⟩

/-- The constellation after reset, row by row of R40's table. -/
def resetTable : Vector ConstPoint 16 := #v[
  ⟨⟨0xC008000000000000#64, 0xC008000000000000#64⟩, 0x0#4⟩,
  ⟨⟨0xC008000000000000#64, 0xBFF0000000000000#64⟩, 0x1#4⟩,
  ⟨⟨0xC008000000000000#64, 0x3FF0000000000000#64⟩, 0x3#4⟩,
  ⟨⟨0xC008000000000000#64, 0x4008000000000000#64⟩, 0x2#4⟩,
  ⟨⟨0xBFF0000000000000#64, 0xC008000000000000#64⟩, 0x4#4⟩,
  ⟨⟨0xBFF0000000000000#64, 0xBFF0000000000000#64⟩, 0x5#4⟩,
  ⟨⟨0xBFF0000000000000#64, 0x3FF0000000000000#64⟩, 0x7#4⟩,
  ⟨⟨0xBFF0000000000000#64, 0x4008000000000000#64⟩, 0x6#4⟩,
  ⟨⟨0x3FF0000000000000#64, 0xC008000000000000#64⟩, 0xC#4⟩,
  ⟨⟨0x3FF0000000000000#64, 0xBFF0000000000000#64⟩, 0xD#4⟩,
  ⟨⟨0x3FF0000000000000#64, 0x3FF0000000000000#64⟩, 0xF#4⟩,
  ⟨⟨0x3FF0000000000000#64, 0x4008000000000000#64⟩, 0xE#4⟩,
  ⟨⟨0x4008000000000000#64, 0xC008000000000000#64⟩, 0x8#4⟩,
  ⟨⟨0x4008000000000000#64, 0xBFF0000000000000#64⟩, 0x9#4⟩,
  ⟨⟨0x4008000000000000#64, 0x3FF0000000000000#64⟩, 0xB#4⟩,
  ⟨⟨0x4008000000000000#64, 0x4008000000000000#64⟩, 0xA#4⟩]

/-- The machine right after power-on reset (R126): no buffer word has a value, no agent has a turn yet. -/
def State.reset : State where
  status := Status.zero
  valid := 0#6
  intr := ⟨false, false⟩
  errInfo := 0#64
  cfg := ConfigRegs.default
  res := ResultRegs.zero
  table := resetTable
  mem := []
  opq := []
  turns := []
  readData := 0#64
  draws := 0

end Sys2Proof.Machine
end

