-- ==== Sys2Proof/Machine/Flags.lean ====
section
/-! DEFINITION. Every flag computation: the STATUS, VALID and INTR words, how each command event changes them, and the
IEEE comparison of stored words (spec/10_state.md R21 to R23; spec/47_control.md R101, R103; spec/00_scope.md R9). -/

namespace Sys2Proof.Machine

/-- One bit of a word. -/
def flagBit (b : Bool) : BitVec 1 := BitVec.ofBool b

/-- STATUS as the host reads it (R21). -/
def Status.word (s : Status) : Word :=
  0#32 ++ s.failOpc ++ s.lastOpc ++ s.errCode ++ 0#2 ++ flagBit s.hostConflict ++ flagBit s.busErr ++
    flagBit s.errSticky ++ flagBit s.err ++ flagBit s.done ++ flagBit s.busy

/-- INTR as the host reads it (R23). -/
def Intr.word (i : Intr) : Word := 0#62 ++ flagBit i.pend ++ flagBit i.en

/-- VALID as the host reads it (R22). -/
def validWord (v : BitVec 6) : Word := 0#58 ++ v

/-- Which VALID bit a stage owns: the stage with opcode `s` owns bit `s - 1` (R22). -/
def Stage.index : Stage → Nat
  | .dconv => 0
  | .filt => 1
  | .decim => 2
  | .sync => 3
  | .demap => 4
  | .pack => 5

/-- The opcode of a stage (R43, R107). -/
def Stage.opcode (st : Stage) : BitVec 8 := BitVec.ofNat 8 (st.index + 1)

/-- The VALID bit of a stage. -/
def stageValid (v : BitVec 6) (st : Stage) : Bool := v.getLsbD st.index

/-- `VALID[5 : index] <- 0`: the stage's own bit and every later one (R22). -/
def clearFrom (st : Stage) (v : BitVec 6) : BitVec 6 := v &&& BitVec.ofNat 6 (2 ^ st.index - 1)

/-- VALID after a successful stage: its own and every later bit cleared, then its own set (R76 to R98). -/
def validAfter (st : Stage) (v : BitVec 6) : BitVec 6 := clearFrom st v ||| BitVec.ofNat 6 (2 ^ st.index)

/-- STATUS at the acceptance of a legal command (R101). -/
def Status.accepted (opc : BitVec 8) (s : Status) : Status :=
  { s with lastOpc := opc, done := false, err := false, errCode := 0#8, failOpc := 0#8, busy := true }

/-- STATUS at the immediate completion of an illegal word, with error code 0x01 (R101). -/
def Status.illegal (opc : BitVec 8) (s : Status) : Status :=
  { s with lastOpc := opc, done := false, err := true, errSticky := true, errCode := 0x01#8, failOpc := opc }

/-- STATUS at a successful completion (R103). -/
def Status.completedOk (s : Status) : Status := { s with busy := false, done := true, err := false }

/-- STATUS at an error completion (R103). -/
def Status.completedErr (code failOpc : BitVec 8) (s : Status) : Status :=
  { s with busy := false, done := false, err := true, errSticky := true, errCode := code, failOpc := failOpc }

/-- A completion, successful or not, sets PEND whatever EN is (R103, R117). -/
def Intr.completed (i : Intr) : Intr := { i with pend := true }

/-- A host write to INTR: bit 0 is EN, a 1 in bit 1 clears PEND, the rest is ignored (R49). -/
def Intr.written (v : Word) (i : Intr) : Intr := ⟨v.getLsbD 0, i.pend && !v.getLsbD 1⟩

/-- The interrupt output: asserted exactly while EN and PEND are 1 (R116). -/
def State.irq (s : State) : Bool := s.intr.en && s.intr.pend

/-- The exponent field is all ones (R9). -/
def F64.special (w : F64) : Bool := w.extractLsb' 52 11 == 0x7FF#11

/-- A NaN: exponent all ones and a fraction that is not zero (R9). -/
def F64.isNaN (w : F64) : Bool := F64.special w && !(w.extractLsb' 0 52 == 0#52)

/-- Neither a NaN nor an infinity. -/
def F64.isFinite (w : F64) : Bool := !F64.special w

/-- The magnitude bits 62:0, which order finite and infinite words as their absolute values (R9). -/
def F64.magnitude (w : F64) : Nat := (w.extractLsb' 0 63).toNat

/-- An integer that orders the words that are no NaN as IEEE-754 does, with both zeros at 0 (R9). -/
def F64.rank (w : F64) : Int := if w.getLsbD 63 then -(F64.magnitude w : Int) else (F64.magnitude w : Int)

/-- The quiet comparison `a < b`: false when either operand is a NaN (R9). -/
def F64.lt (a b : F64) : Bool := !F64.isNaN a && !F64.isNaN b && decide (F64.rank a < F64.rank b)

/-- The quiet comparison `a > b` (R9). -/
def F64.gt (a b : F64) : Bool := F64.lt b a

/-- The quiet comparison `a == b`: the two zeros are equal (R9). -/
def F64.eq (a b : F64) : Bool := !F64.isNaN a && !F64.isNaN b && decide (F64.rank a = F64.rank b)

end Sys2Proof.Machine
end

