-- ==== Sys2Proof/Machine/Ops.lean ====
section
/-! DEFINITION. The named operations over memory and registers: bytes and words of memory, the address map, the bus
errors, command acceptance, THE ERROR OUTCOME (this machine's exception entry, R108 to R112) beside the successful
completion, soft reset and power-on reset. -/

namespace Sys2Proof.Machine

/-! ### Memory -/

/-- The one canonical form of memory: addresses strictly rising. An unlisted address has no value, so no listed byte can
equal what an unlisted address reads as (log 6). -/
abbrev Memory.wf (m : Memory) : Prop := (m.map Prod.fst).Pairwise (· < ·)

/-- One byte of memory, or none where nothing has been written since power-on. -/
def readByte : Memory → Nat → Option Byte
  | [], _ => none
  | c :: m, a => if c.1 = a then some c.2 else readByte m a

/-- Memory with one byte written, its cell put where its address belongs. -/
def writeByte : Memory → Nat → Byte → Memory
  | [], a, b => [(a, b)]
  | c :: m, a, b =>
    if a < c.1 then (a, b) :: c :: m
    else if a = c.1 then (a, b) :: m
    else c :: writeByte m a b

/-- Bytes written at consecutive addresses from `a`. -/
def writeBytes : Memory → Nat → List Byte → Memory
  | m, _, [] => m
  | m, a, b :: bs => writeBytes (writeByte m a b) (a + 1) bs

/-- `n` bytes read at consecutive addresses from `a`; none if any of them has no value. -/
def readBytes (m : Memory) : Nat → Nat → Option (List Byte)
  | _, 0 => some []
  | a, n + 1 =>
    match readByte m a, readBytes m (a + 1) n with
    | some b, some bs => some (b :: bs)
    | _, _ => none

/-- The 64-bit word at address `a` (R52, R53). -/
def readWord (m : Memory) (a : Nat) : Option Word := (readBytes m a 8).map bytesWord

/-- Words written at consecutive word addresses from `a` (R52, R53). -/
def writeWords (m : Memory) (a : Nat) (ws : List Word) : Memory := writeBytes m a (ws.flatMap wordBytes)

/-- One word written at address `a` (R52, R53). -/
def writeWord (m : Memory) (a : Nat) (w : Word) : Memory := writeWords m a [w]

/-- Memory in which the bytes at `lo` to `lo + len - 1` have become unspecified. -/
def forgetRange (m : Memory) (lo len : Nat) : Memory :=
  m.filter fun c => !(decide (lo ≤ c.1) && decide (c.1 < lo + len))

/-! ### Buffers (R41, R47, R52) -/

/-- The base address of a buffer window (R41). -/
def Buffer.base : Buffer → Nat
  | .sample => 0x10000
  | .pre => 0x20000
  | .i => 0x30000
  | .q => 0x40000
  | .iF => 0x50000
  | .qF => 0x60000
  | .dec => 0x70000
  | .corr => 0x80000
  | .code => 0x90000
  | .text => 0xA0000

/-- A complex buffer has two words an entry, RE then IM (R41, R52). -/
def Buffer.isComplex : Buffer → Bool
  | .pre => true
  | .dec => true
  | _ => false

/-- Bytes of one entry (R52). -/
def Buffer.entryBytes (b : Buffer) : Nat := if b.isComplex then 16 else 8

/-- Bytes of a buffer window: 4096 entries (R41, R47). -/
def Buffer.span (b : Buffer) : Nat := Config.nMax * b.entryBytes

/-- The host may write SAMPLE and PRE only (R41). -/
def Buffer.hostWritable : Buffer → Bool
  | .sample => true
  | .pre => true
  | _ => false

/-- The buffer whose 64 KiB slot has a number (R47, R41: a fixed stride from 0x10000). -/
def Buffer.ofSlot : Nat → Option Buffer
  | 1 => some .sample
  | 2 => some .pre
  | 3 => some .i
  | 4 => some .q
  | 5 => some .iF
  | 6 => some .qF
  | 7 => some .dec
  | 8 => some .corr
  | 9 => some .code
  | 10 => some .text
  | _ => none

/-- The address of entry `k` of a buffer; a complex entry's RE word (R52). -/
def Buffer.entryAddr (b : Buffer) (k : Nat) : Nat := b.base + b.entryBytes * k

/-- The buffers a stage writes (R69). -/
def Stage.outputs : Stage → List Buffer
  | .dconv => [.i, .q]
  | .filt => [.iF, .qF]
  | .decim => [.dec]
  | .sync => [.corr]
  | .demap => [.code]
  | .pack => [.text]

/-- The words of a real buffer's entries from entry 0 on; entries beyond them keep what they held (R42; log 25). -/
def storeReals (m : Memory) (b : Buffer) (ws : List Word) : Memory := writeWords m b.base ws

/-- The two words of a complex entry in address order (R52). -/
def C64.words (z : C64) : List Word := [z.re, z.im]

/-- A complex buffer's entries from entry 0 on. -/
def storeComplex (m : Memory) (b : Buffer) (zs : List C64) : Memory := writeWords m b.base (zs.flatMap C64.words)

/-! ### The address map (R18, R40, R47) -/

/-- The registers of R18. -/
inductive Reg where
  | id
  | ctrl
  | status
  | valid
  | intr
  | errInfo
  | n
  | fsHz
  | fcMhz
  | cutoffMhz
  | decim
  | guard
  | m
  | gain
  | lLen
  | startIndex
  | peakPower
  | payloadStart
  | payloadLen
  | bitCount
  | charCount
  deriving DecidableEq, Repr

/-- The three words of a constellation entry (R40). -/
inductive ConstField where
  | re
  | im
  | code
  deriving DecidableEq, Repr

/-- What an aligned, mapped address names: a register, a CONST word, or word `k` of a buffer window. -/
inductive Target where
  | reg (r : Reg)
  | const (j : Fin 16) (f : ConstField)
  | buf (b : Buffer) (k : Nat)
  deriving DecidableEq, Repr

/-- The offset of a register (R18). -/
def Reg.offset : Reg → Nat
  | .id => 0x000
  | .ctrl => 0x008
  | .status => 0x010
  | .valid => 0x018
  | .intr => 0x020
  | .errInfo => 0x028
  | .n => 0x030
  | .fsHz => 0x038
  | .fcMhz => 0x040
  | .cutoffMhz => 0x048
  | .decim => 0x050
  | .guard => 0x058
  | .m => 0x060
  | .gain => 0x068
  | .lLen => 0x070
  | .startIndex => 0x078
  | .peakPower => 0x080
  | .payloadStart => 0x088
  | .payloadLen => 0x090
  | .bitCount => 0x098
  | .charCount => 0x0A0

/-- The register at an offset (R18). -/
def Reg.ofOffset : Nat → Option Reg
  | 0x000 => some .id
  | 0x008 => some .ctrl
  | 0x010 => some .status
  | 0x018 => some .valid
  | 0x020 => some .intr
  | 0x028 => some .errInfo
  | 0x030 => some .n
  | 0x038 => some .fsHz
  | 0x040 => some .fcMhz
  | 0x048 => some .cutoffMhz
  | 0x050 => some .decim
  | 0x058 => some .guard
  | 0x060 => some .m
  | 0x068 => some .gain
  | 0x070 => some .lLen
  | 0x078 => some .startIndex
  | 0x080 => some .peakPower
  | 0x088 => some .payloadStart
  | 0x090 => some .payloadLen
  | 0x098 => some .bitCount
  | 0x0A0 => some .charCount
  | _ => none

/-- The offset of a word inside its constellation entry (R40). -/
def ConstField.offset : ConstField → Nat
  | .re => 0x00
  | .im => 0x08
  | .code => 0x10

/-- The constellation field at a word number of an entry (R40). -/
def ConstField.ofWord : Nat → ConstField
  | 0 => .re
  | 1 => .im
  | _ => .code

/-- The byte address of a target (R18, R40, R52). -/
def Target.addr : Target → Nat
  | .reg r => r.offset
  | .const j f => 0x100 + 0x18 * j.val + f.offset
  | .buf b k => b.base + 8 * k

/-- The target of a bus address, or none where the address is misaligned or unmapped (R47, R50, R52). -/
def busTarget (a : Addr) : Option Target :=
  let n := a.toNat
  if n % 8 ≠ 0 then none
  else if n < 0x100 then (Reg.ofOffset n).map .reg
  else if n < 0x280 then
    some (.const (Fin.ofNat 16 ((n - 0x100) / 0x18)) (ConstField.ofWord ((n - 0x100) % 0x18 / 8)))
  else
    match Buffer.ofSlot (n / 0x10000) with
    | none => none
    | some b => if n % 0x10000 < b.span then some (.buf b (n % 0x10000 / 8)) else none

/-- The host may not write these registers; a write is a bus error (R17, R18, R51). -/
def Reg.readOnly : Reg → Bool
  | .id => true
  | .status => true
  | .valid => true
  | .errInfo => true
  | .lLen => true
  | .startIndex => true
  | .peakPower => true
  | .payloadStart => true
  | .payloadLen => true
  | .bitCount => true
  | .charCount => true
  | _ => false

/-- The word a register reads as, res0 bits 0; ID is hardwired and CTRL reads 0 (R17, R19, R20, R48). -/
def readReg (s : State) : Reg → Word
  | .id => 0x4951525800000007#64
  | .ctrl => 0#64
  | .status => s.status.word
  | .valid => validWord s.valid
  | .intr => s.intr.word
  | .errInfo => s.errInfo
  | .n => s.cfg.n
  | .fsHz => s.cfg.fsHz
  | .fcMhz => s.cfg.fcMhz
  | .cutoffMhz => s.cfg.cutoffMhz
  | .decim => s.cfg.decim
  | .guard => s.cfg.guard
  | .m => s.cfg.m
  | .gain => s.cfg.gain
  | .lLen => s.res.lLen
  | .startIndex => s.res.startIndex
  | .peakPower => s.res.peakPower
  | .payloadStart => s.res.payloadStart
  | .payloadLen => s.res.payloadLen
  | .bitCount => s.res.bitCount
  | .charCount => s.res.charCount

/-- The configuration registers with one of them written; a register of another kind changes none (R25 to R32). -/
def writeConfig (c : ConfigRegs) (v : Word) : Reg → ConfigRegs
  | .n => { c with n := v }
  | .fsHz => { c with fsHz := v }
  | .fcMhz => { c with fcMhz := v }
  | .cutoffMhz => { c with cutoffMhz := v }
  | .decim => { c with decim := v }
  | .guard => { c with guard := v }
  | .m => { c with m := v }
  | .gain => { c with gain := v }
  | _ => c

/-- The word a constellation field reads as; CODE is zero-extended (R48; log 22). -/
def readConst (p : ConstPoint) : ConstField → Word
  | .re => p.point.re
  | .im => p.point.im
  | .code => p.code.setWidth 64

/-- A constellation entry with one field written; a CODE write keeps bits 3:0 (R49). -/
def writeConst (p : ConstPoint) (v : Word) : ConstField → ConstPoint
  | .re => { p with point := { p.point with re := v } }
  | .im => { p with point := { p.point with im := v } }
  | .code => { p with code := v.setWidth 4 }

/-! ### Bus errors and refusals (R51, R57, R114) -/

/-- A refused access sets BUS_ERR and nothing else (R51). -/
def busError (s : State) : State := { s with status := { s.status with busErr := true } }

/-- A host write refused because BUSY is 1 sets HOST_CONFLICT and nothing else (R57, R100). -/
def hostConflict (s : State) : State := { s with status := { s.status with hostConflict := true } }

/-- An accepted write to an input clears all six VALID bits (R56). -/
def invalidate (s : State) : State := { s with valid := 0#6 }

/-- One unspecified word for the host, and the state that has drawn it (R57 (d), R127; log 5). -/
def draw (s : State) : Word × State := (Config.drawnWord s.draws, { s with draws := s.draws + 1 })

/-! ### Commands: acceptance, error outcome, completion (R101 to R103, R108 to R112) -/

/-- The error codes of R109 that a command can end with. -/
inductive ErrCode where
  | illegalCmd
  | badConfig
  | sequence
  | preambleTooLong
  deriving DecidableEq, Repr

/-- The value of ERR_CODE (R109). -/
def ErrCode.value : ErrCode → BitVec 8
  | .illegalCmd => 0x01#8
  | .badConfig => 0x02#8
  | .sequence => 0x03#8
  | .preambleTooLong => 0x04#8

/-- `CmdError(code, info)` (R110). -/
structure CmdError where
  code : ErrCode
  info : Word
  deriving DecidableEq, Repr

/-- Acceptance of a legal command with its stage list (R101). -/
def accept (opc : BitVec 8) (stages : List Stage) (s : State) : State :=
  { s with status := s.status.accepted opc, errInfo := 0#64, opq := stages }

/-- The immediate completion of an illegal word; BUSY stays 0 and VALID is unchanged (R66, R101). -/
def illegalCommand (w : Word) (s : State) : State :=
  { s with status := s.status.illegal (w.setWidth 8), errInfo := w, intr := s.intr.completed }

/-- `complete_ok` (R103). -/
def completeOk (s : State) : State :=
  { s with status := s.status.completedOk, opq := [], intr := s.intr.completed }

/-- `complete_err(code, s, info)` (R103): TAKING AN ERROR. No state is saved and control goes nowhere (R108, R118): the
command ends, and STATUS, ERR_INFO and PEND report it. -/
def completeErr (failOpc : BitVec 8) (e : CmdError) (s : State) : State :=
  { s with status := s.status.completedErr e.code.value failOpc, errInfo := e.info, opq := [],
           intr := s.intr.completed }

/-- A stage that raised: its own VALID bit and every later one are cleared, then the error completes (R102, R112). -/
def failStage (st : Stage) (e : CmdError) (s : State) : State :=
  completeErr st.opcode e { s with valid := clearFrom st s.valid }

/-- A stage that succeeded sets its VALID bit, the later ones cleared (R22). -/
def markValid (st : Stage) (s : State) : State := { s with valid := validAfter st s.valid }

/-! ### Reset (R106, R125 to R128) -/

/-- The output buffers of the stage that was running become unspecified (R128; log 8). -/
def forgetOutputs (m : Memory) : List Stage → Memory
  | [] => m
  | st :: _ => st.outputs.foldl (fun m b => forgetRange m b.base b.span) m

/-- SRESET (R106, R128): every register, CONST and OPQ at their reset values; SAMPLE and PRE keep their contents, and so
does every output buffer but those of a stage that was running. -/
def softReset (s : State) : State :=
  { State.reset with
    mem := if s.status.busy then forgetOutputs s.mem s.opq else s.mem
    turns := s.turns
    readData := s.readData
    draws := s.draws }

/-- Power-on or platform reset (R125 to R127): every register at its reset value and every buffer unspecified. The
model's own fields stand (log 19). -/
def powerOnReset (s : State) : State :=
  { State.reset with turns := s.turns, readData := s.readData, draws := s.draws }

end Sys2Proof.Machine
end

