-- ==== Sys2Proof/Machine/Operands.lean ====
section
/-! DEFINITION. The operands of the stages: the range checks in their order, the integer operands, and the entries a
stage reads (spec/30_encoding.md R69 to R72; spec/60_exceptions.md R113; spec/10_state.md R42). -/

namespace Sys2Proof.Machine

/-! ### Checks (R109, R113) -/

/-- One check of a stage: whether it fails, and the error it then raises. -/
abbrev StageCheck := Bool × CmdError

/-- The checks are made in order and only the first that fails is reported (R113). -/
def firstFailure : List StageCheck → Option CmdError
  | [] => none
  | c :: cs => if c.1 then some c.2 else firstFailure cs

/-- A length register is outside 1..N_MAX. -/
def outOfRange (w : Word) : Bool := w.toNat == 0 || decide (Config.nMax < w.toNat)

/-- N is outside 1..4096: BAD_CONFIG with N's offset (R25). -/
def checkN (s : State) : StageCheck := (outOfRange s.cfg.n, ⟨.badConfig, 0x030#64⟩)

/-- FS_HZ is 0: BAD_CONFIG with its offset (R26). -/
def checkFs (s : State) : StageCheck := (s.cfg.fsHz == 0#64, ⟨.badConfig, 0x038#64⟩)

/-- DECIM is 0: BAD_CONFIG with its offset (R29). -/
def checkDecim (s : State) : StageCheck := (s.cfg.decim == 0#64, ⟨.badConfig, 0x050#64⟩)

/-- M is outside 1..4096: BAD_CONFIG with its offset (R31). -/
def checkM (s : State) : StageCheck := (outOfRange s.cfg.m, ⟨.badConfig, 0x060#64⟩)

/-- The VALID bit of the stage whose output is needed is 0: SEQUENCE with that bit's index (R109). -/
def checkValid (needed : Stage) (s : State) : StageCheck :=
  (!stageValid s.valid needed, ⟨.sequence, BitVec.ofNat 64 needed.index⟩)

/-- M exceeds L_LEN: PREAMBLE_TOO_LONG with M (R89). -/
def checkPreamble (s : State) : StageCheck :=
  (decide (s.res.lLen.toNat < s.cfg.m.toNat), ⟨.preambleTooLong, s.cfg.m⟩)

/-- The checks of each stage, row by row of R113's table. -/
def stageChecks : Stage → State → List StageCheck
  | .dconv, s => [checkN s, checkFs s]
  | .filt, s => [checkN s, checkFs s, checkValid .dconv s]
  | .decim, s => [checkN s, checkDecim s, checkValid .filt s]
  | .sync, s => [checkM s, checkValid .decim s, checkPreamble s]
  | .demap, s => [checkValid .sync s]
  | .pack, s => [checkValid .demap s]

/-- The error a stage raises in a state, if any (R113). -/
def stageError (st : Stage) (s : State) : Option CmdError := firstFailure (stageChecks st s)

/-! ### Entries of buffers (R42, R52) -/

/-- Entry `k` of a real buffer; none where nothing has written it or the buffer has no such entry (log 15). -/
def realEntry (m : Memory) (b : Buffer) (k : Nat) : Option F64 :=
  if k < Config.nMax then readWord m (b.entryAddr k) else none

/-- Entry `k` of a complex buffer. -/
def complexEntry (m : Memory) (b : Buffer) (k : Nat) : Option C64 :=
  if k < Config.nMax then
    match readWord m (b.entryAddr k), readWord m (b.entryAddr k + 8) with
    | some re, some im => some ⟨re, im⟩
    | _, _ => none
  else none

/-- Reads one item for each index; none if any of them is missing. -/
def readEach {α : Type} (f : Nat → Option α) : List Nat → Option (List α)
  | [] => some []
  | k :: ks =>
    match f k, readEach f ks with
    | some x, some xs => some (x :: xs)
    | _, _ => none

/-- The entries `0..n)` of a real buffer. -/
def readReals (m : Memory) (b : Buffer) (n : Nat) : Option (List F64) := readEach (realEntry m b) (List.range n)

/-- The entries `0..n)` of a complex buffer. -/
def readComplexes (m : Memory) (b : Buffer) (n : Nat) : Option (List C64) :=
  readEach (complexEntry m b) (List.range n)

/-! ### What a stage answers -/

/-- A stage ends with its state, raises an error having changed nothing (R110), or reads an unwritten entry (R42). -/
inductive StageResult where
  | done (s : State)
  | raised (e : CmdError)
  | fault (f : Fault)

/-- A stage's checks come before its first write (R110, R113). -/
def afterChecks (st : Stage) (s : State) (body : State → StageResult) : StageResult :=
  match stageError st s with
  | some e => .raised e
  | none => body s

end Sys2Proof.Machine
end

