-- ==== Sys2Proof/Machine/BitPacker.lean ====
section
/-! DEFINITION. bit_packer: the bit sequence, its 8-bit groups and the PACK stage (spec/46_bit_packer.md). -/

namespace Sys2Proof.Machine

/-- The four bits a code adds to the bit sequence, most significant first (R97). -/
def codeBits (w : Word) : List Bool := [w.getLsbD 3, w.getLsbD 2, w.getLsbD 1, w.getLsbD 0]

/-- The bit sequence of codes in payload order (R97). -/
def bitSequence (codes : List Word) : List Bool := codes.flatMap codeBits

/-- Bits read as an unsigned binary numeral, the first bit the most significant, onto a value so far (R98). -/
def binaryValue : Nat → List Bool → Nat
  | v, [] => v
  | v, b :: bs => binaryValue (2 * v + b.toNat) bs

/-- The character of the group of eight bits that starts at bit `8 · t` (R98). -/
def groupChar (bits : List Bool) (t : Nat) : Word := BitVec.ofNat 64 (binaryValue 0 ((bits.drop (8 * t)).take 8))

/-- The number of complete groups, `BIT_COUNT div 8` (R39, R98). -/
def charCount (r : ResultRegs) : Nat := r.bitCount.toNat / 8

/-- The TEXT words of the complete groups (R98). -/
def packChars (bits : List Bool) (count : Nat) : List Word := (List.range count).map (groupChar bits)

/-- The PACK stage (R98). -/
def stagePack (s : State) : StageResult :=
  afterChecks .pack s fun s =>
    match readReals s.mem .code (s.res.bitCount.toNat / 4) with
    | none => .fault (.unwrittenEntry .code)
    | some codes =>
      .done (markValid .pack
        { s with
          mem := storeReals s.mem .text (packChars (bitSequence codes) (charCount s.res))
          res := { s.res with charCount := BitVec.ofNat 64 (charCount s.res) } })

end Sys2Proof.Machine
end

