-- ==== Sys2Proof/Machine/Decimator.lean ====
section
/-! DEFINITION. fixed_decimator: the output length and the DECIM stage (spec/43_decimator.md). -/

namespace Sys2Proof.Machine

/-- The decimated length `L = (N + D - 1) div D` (R83). -/
def decimatedLength (c : ConfigRegs) : Nat := (c.n.toNat + c.decim.toNat - 1) / c.decim.toNat

/-- The kept indices `k · D` for `k = 0 .. L - 1` (R83). -/
def keptIndices (c : ConfigRegs) : List Nat := (List.range (decimatedLength c)).map (· * c.decim.toNat)

/-- The DECIM stage: a bit-exact copy of the kept entries, I as real part and Q as imaginary part (R84). -/
def stageDecim (s : State) : StageResult :=
  afterChecks .decim s fun s =>
    match readEach (realEntry s.mem .iF) (keptIndices s.cfg), readEach (realEntry s.mem .qF) (keptIndices s.cfg) with
    | none, _ => .fault (.unwrittenEntry .iF)
    | some _, none => .fault (.unwrittenEntry .qF)
    | some xi, some xq =>
      .done (markValid .decim
        { s with
          mem := storeComplex s.mem .dec (List.zipWith C64.mk xi xq)
          res := { s.res with lLen := BitVec.ofNat 64 (decimatedLength s.cfg) } })

end Sys2Proof.Machine
end

