-- ==== Sys2Proof/Machine/Demapper.lean ====
section
/-! DEFINITION. qam_demodulator: the nearest constellation point and the DEMAP stage (spec/45_demapper.md). -/

namespace Sys2Proof.Machine

/-- The scan of R93 over the table entries left: only a strictly nearer point replaces the candidate. -/
def nearestScan (num : NumRecord) (z : C64) (best : ConstPoint) : List ConstPoint → ConstPoint
  | [] => best
  | p :: ps => nearestScan num z (if num.closer z p.point best.point then p else best) ps

/-- The table entry a symbol maps to: the scan starts at entry 0 and goes on in ascending index (R93). -/
def nearest (num : NumRecord) (table : Vector ConstPoint 16) (z : C64) : ConstPoint :=
  nearestScan num z table[0] table.toList.tail

/-- The CODE word of a symbol: its entry's 4-bit code, zero-extended (R95). -/
def symbolCode (num : NumRecord) (table : Vector ConstPoint 16) (z : C64) : Word := (nearest num table z).code.setWidth 64

/-- The payload's indices into DEC (R95). -/
def payloadIndices (r : ResultRegs) : List Nat := (List.range r.payloadLen.toNat).map (r.payloadStart.toNat + ·)

/-- The DEMAP stage (R95). -/
def stageDemap (num : NumRecord) (s : State) : StageResult :=
  afterChecks .demap s fun s =>
    match readEach (complexEntry s.mem .dec) (payloadIndices s.res) with
    | none => .fault (.unwrittenEntry .dec)
    | some zs =>
      .done (markValid .demap
        { s with
          mem := storeReals s.mem .code (zs.map (symbolCode num s.table))
          res := { s.res with bitCount := BitVec.ofNat 64 (4 * s.res.payloadLen.toNat) } })

end Sys2Proof.Machine
end

