-- ==== Sys2Proof/Machine/Downconverter.lean ====
section
/-! DEFINITION. complex_downconverter: the oscillator phase and the DCONV stage (spec/41_downconverter.md). -/

namespace Sys2Proof.Machine

/-- The phase denominator `q = 1000 · FS_HZ` (R75). -/
def phaseDen (c : ConfigRegs) : Nat := 1000 * c.fsHz.toNat

/-- The phase numerator `p(n) = (FC_MHZ · n) mod q`, an unbounded product (R75). -/
def phaseNum (c : ConfigRegs) (n : Nat) : Nat := (c.fcMhz.toNat * n) % phaseDen c

/-- Samples mixed one by one, the first of them being sample `n` (R76). -/
def mixFrom (num : NumRecord) (c : ConfigRegs) : Nat → List F64 → List (F64 × F64)
  | _, [] => []
  | n, x :: xs => num.mix x (phaseNum c n) (phaseDen c) :: mixFrom num c (n + 1) xs

/-- The DCONV stage (R76). -/
def stageDconv (num : NumRecord) (s : State) : StageResult :=
  afterChecks .dconv s fun s =>
    match readReals s.mem .sample s.cfg.n.toNat with
    | none => .fault (.unwrittenEntry .sample)
    | some xs =>
      let iq := mixFrom num s.cfg 0 xs
      let mem := storeReals (storeReals s.mem .i (iq.map Prod.fst)) .q (iq.map Prod.snd)
      .done (markValid .dconv { s with mem := mem })

end Sys2Proof.Machine
end

