-- ==== Sys2Proof/Machine/Reference.lean ====
section
/-! DEFINITION. The reference numerics `NUM_REF` over the reals, and what R14 asks of a numerics record against it
(spec/00_scope.md R9, R13, R14). The step computes nothing with `NUM_REF`: it runs with `numHw`, which R14 (c) holds to
`NUM_REF` (log 13, log 14, log 26). -/

namespace Sys2Proof.Machine

/-- A sample with `-0.0` replaced by `+0.0`: the `s'` of R14 (b). -/
def noNegZero (s : F64) : F64 := if s = 0x8000000000000000#64 then 0#64 else s

/-- The negation of a word, `-(+0.0)` taken as `+0.0` (R14 (b)). -/
def negated (s : F64) : F64 := if s = 0#64 then 0#64 else s ^^^ 0x8000000000000000#64

/-- `val(w)`: the number a finite word denotes (R9). An infinity counts as `2^1024` with its sign, one step above the
largest finite value; on a NaN it is only some number (log 14). -/
def F64.val (w : F64) : ℚ :=
  let e := (w.extractLsb' 52 11).toNat
  let f := (w.extractLsb' 0 52).toNat
  let magnitude : ℚ := if e = 0 then f * 2 ^ (-1074 : ℤ) else (2 ^ 52 + f) * 2 ^ ((e : ℤ) - 1075)
  if w.getLsbD 63 then -magnitude else magnitude

/-- A nonnegative number rounded to an integer, ties to even (R9). -/
def roundTiesEven {K : Type} [Field K] [LinearOrder K] [FloorRing K] (x : K) : ℕ :=
  let f := ⌊x⌋.toNat
  let r := x - f
  if r < 1 / 2 then f
  else if 1 / 2 < r then f + 1
  else if f % 2 = 0 then f
  else f + 1

/-- The exponent of a magnitude's leading bit, no lower than the least normal one, which a zero takes too (R9). -/
def leadingExponent {K : Type} [Field K] [LinearOrder K] [FloorRing K] (x : K) : ℤ :=
  if x = 0 then -1022 else max (Int.log 2 x) (-1022)

/-- The magnitude bits of a nonnegative number rounded to binary64; those above the largest finite value are infinity's
(R9). -/
def roundedBits {K : Type} [Field K] [LinearOrder K] [FloorRing K] (x : K) : ℕ :=
  let e := leadingExponent x
  min ((e + 1022).toNat * 2 ^ 52 + roundTiesEven (x / (2 : K) ^ (e - 52))) (0x7FF * 2 ^ 52)

/-- `rnd(v)`: the word nearest to `v`, ties to even, a zero result being `+0.0` (R9; log 13). -/
def rnd {K : Type} [Field K] [LinearOrder K] [FloorRing K] (v : K) : F64 :=
  let bits := roundedBits |v|
  if bits = 0 then 0#64
  else if v < 0 then 0x8000000000000000#64 ||| BitVec.ofNat 64 bits
  else BitVec.ofNat 64 bits

/-- A pair of words as a complex number (R10). -/
noncomputable def C64.toComplex (z : C64) : ℂ := ⟨(F64.val z.re : ℝ), (F64.val z.im : ℝ)⟩

/-- `NUM_REF.mix` (R13). -/
noncomputable def refMix (s : F64) (p q : ℕ) : F64 × F64 :=
  let turn : ℝ := 2 * Real.pi * p / q
  (rnd ((F64.val s : ℝ) * Real.cos turn), rnd ((F64.val s : ℝ) * Real.sin turn))

/-- `e^{2πi·a/N}`. -/
noncomputable def rootPower (N : ℕ) (a : ℤ) : ℂ := Complex.exp (2 * Real.pi * Complex.I * a / N)

/-- `X[k]`, the unnormalised forward transform (R13). -/
noncomputable def refBin (N : ℕ) (x : List F64) (k : ℕ) : ℂ :=
  ∑ m ∈ Finset.range N, ((F64.val (x.getD m 0#64) : ℝ) : ℂ) * rootPower N (-(k * m))

/-- `NUM_REF.lpf`, entry `n` (R13). -/
noncomputable def refLpf (N : ℕ) (x : List F64) (keep : ℕ → Bool) (g : F64) (n : ℕ) : F64 :=
  rnd ((F64.val g : ℝ) *
    ((1 / (N : ℂ)) * ∑ k ∈ Finset.range N, if keep k then refBin N x k * rootPower N (k * n) else 0).re)

/-- `Σ_m d[m] · conj(r[M-1-m])`: one correlation lag (R85). -/
noncomputable def refLag (M : ℕ) (d r : List C64) : ℂ :=
  ∑ m ∈ Finset.range M,
    C64.toComplex (d.getD m ⟨0#64, 0#64⟩) * (starRingEnd ℂ) (C64.toComplex (r.getD (M - 1 - m) ⟨0#64, 0#64⟩))

/-- `NUM_REF.corr_power` (R13). -/
noncomputable def refCorrPower (M : ℕ) (d r : List C64) : F64 := rnd (Complex.normSq (refLag M d r))

/-- The exact squared distance of two points (R92). -/
def distanceSq (z a : C64) : ℚ :=
  (F64.val z.re - F64.val a.re) ^ 2 + (F64.val z.im - F64.val a.im) ^ 2

/-- `NUM_REF.closer` (R13). -/
def refCloser (z a b : C64) : Bool := decide (distanceSq z a < distanceSq z b)

/-- The record `NUM_REF` (R13). -/
noncomputable def numRef : NumRecord where
  mix := refMix
  lpf := refLpf
  corrPower := refCorrPower
  closer := refCloser

/-- Both coordinates are finite. -/
def C64.isFinite (z : C64) : Bool := F64.isFinite z.re && F64.isFinite z.im

/-- R14 (b): the products at the four quarter turns of a phase `p` over `q`, for the samples `ok` holds of. -/
def quarterTurnsExact (num : NumRecord) (ok : F64 → Prop) : Prop :=
  ∀ s, ok s → ∀ q, 0 < q →
    num.mix s 0 q = (noNegZero s, 0#64) ∧
    (∀ p, 4 * p = q → num.mix s p q = (0#64, noNegZero s)) ∧
    (∀ p, 2 * p = q → num.mix s p q = (negated (noNegZero s), 0#64)) ∧
    (∀ p, 4 * p = 3 * q → num.mix s p q = (0#64, negated (noNegZero s)))

/-- R14 (d): no point is strictly nearer than itself. -/
def closerIrreflexive (num : NumRecord) : Prop := ∀ z a, num.closer z a a = false

/-- The OPEN bound `NUM_TOL`, one for each function (R14 (c)). -/
structure NumTolerance where
  mix : ℚ
  lpf : ℚ
  corrPower : ℚ
  closer : ℚ

/-- A result word is no NaN and differs from the reference word by at most `t`, an infinity counting as `2^1024`
(R14 (c); log 26). -/
def withinTolerance (t : ℚ) (result reference : F64) : Prop :=
  F64.isNaN result = false ∧ |F64.val result - F64.val reference| ≤ t

/-- R14 (c): for finite operands a record's results differ from `NUM_REF`'s by no more than `NUM_TOL`. Two answers of
`closer` differ only where the two squared distances are that close (log 26). -/
structure NearReference (tol : NumTolerance) (num : NumRecord) : Prop where
  mix : ∀ s p q, F64.isFinite s = true → p < q →
    withinTolerance tol.mix (num.mix s p q).1 (numRef.mix s p q).1 ∧
    withinTolerance tol.mix (num.mix s p q).2 (numRef.mix s p q).2
  lpf : ∀ N x keep g n, x.length = N → (∀ w ∈ x, F64.isFinite w = true) → F64.isFinite g = true → n < N →
    withinTolerance tol.lpf (num.lpf N x keep g n) (numRef.lpf N x keep g n)
  corrPower : ∀ M d r, d.length = M → r.length = M → (∀ z ∈ d, C64.isFinite z = true) →
    (∀ z ∈ r, C64.isFinite z = true) →
    withinTolerance tol.corrPower (num.corrPower M d r) (numRef.corrPower M d r)
  closer : ∀ z a b, C64.isFinite z = true → C64.isFinite a = true → C64.isFinite b = true →
    num.closer z a b ≠ numRef.closer z a b → |distanceSq z a - distanceSq z b| ≤ tol.closer

end Sys2Proof.Machine
end

