-- ==== Sys2Proof/Machine/Numerics.lean ====
section
/-! DEFINITION. The hardware's numerics `NUM_HW` and its bound `NUM_TOL`: one OPEN implementation, a constant without a
body, that is held to what R14 (a) to (e), R94 and R95 require of every `NUM_HW` (spec/00_scope.md R12, R14; log 9 to
log 12, log 26). -/

namespace Sys2Proof.Machine

/-- What R14 leaves an implementation free in: its functions, wherever R14 (b), (d), (e), R94 or R95 does not fix the
result. A bin of the transform has the unit's own internal format, which is OPEN and is coded as a natural number (R79;
log 12). -/
structure HardwareParts where
  /-- The products of `NUM_HW.mix` away from the four quarter turns. -/
  mixWords : F64 → Nat → Nat → F64 × F64
  /-- Bin `k` of the transform of a sequence of length `N`. -/
  spectrumBin : Nat → List F64 → Nat → Nat
  /-- Entry `n` of the inverse transform of the kept bins, scaled by the gain word. -/
  synthesize : Nat → List (Nat × Nat) → F64 → Nat → F64
  /-- The power word of one correlation lag (R86). -/
  corrPowerWord : Nat → List C64 → List C64 → F64
  /-- `NUM_HW.closer` on two different points with no NaN coordinate. -/
  closerPoint : C64 → C64 → C64 → Bool

/-- `NUM_HW.mix`: exact at the four quarter turns (R14 (b)), the implementation's elsewhere. -/
def hwMix (h : HardwareParts) (s : F64) (p q : Nat) : F64 × F64 :=
  if p = 0 then (noNegZero s, 0#64)
  else if 4 * p = q then (0#64, noNegZero s)
  else if 2 * p = q then (negated (noNegZero s), 0#64)
  else if 4 * p = 3 * q then (0#64, negated (noNegZero s))
  else h.mixWords s p q

/-- The bins of the transform that the mask keeps, each with its index; the others are not passed on, so they
contribute nothing (R14 (e), R79). -/
def keptBins (h : HardwareParts) (N : Nat) (x : List F64) (keep : Nat → Bool) : List (Nat × Nat) :=
  ((List.range N).filter keep).map fun k => (k, h.spectrumBin N x k)

/-- `NUM_HW.lpf`, entry `n`: transform, mask, inverse transform and gain (R79; log 12). -/
def hwLpf (h : HardwareParts) (N : Nat) (x : List F64) (keep : Nat → Bool) (g : F64) (n : Nat) : F64 :=
  h.synthesize N (keptBins h N x keep) g n

/-- A complex value with a NaN coordinate. -/
def C64.hasNaN (z : C64) : Bool := F64.isNaN z.re || F64.isNaN z.im

/-- `NUM_HW.closer`: false for equal points (R14 (d)) and when any coordinate is a NaN (R94, R95), the implementation's
elsewhere. -/
def hwCloser (h : HardwareParts) (z a b : C64) : Bool :=
  if C64.hasNaN z || C64.hasNaN a || C64.hasNaN b then false
  else if a = b then false
  else h.closerPoint z a b

/-- The record an implementation computes with (R12, R14). -/
def hwRecord (h : HardwareParts) : NumRecord where
  mix := hwMix h
  lpf := hwLpf h
  corrPower := h.corrPowerWord
  closer := hwCloser h

/-- An implementation that R14 allows: its functions, its bound `NUM_TOL`, and that (c) holds of the two. -/
structure Implementation where
  parts : HardwareParts
  tol : NumTolerance
  near : NearReference tol (hwRecord parts)

end Sys2Proof.Machine

namespace Sys2Proof.Config

/-- FREE: the implementation, the OPEN parameters `NUM_HW` and `NUM_TOL` in one (R14; log 9). Its argument only shows
Lean that some implementation exists; it has no body, so nothing can be proved of it but what R14 says of every one. -/
opaque implementation [Inhabited Sys2Proof.Machine.Implementation] : Sys2Proof.Machine.Implementation

end Sys2Proof.Config

namespace Sys2Proof.Machine

/-! ### Some implementation exists -/

/-- A bound on the number of any word, `2^1025`. -/
def wordBound : ℚ := 2 ^ 53 * 2 ^ (972 : ℤ)

/-- Every word's number is at most `2^1025` in magnitude. -/
theorem F64.abs_val_le (w : F64) : |F64.val w| ≤ wordBound := by
  have he : (w.extractLsb' 52 11).toNat < 2 ^ 11 := BitVec.isLt _
  have hf : (w.extractLsb' 0 52).toNat < 2 ^ 52 := BitVec.isLt _
  unfold F64.val wordBound
  generalize (w.extractLsb' 52 11).toNat = e at he
  generalize (w.extractLsb' 0 52).toNat = f at hf
  have hf' : (f : ℚ) ≤ 2 ^ 52 := by exact_mod_cast hf.le
  have scaled : ∀ (a : ℚ) (k : ℤ), 0 ≤ a → a ≤ 2 ^ 53 → k ≤ 972 →
      |a * 2 ^ k| ≤ 2 ^ 53 * 2 ^ (972 : ℤ) := by
    intro a k h0 ha hk
    rw [abs_of_nonneg (by positivity)]
    exact mul_le_mul ha (zpow_le_zpow_right₀ (by norm_num) hk) (by positivity) (by positivity)
  have key : |if e = 0 then (f : ℚ) * 2 ^ (-1074 : ℤ) else (2 ^ 52 + f) * 2 ^ ((e : ℤ) - 1075)| ≤
      2 ^ 53 * 2 ^ (972 : ℤ) := by
    split
    · exact scaled _ _ (by positivity) (by linarith) (by norm_num)
    · exact scaled _ _ (by positivity) (by linarith) (by omega)
  dsimp only
  split
  · rwa [abs_neg]
  · exact key

/-- Any word that is no NaN is within twice that bound of any other. -/
theorem withinTolerance_coarse (a b : F64) (h : F64.isNaN a = false) :
    withinTolerance (wordBound + wordBound) a b :=
  ⟨h, (abs_sub _ _).trans (add_le_add (F64.abs_val_le a) (F64.abs_val_le b))⟩

theorem F64.isNaN_zero : F64.isNaN 0#64 = false := by decide

/-- Negating a finite word, and replacing its `-0.0`, gives no NaN. -/
theorem isNaN_quarterTurn (s : F64) (h : F64.isFinite s = true) :
    F64.isNaN (noNegZero s) = false ∧ F64.isNaN (negated (noNegZero s)) = false := by
  have hs : F64.special s = false := by simpa [F64.isFinite] using h
  have hx : F64.special (s ^^^ 0x8000000000000000#64) = F64.special s := by
    have : (s ^^^ 0x8000000000000000#64).extractLsb' 52 11 = s.extractLsb' 52 11 := by
      rw [BitVec.extractLsb'_xor]
      simp
    simp [F64.special, this]
  unfold noNegZero negated
  split
  · exact ⟨F64.isNaN_zero, F64.isNaN_zero⟩
  · refine ⟨by simp [F64.isNaN, hs], ?_⟩
    split
    · exact F64.isNaN_zero
    · simp [F64.isNaN, hx, hs]

/-- An implementation that answers zero wherever it may, under a bound wide enough for it. It is not the machine's: it
shows that the requirements of R14 can be met together. -/
def coarseParts : HardwareParts where
  mixWords _ _ _ := (0#64, 0#64)
  spectrumBin _ _ _ := 0
  synthesize _ _ _ _ := 0#64
  corrPowerWord _ _ _ := 0#64
  closerPoint := refCloser

/-- It meets R14 (c), with `closer` exact. -/
theorem coarseParts_near :
    NearReference ⟨wordBound + wordBound, wordBound + wordBound, wordBound + wordBound, 0⟩ (hwRecord coarseParts) where
  mix s p q hs _ := by
    obtain ⟨h1, h2⟩ := isNaN_quarterTurn s hs
    have key : F64.isNaN (hwMix coarseParts s p q).1 = false ∧ F64.isNaN (hwMix coarseParts s p q).2 = false := by
      unfold hwMix
      split_ifs
      · exact ⟨h1, F64.isNaN_zero⟩
      · exact ⟨F64.isNaN_zero, h1⟩
      · exact ⟨h2, F64.isNaN_zero⟩
      · exact ⟨F64.isNaN_zero, h2⟩
      · exact ⟨F64.isNaN_zero, F64.isNaN_zero⟩
    exact ⟨withinTolerance_coarse _ _ key.1, withinTolerance_coarse _ _ key.2⟩
  lpf _ _ _ _ _ _ _ _ _ := withinTolerance_coarse _ _ F64.isNaN_zero
  corrPower _ _ _ _ _ _ _ := withinTolerance_coarse _ _ F64.isNaN_zero
  closer z a b hz ha hb h := by
    exfalso
    have finite : ∀ c : C64, C64.isFinite c = true → C64.hasNaN c = false := by
      intro c hc
      simp only [C64.isFinite, F64.isFinite, Bool.and_eq_true, Bool.not_eq_true'] at hc
      simp [C64.hasNaN, F64.isNaN, hc.1, hc.2]
    refine h ?_
    show hwCloser coarseParts z a b = refCloser z a b
    unfold hwCloser
    rw [finite z hz, finite a ha, finite b hb]
    by_cases e : a = b
    · simp [e, refCloser]
    · simp [e, coarseParts]

/-! ### The machine's numerics -/

/-- The implementation the machine is built from: any that R14 allows (log 9). -/
def hardware : Implementation := @Config.implementation ⟨⟨coarseParts, _, coarseParts_near⟩⟩

/-- The numerics the machine runs with, `NUM_HW`. -/
def numHw : NumRecord := hwRecord hardware.parts

/-- The bound `NUM_TOL` of the machine's numerics (R14 (c)). -/
def numTol : NumTolerance := hardware.tol

end Sys2Proof.Machine
end

