-- ==== Sys2Proof/Machine/SpectralFilter.lean ====
section
/-! DEFINITION. fft_engine and spectral_mask: the mask and the FILT stage (spec/42_spectral_filter.md). -/

namespace Sys2Proof.Machine

/-- Bin `k` is kept when `1000 · min(k, N - k) · FS_HZ <= CUTOFF_MHZ · N`, in unbounded integers (R78). -/
def keepBin (c : ConfigRegs) (k : Nat) : Bool :=
  decide (1000 * min k (c.n.toNat - k) * c.fsHz.toNat ≤ c.cutoffMhz.toNat * c.n.toNat)

/-- One sequence through the filter: all `N` entries (R80). -/
def lowpass (num : NumRecord) (c : ConfigRegs) (xs : List F64) : List F64 :=
  (List.range c.n.toNat).map (num.lpf c.n.toNat xs (keepBin c) c.gain)

/-- The FILT stage: I and Q filtered independently (R80). -/
def stageFilt (num : NumRecord) (s : State) : StageResult :=
  afterChecks .filt s fun s =>
    match readReals s.mem .i s.cfg.n.toNat, readReals s.mem .q s.cfg.n.toNat with
    | none, _ => .fault (.unwrittenEntry .i)
    | some _, none => .fault (.unwrittenEntry .q)
    | some xi, some xq =>
      let mem := storeReals (storeReals s.mem .iF (lowpass num s.cfg xi)) .qF (lowpass num s.cfg xq)
      .done (markValid .filt { s with mem := mem })

end Sys2Proof.Machine
end

