-- ==== Sys2Proof/Machine/Synchronizer.lean ====
section
/-! DEFINITION. complex_correlator: the correlation series, the start index, the payload bounds and the SYNC stage
(spec/44_synchronizer.md). -/

namespace Sys2Proof.Machine

/-- The stream window of lag `o`: `DEC[o..o+M)` (R86). -/
def lagWindow (d : List C64) (M o : Nat) : List C64 := (d.drop o).take M

/-- The correlation series: one power word for each lag `o = 0 .. L - M` (R85, R86). -/
def correlation (num : NumRecord) (L M : Nat) (d r : List C64) : List F64 :=
  (List.range (L - M + 1)).map fun o => num.corrPower M (lagWindow d M o) r

/-- The scan of R87 over the words from index `o` on, `best` with its word being the candidate so far: only a strictly
greater word replaces it. -/
def argmaxScan : List F64 → Nat → Nat → F64 → Nat × F64
  | [], _, best, w => (best, w)
  | c :: cs, o, best, w => if F64.gt c w then argmaxScan cs (o + 1) o c else argmaxScan cs (o + 1) best w

/-- The first index of maximum power and its word (R87); `+0.0` at index 0 for an empty series, which no SYNC has. -/
def argmaxFirst : List F64 → Nat × F64
  | [] => (0, 0#64)
  | c :: cs => argmaxScan cs 1 0 c

/-- `PAYLOAD_START = min(START_INDEX + GUARD, L)`, an unbounded sum (R88). -/
def payloadStart (c : ConfigRegs) (best L : Nat) : Nat := min (best + c.guard.toNat) L

/-- The result registers SYNC writes (R91; log 21). -/
def syncResults (c : ConfigRegs) (L : Nat) (series : List F64) (r : ResultRegs) : ResultRegs :=
  let best := argmaxFirst series
  { r with
    startIndex := BitVec.ofNat 64 best.1
    peakPower := best.2
    payloadStart := BitVec.ofNat 64 (payloadStart c best.1 L)
    payloadLen := BitVec.ofNat 64 (L - payloadStart c best.1 L) }

/-- The SYNC stage (R91). -/
def stageSync (num : NumRecord) (s : State) : StageResult :=
  afterChecks .sync s fun s =>
    match readComplexes s.mem .dec s.res.lLen.toNat, readComplexes s.mem .pre s.cfg.m.toNat with
    | none, _ => .fault (.unwrittenEntry .dec)
    | some _, none => .fault (.unwrittenEntry .pre)
    | some d, some r =>
      let series := correlation num s.res.lLen.toNat s.cfg.m.toNat d r
      .done (markValid .sync
        { s with
          mem := storeReals s.mem .corr series
          res := syncResults s.cfg s.res.lLen.toNat series s.res })

end Sys2Proof.Machine
end

