-- ==== Sys2Proof/Machine/Sequencer.lean ====
section
/-! DEFINITION. The core sequencer: one atomic core step, the core steps the schedule grants at once, and the issue of a
command (spec/47_control.md R100 to R103, R107). -/

namespace Sys2Proof.Machine

/-- What a step of this machine answers. -/
abbrev Result := Host.Outcome State Fault Refusal

/-- Goes on from a next state; a fault or refusal ends it. -/
def andThen (r : Result) (f : State → Result) : Result :=
  match r with
  | .next s => f s
  | .fault e => .fault e
  | .refused e => .refused e

/-- Runs one stage (R102). -/
def runStage (num : NumRecord) : Stage → State → StageResult
  | .dconv, s => stageDconv num s
  | .filt, s => stageFilt num s
  | .decim, s => stageDecim s
  | .sync, s => stageSync num s
  | .demap, s => stageDemap num s
  | .pack, s => stagePack s

/-- After a stage that succeeded: the stage leaves OPQ, and the last one completes the command (R102). -/
def afterStage (rest : List Stage) (s : State) : State :=
  match rest with
  | [] => completeOk s
  | st :: more => { s with opq := st :: more }

/-- One core step of a busy core (R102). -/
def coreStep (num : NumRecord) (s : State) : Result :=
  match s.opq with
  | [] => .next (completeOk s)
  | st :: rest =>
    match runStage num st s with
    | .done s' => .next (afterStage rest s')
    | .raised e => .next (failStage st e s)
    | .fault f => .fault f

/-- The core's turn: it has a step exactly when BUSY is 1 (R102); a turn of an idle core changes nothing
(log 17). -/
def coreTurn (num : NumRecord) (s : State) : Result := if s.status.busy then coreStep num s else .next s

/-- The core steps that the schedule `ts` grants before the next access, taken one after the other while the command
runs; what is left of the schedule stands in the state (log 2). -/
def grantedSteps (num : NumRecord) : List Turn → State → Result
  | .core :: ts, s =>
    if s.status.busy then andThen (coreStep num s) (grantedSteps num ts) else .next { s with turns := .core :: ts }
  | ts, s => .next { s with turns := ts }

/-- A CTRL write of a legal command other than SRESET: refused while BUSY, else accepted (R100, R101), and then run as
far as the schedule grants core steps before the host's next access (R102; log 2). -/
def issue (num : NumRecord) (opc : BitVec 8) (stages : List Stage) (s : State) : Result :=
  if s.status.busy then .next (hostConflict s) else grantedSteps num s.turns (accept opc stages s)

/-- A CTRL write of a word that is no command: refused while BUSY, else an immediate error completion (R66, R100, R101). -/
def issueIllegal (w : Word) (s : State) : State := if s.status.busy then hostConflict s else illegalCommand w s

end Sys2Proof.Machine
end

