-- ==== Sys2Proof/Machine/ControlCommands.lean ====
section
/-! DEFINITION. The three commands that are no stage: NOP, RUN and SRESET (spec/47_control.md R104 to R107). -/

namespace Sys2Proof.Machine

/-- NOP (R104). -/
def execNop (s : State) : Result := issue numHw 0x00#8 [] s

/-- RUN: the whole pipeline in order (R105). -/
def execRun (s : State) : Result := issue numHw 0x07#8 [.dconv, .filt, .decim, .sync, .demap, .pack] s

/-- SRESET: accepted whether BUSY is 0 or 1, in the bus write itself (R100, R106). -/
def execSreset (s : State) : Result := .next (softReset s)

end Sys2Proof.Machine
end

