-- ==== Sys2Proof/Machine/StageCommands.lean ====
section
/-! DEFINITION. The six commands that run one stage each (spec/30_encoding.md R65; spec/47_control.md R107). -/

namespace Sys2Proof.Machine

/-- DCONV (R76). -/
def execDconv (s : State) : Result := issue numHw 0x01#8 [.dconv] s

/-- FILT (R80). -/
def execFilt (s : State) : Result := issue numHw 0x02#8 [.filt] s

/-- DECIM (R84). -/
def execDecim (s : State) : Result := issue numHw 0x03#8 [.decim] s

/-- SYNC (R91). -/
def execSync (s : State) : Result := issue numHw 0x04#8 [.sync] s

/-- DEMAP (R95). -/
def execDemap (s : State) : Result := issue numHw 0x05#8 [.demap] s

/-- PACK (R98). -/
def execPack (s : State) : Result := issue numHw 0x06#8 [.pack] s

end Sys2Proof.Machine
end

