-- ==== Sys2Proof/Machine/Dispatch.lean ====
section
/-! DEFINITION. One arm per command. -/

namespace Sys2Proof.Machine

def exec (i : Instr) (s : State) : Host.Outcome State Fault Refusal :=
  match i with
  | .nop => Sys2Proof.Machine.execNop s
  | .dconv => Sys2Proof.Machine.execDconv s
  | .filt => Sys2Proof.Machine.execFilt s
  | .decim => Sys2Proof.Machine.execDecim s
  | .sync => Sys2Proof.Machine.execSync s
  | .demap => Sys2Proof.Machine.execDemap s
  | .pack => Sys2Proof.Machine.execPack s
  | .run => Sys2Proof.Machine.execRun s
  | .sreset => Sys2Proof.Machine.execSreset s

end Sys2Proof.Machine
end

