-- ==== Sys2Proof/Machine/HostBus.lean ====
section
/-! DEFINITION. The host port: MemRead, MemWrite, the CTRL dispatch, and the turns of the schedule
(spec/20_memory.md R46 to R57; spec/47_control.md R100). -/

namespace Sys2Proof.Machine

/-- A read of word `k` of a buffer window: unspecified for a read-only buffer while BUSY (R57 (d)) and for a word nothing
has written since power-on (R127); else the stored word (R52). -/
def readBufferWord (b : Buffer) (k : Nat) (s : State) : Word × State :=
  if s.status.busy && !b.hostWritable then draw s
  else
    match readWord s.mem (b.base + 8 * k) with
    | some w => (w, s)
    | none => draw s

/-- `MemRead(addr, 8)`: the word returned and the state after (R48). -/
def memRead (a : Addr) (s : State) : Word × State :=
  match busTarget a with
  | none => (0#64, busError s)
  | some (.reg r) => (readReg s r, s)
  | some (.const j f) => (readConst s.table[j] f, s)
  | some (.buf b k) => readBufferWord b k s

/-- A CTRL write: the word is decoded at the moment of the write (R62, R100). -/
def ctrlWrite (w : Word) (s : State) : Result :=
  match decodeWord w with
  | .ok i => exec i s
  | .error _ => .next (issueIllegal w s)

/-- A write to an input: refused while BUSY (R57), else stored, and VALID is cleared (R56). -/
def inputWrite (store : State → State) (s : State) : State :=
  if s.status.busy then hostConflict s else invalidate (store s)

/-- A write to a register other than CTRL (R49). -/
def regWrite (r : Reg) (v : Word) (s : State) : State :=
  if r.readOnly then busError s
  else if r = .intr then { s with intr := s.intr.written v }
  else inputWrite (fun s => { s with cfg := writeConfig s.cfg v r }) s

/-- A write to a CONST word (R40, R49). -/
def constWrite (j : Fin 16) (f : ConstField) (v : Word) (s : State) : State :=
  inputWrite (fun s => { s with table := s.table.set j (writeConst s.table[j] v f) }) s

/-- A write to word `k` of a buffer window (R49). -/
def bufferWrite (b : Buffer) (k : Nat) (v : Word) (s : State) : State :=
  if b.hostWritable then inputWrite (fun s => { s with mem := writeWord s.mem (b.base + 8 * k) v }) s
  else busError s

/-- `MemWrite(addr, 8, v)` (R49). -/
def memWrite (a : Addr) (v : Word) (s : State) : Result :=
  match busTarget a with
  | none => .next (busError s)
  | some (.reg .ctrl) => ctrlWrite v s
  | some (.reg r) => .next (regWrite r v s)
  | some (.const j f) => .next (constWrite j f v s)
  | some (.buf b k) => .next (bufferWrite b k v s)

/-- A bus read as a turn: the word returned stands in `readData` (R46; log 4). -/
def hostRead (a : Addr) (s : State) : State :=
  let r := memRead a s
  { r.2 with readData := r.1 }

/-- One turn of the schedule (R58). -/
def takeTurn : Turn → State → Result
  | .core, s => coreTurn numHw s
  | .read a, s => .next (hostRead a s)
  | .write a v, s => memWrite a v s
  | .reset, s => .next (powerOnReset s)

/-- The next turn of the schedule; with none left the core has the turn (weak fairness, R102; log 3). -/
def nextTurn (s : State) : Result :=
  match s.turns with
  | [] => coreTurn numHw s
  | t :: ts => takeTurn t { s with turns := ts }

/-- The address of CTRL (R20). -/
def ctrlAddr : Addr := 0x00008#20

/-- The schedule with a host write of a command word to CTRL put in front: where the machine takes its next command
from (R62; log 16). -/
def withCommand (s : State) (w : Word) : State := { s with turns := .write ctrlAddr w :: s.turns }

end Sys2Proof.Machine
end

