-- ==== Sys2Proof/Machine/Step.lean ====
section
/-! DEFINITION. One step of the whole machine, and how a command is placed where the next step takes it from. -/

namespace Sys2Proof.Machine

/-- One step: the turn that stands first in the schedule (R58, R102). -/
def step (s : State) : Host.Outcome State Fault Refusal := nextTurn s

/-- The state in which the very next step is the host's CTRL write of the instruction whose table bits are `w`
(log 16). -/
def State.withFetchWord (s : State) (nbits w : Nat) : State := withCommand s (tableWord nbits w)

end Sys2Proof.Machine
end

