-- ==== Sys2Proof/Machine/HostProgram.lean ====
section
/-! DEFINITION. The host-program notation: one line as the bus transactions it stands for (spec/30_encoding.md R73, R74).
The test harness's EXPECT is no bus transaction and has no line here. -/

namespace Sys2Proof.Machine

/-- One line of a host program. -/
inductive HostLine where
  /-- `WR <target>, <value>`. -/
  | wr (t : Target) (v : Word)
  /-- `WR @<hex address>, <value>`. -/
  | wrAt (a : Addr) (v : Word)
  /-- `RD <target>`. -/
  | rd (t : Target)
  /-- `RD @<hex address>`. -/
  | rdAt (a : Addr)
  /-- `CMD <mnemonic>`. -/
  | cmd (i : Instr)
  /-- `POLL` that takes `reads` reads of STATUS before one shows BUSY 0: how many depends on the schedule (log 24). -/
  | poll (reads : Nat)
  /-- `ACK` while INTR.EN is `en`. -/
  | ack (en : Bool)
  /-- `FILL <buf>[k..), <v0>, <v1>, ...`. -/
  | fill (b : Buffer) (k : Nat) (vs : List Word)
  /-- `FILLC PRE[k..), (<re0>,<im0>), ...`. -/
  | fillc (k : Nat) (zs : List C64)
  deriving DecidableEq, Repr

/-- The bus address of a target (R47, R52). -/
def targetAddr (t : Target) : Addr := BitVec.ofNat 20 t.addr

/-- Writes of words at consecutive word numbers of a buffer window, from word `k` on. -/
def fillTurns (b : Buffer) : Nat → List Word → List Turn
  | _, [] => []
  | k, v :: vs => .write (targetAddr (.buf b k)) v :: fillTurns b (k + 1) vs

/-- The bus transactions of a line (R73, R74). -/
def hostLineTurns : HostLine → List Turn
  | .wr t v => [.write (targetAddr t) v]
  | .wrAt a v => [.write a v]
  | .rd t => [.read (targetAddr t)]
  | .rdAt a => [.read a]
  | .cmd i => [.write ctrlAddr (encodeWord i)]
  | .poll n => List.replicate n (.read (targetAddr (.reg .status)))
  | .ack en => [.write (targetAddr (.reg .intr)) (Intr.word ⟨en, true⟩)]
  | .fill b k vs => fillTurns b k vs
  | .fillc k zs => fillTurns .pre (2 * k) (zs.flatMap C64.words)

/-- A host program as the turns of its lines in order; the core's turns come between them as a schedule has it. -/
def hostProgramTurns (lines : List HostLine) : List Turn := lines.flatMap hostLineTurns

end Sys2Proof.Machine
end

