-- ==== Sys2Proof/Safety.lean ====
section
/-! DEFINITION. The terms claims are made in: the invariants of the machine, the end of a run, and the state a completed
or failed command leaves. -/

namespace Sys2Proof.Machine

/-! ### Index loops of the rules -/

/-- The loop of R87 on indices: `best` moves to a later offset only on a strictly greater word. -/
def firstMaxIndex (series : List F64) : Nat :=
  (List.range series.length).tail.foldl
    (fun best o => if F64.gt (series.getD o 0#64) (series.getD best 0#64) then o else best) 0

/-- The loop of R93 on indices: `best` moves to a later entry only on a strictly nearer point. -/
def nearestIndex (num : NumRecord) (table : Vector ConstPoint 16) (z : C64) : Fin 16 :=
  (List.finRange 16).tail.foldl (fun best j => if num.closer z table[j].point table[best].point then j else best) 0

/-- Bit `4·p + i` of the bit sequence is bit `3 - i` of code `p` (R97). -/
def sequenceBit (codes : List Word) (k : Nat) : Bool := (codes.getD (k / 4) 0#64).getLsbD (3 - k % 4)

/-! ### Invariants -/

/-- The stages of the pipeline in order (R1, R105). -/
def pipeline : List Stage := [.dconv, .filt, .decim, .sync, .demap, .pack]

/-- What STATUS, VALID, ERR_INFO and OPQ obey in every state a run reaches (R21, R22, R24, R43). -/
structure ControlInv (s : State) : Prop where
  /-- OPQ is empty when BUSY is 0 (R43). -/
  idle_opq : s.status.busy = false → s.opq = []
  /-- OPQ is one stage, or what is left of the pipeline (R43, R107). -/
  opq_shape : (∃ st, s.opq = [st]) ∨ s.opq <:+ pipeline
  /-- While a command runs, neither DONE nor ERR is 1 (R21, R101). -/
  busy_clear : s.status.busy = true → s.status.done = false ∧ s.status.err = false
  /-- DONE and ERR are never 1 together (R21). -/
  done_or_err : ¬ (s.status.done = true ∧ s.status.err = true)
  /-- ERR_STICKY is set every time ERR is (R21). -/
  sticky : s.status.err = true → s.status.errSticky = true
  /-- Without an error the report is empty (R21, R24). -/
  no_report : s.status.err = false → s.status.errCode = 0#8 ∧ s.status.failOpc = 0#8 ∧ s.errInfo = 0#64
  /-- Codes 0x05 to 0xFF are never produced (R109). -/
  code_range : s.status.err = true → 1 ≤ s.status.errCode.toNat ∧ s.status.errCode.toNat ≤ 4
  /-- A stage's output is valid only where its input's is (R22, R113). -/
  valid_prefix : ∀ st st' : Stage, st'.index ≤ st.index → stageValid s.valid st = true → stageValid s.valid st' = true

/-- Memory keeps its canonical form and lists bytes of buffer windows only (R47; log 6). -/
structure MemoryInv (s : State) : Prop where
  wf : Memory.wf s.mem
  mapped : ∀ c ∈ s.mem, ∃ b : Buffer, b.base ≤ c.1 ∧ c.1 < b.base + b.span

/-- The entries `0..n)` of a real buffer have values. -/
abbrev realsWritten (m : Memory) (b : Buffer) (n : Nat) : Prop := ∀ k < n, (realEntry m b k).isSome = true

/-- The entries `0..n)` of a complex buffer have values. -/
abbrev complexesWritten (m : Memory) (b : Buffer) (n : Nat) : Prop := ∀ k < n, (complexEntry m b k).isSome = true

/-- The value of character `t`: eight bits of the codes from bit `8·t` on, the first the most significant (R98). -/
def characterValue (codes : List Word) (t : Nat) : Nat :=
  ∑ i ∈ Finset.range 8, (sequenceBit codes (8 * t + i)).toNat * 2 ^ (7 - i)

/-- The entries and result registers of a stage's output are that stage's results of the inputs as they now stand, each
stage as its rule has it (R76, R80, R84, R86 to R88, R95, R98). -/
def resultsHold : Stage → State → Prop
  | .dconv, s => ∀ n < s.cfg.n.toNat, ∃ x, realEntry s.mem .sample n = some x ∧
      realEntry s.mem .i n = some (numHw.mix x (phaseNum s.cfg n) (phaseDen s.cfg)).1 ∧
      realEntry s.mem .q n = some (numHw.mix x (phaseNum s.cfg n) (phaseDen s.cfg)).2
  | .filt, s => ∃ xi xq : List F64, xi.length = s.cfg.n.toNat ∧ xq.length = s.cfg.n.toNat ∧
      ∀ n < s.cfg.n.toNat, realEntry s.mem .i n = xi[n]? ∧ realEntry s.mem .q n = xq[n]? ∧
        realEntry s.mem .iF n = some (numHw.lpf s.cfg.n.toNat xi (keepBin s.cfg) s.cfg.gain n) ∧
        realEntry s.mem .qF n = some (numHw.lpf s.cfg.n.toNat xq (keepBin s.cfg) s.cfg.gain n)
  | .decim, s => ∀ k < s.res.lLen.toNat, ∃ re im, realEntry s.mem .iF (k * s.cfg.decim.toNat) = some re ∧
      realEntry s.mem .qF (k * s.cfg.decim.toNat) = some im ∧ complexEntry s.mem .dec k = some ⟨re, im⟩
  | .sync, s => ∃ (d r : List C64) (series : List F64), d.length = s.res.lLen.toNat ∧ r.length = s.cfg.m.toNat ∧
      series.length = s.res.lLen.toNat - s.cfg.m.toNat + 1 ∧
      (∀ k < d.length, complexEntry s.mem .dec k = d[k]?) ∧ (∀ k < r.length, complexEntry s.mem .pre k = r[k]?) ∧
      (∀ o < series.length, realEntry s.mem .corr o = series[o]? ∧
        series[o]? = some (numHw.corrPower s.cfg.m.toNat ((d.drop o).take s.cfg.m.toNat) r)) ∧
      s.res.startIndex.toNat = firstMaxIndex series
  | .demap, s => ∀ p < s.res.payloadLen.toNat, ∃ z, complexEntry s.mem .dec (s.res.payloadStart.toNat + p) = some z ∧
      realEntry s.mem .code p = some ((s.table.get (nearestIndex numHw s.table z)).code.setWidth 64)
  | .pack, s => ∃ codes : List Word, codes.length = s.res.bitCount.toNat / 4 ∧
      (∀ p < codes.length, realEntry s.mem .code p = codes[p]?) ∧
      ∀ t < s.res.charCount.toNat, realEntry s.mem .text t = some (BitVec.ofNat 64 (characterValue codes t))

/-- What each VALID bit says of the buffers and result registers it covers: they are written, they agree with the
configuration, and they are the stage's results of its present inputs (R22, R33 to R39, R42, R56). -/
structure CoverageInv (s : State) : Prop where
  results : ∀ st : Stage, stageValid s.valid st = true → resultsHold st s
  iq : stageValid s.valid .dconv = true →
    1 ≤ s.cfg.n.toNat ∧ s.cfg.n.toNat ≤ Config.nMax ∧ s.cfg.fsHz ≠ 0#64 ∧
    realsWritten s.mem .i s.cfg.n.toNat ∧ realsWritten s.mem .q s.cfg.n.toNat
  filt : stageValid s.valid .filt = true →
    realsWritten s.mem .iF s.cfg.n.toNat ∧ realsWritten s.mem .qF s.cfg.n.toNat
  dec : stageValid s.valid .decim = true →
    s.cfg.decim ≠ 0#64 ∧ s.res.lLen.toNat = (s.cfg.n.toNat + s.cfg.decim.toNat - 1) / s.cfg.decim.toNat ∧
    complexesWritten s.mem .dec s.res.lLen.toNat
  sync : stageValid s.valid .sync = true →
    1 ≤ s.cfg.m.toNat ∧ s.cfg.m.toNat ≤ s.res.lLen.toNat ∧
    realsWritten s.mem .corr (s.res.lLen.toNat - s.cfg.m.toNat + 1) ∧
    s.res.startIndex.toNat ≤ s.res.lLen.toNat - s.cfg.m.toNat ∧
    realEntry s.mem .corr s.res.startIndex.toNat = some s.res.peakPower ∧
    s.res.payloadStart.toNat = min (s.res.startIndex.toNat + s.cfg.guard.toNat) s.res.lLen.toNat ∧
    s.res.payloadLen.toNat = s.res.lLen.toNat - s.res.payloadStart.toNat
  code : stageValid s.valid .demap = true →
    s.res.bitCount.toNat = 4 * s.res.payloadLen.toNat ∧
    ∀ p < s.res.payloadLen.toNat, ∃ w, realEntry s.mem .code p = some w ∧ w.toNat < 16
  text : stageValid s.valid .pack = true →
    s.res.charCount.toNat = s.res.bitCount.toNat / 8 ∧
    ∀ t < s.res.charCount.toNat, ∃ w, realEntry s.mem .text t = some w ∧ w.toNat < 256

/-! ### Runs -/

/-- The turns that are host accesses; a core step and the platform's reset are none (R58). -/
def Turn.isAccess : Turn → Bool
  | .core => false
  | .read _ => true
  | .write _ _ => true
  | .reset => false

/-- A run has ended when the host has issued its last access and BUSY is 0, whatever core steps or resets the schedule
still holds (R135). -/
def runEnded (s : State) : Bool := s.turns.all (fun x => !x.isAccess) && !s.status.busy

/-- `t` is reached from `s` by steps none of which stops. -/
def reaches (s t : State) : Prop := ∃ k, Sys2Proof.core.run k s = .next t

/-! ### What a command leaves -/

/-- The command that runs one stage (R107). -/
def Stage.command : Stage → Instr
  | .dconv => .dconv
  | .filt => .filt
  | .decim => .decim
  | .sync => .sync
  | .demap => .demap
  | .pack => .pack

/-- A state as it would be with the core idle and one core step granted next: a stage command given here runs its stage
on the same inputs. -/
def idleWithOneCoreTurn (s : State) : State :=
  { s with status := { s.status with busy := false }, opq := [], turns := [.core] }

/-- The state a command that completed without error leaves: STATUS, ERR_INFO, PEND and OPQ as R101 and R103 say, with
the VALID bits, memory, result registers and remaining schedule given; all else as before. -/
def commandDone (opc : BitVec 8) (valid : BitVec 6) (mem : Memory) (res : ResultRegs) (ts : List Turn) (s : State) :
    State :=
  { s with
    status := { s.status with
      busy := false, done := true, err := false, errCode := 0x00#8, lastOpc := opc, failOpc := 0x00#8 }
    valid := valid
    intr := { s.intr with pend := true }
    errInfo := 0#64
    mem := mem
    res := res
    opq := []
    turns := ts }

/-- The state a command that failed in stage `failOpc` leaves: STATUS, ERR_INFO, PEND and OPQ as R101 and R103 say, with
the VALID bits, memory, result registers and remaining schedule given; all else as before. -/
def commandFailed (opc failOpc code : BitVec 8) (info : Word) (valid : BitVec 6) (mem : Memory) (res : ResultRegs)
    (ts : List Turn) (s : State) : State :=
  { s with
    status := { s.status with
      busy := false, done := false, err := true, errSticky := true, errCode := code, lastOpc := opc,
      failOpc := failOpc }
    valid := valid
    intr := { s.intr with pend := true }
    errInfo := info
    mem := mem
    res := res
    opq := []
    turns := ts }

/-- Every byte outside the given windows (first address and length of each) reads as before. -/
def bytesKeptOutside (windows : List (Nat × Nat)) (m m' : Memory) : Prop :=
  ∀ a, (∀ w ∈ windows, a < w.1 ∨ w.1 + w.2 ≤ a) → readByte m' a = readByte m a

/-- What no command but SRESET changes: configuration, table, EN, BUS_ERR, the model's own counters; and HOST_CONFLICT,
unless the command was refused (R57, R69). -/
def commandFrame (s t : State) : Prop :=
  t.cfg = s.cfg ∧ t.table = s.table ∧ t.intr.en = s.intr.en ∧ t.status.busErr = s.status.busErr ∧
  t.readData = s.readData ∧ t.draws = s.draws ∧
  t.status.hostConflict = (s.status.hostConflict || s.status.busy)

end Sys2Proof.Machine
end

