-- ==== Sys2Proof/Certificates/Slice0/Obligations.lean ====
section
/-! DEFINITION. The statements for the provers, in the order of OBLIGATIONS.json. Each docstring names the rule it
formalises, or says that it rests on a choice of the model and names the log entry. -/

open Sys2Proof Sys2Proof.Machine

/-! ### Reset and identity -/

/-- R126, R40: what each register reads as right after reset, the constellation by its levels and Gray codes, no stage
pending, `irq` low, and no buffer byte with a value: that an unspecified byte has no value is the model's choice
(log 6). -/
def Obligations.ResetGivesEveryRegisterItsValue : Prop :=
  (∀ rv ∈ [(Reg.id, 0x4951525800000007#64), (.ctrl, 0#64), (.status, 0#64), (.valid, 0#64), (.intr, 0#64),
      (.errInfo, 0#64), (.n, 3000#64), (.fsHz, 100#64), (.fcMhz, 20000#64), (.cutoffMhz, 5100#64), (.decim, 10#64),
      (.guard, 50#64), (.m, 0#64), (.gain, 0x4000000000000000#64), (.lLen, 0#64), (.startIndex, 0#64),
      (.peakPower, 0#64), (.payloadStart, 0#64), (.payloadLen, 0#64), (.bitCount, 0#64), (.charCount, 0#64)],
    readReg State.reset rv.1 = rv.2) ∧
  (∀ j : Fin 16,
    let level : Nat → F64 := fun i =>
      [0xC008000000000000#64, 0xBFF0000000000000#64, 0x3FF0000000000000#64, 0x4008000000000000#64].getD i 0#64
    let gray : Nat → BitVec 2 := fun i => [0#2, 1#2, 3#2, 2#2].getD i 0#2
    State.reset.table[j] = ⟨⟨level (j.val / 4), level (j.val % 4)⟩, gray (j.val / 4) ++ gray (j.val % 4)⟩) ∧
  State.reset.opq = [] ∧ State.reset.irq = false ∧ ∀ a, readByte State.reset.mem a = none

/-! ### Encoding -/

/-- R65: a CTRL word is a legal command exactly when it is one of the nine words of the table, and which one it is. -/
def Obligations.LegalWordsAreExactlyTheNine : Prop :=
  ∀ (w : Word) (i : Instr), decodeWord w = .ok i ↔
    (w, i) ∈ [(0x0000000000000000#64, Instr.nop), (0x0000000000000001#64, .dconv), (0x0000000000000002#64, .filt),
      (0x0000000000000003#64, .decim), (0x0000000000000004#64, .sync), (0x0000000000000005#64, .demap),
      (0x0000000000000006#64, .pack), (0x0000000000000007#64, .run), (0x000000000000000F#64, .sreset)]

/-- R64, R65, R68 (the byte order is R53's): decoding the bytes of an encoded command, whatever follows them, gives the
command and what follows. -/
def Obligations.EncodedCommandsDecodeBack : Prop :=
  ∀ (i : Instr) (rest : List Byte), i.wellFormed = true → decode (encode i ++ rest) = .ok (i, rest)

/-- R65, R66: a few words written out from the table, legal and illegal. -/
def Obligations.SampleWordsDecodeAsTheTableSays : Prop :=
  decodeTableWord 64 0x0 = some .nop ∧ decodeTableWord 64 0x1 = some .dconv ∧ decodeTableWord 64 0x4 = some .sync ∧
  decodeTableWord 64 0x7 = some .run ∧ decodeTableWord 64 0xF = some .sreset ∧ decodeTableWord 64 0x8 = none ∧
  decodeTableWord 64 0x10 = none ∧ decodeTableWord 64 0x101 = none ∧ decodeTableWord 64 0x10F = none

/-! ### A step runs the decoded command -/

/-- R62, R100: when the host's next access is a CTRL write whose word decodes to a command, the step is that command's
meaning, in the state in which the access has been taken from the schedule. -/
def Obligations.StepRunsTheCommandWritten : Prop :=
  ∀ (s : State) (w : Word) (i : Instr) (ts : List Turn), s.turns = .write 0x00008#20 w :: ts → decodeWord w = .ok i →
    step s = exec i { s with turns := ts }

/-- R66: an illegal word completes at once while idle, with ILLEGAL_CMD, and is refused with HOST_CONFLICT while BUSY.
-/
def Obligations.IllegalWordCompletesAtOnceOrIsRefused : Prop :=
  ∀ (s : State) (w : Word) (ts : List Turn), s.turns = .write 0x00008#20 w :: ts →
    (w.extractLsb' 8 56 ≠ 0#56 ∨ (8 ≤ w.toNat % 256 ∧ w.toNat % 256 ≠ 15)) →
    (s.status.busy = false → step s = .next { s with
      status := { s.status with
        lastOpc := w.extractLsb' 0 8, done := false, err := true, errSticky := true, errCode := 0x01#8,
        failOpc := w.extractLsb' 0 8 }
      errInfo := w
      intr := { s.intr with pend := true }
      turns := ts }) ∧
    (s.status.busy = true → step s = .next { s with status := { s.status with hostConflict := true }, turns := ts })

/-- R100, R57 (b): while BUSY every command but SRESET is turned away, leaving HOST_CONFLICT and nothing else. -/
def Obligations.BusyCoreTurnsCommandsAway : Prop :=
  ∀ (i : Instr) (s : State), i ≠ .sreset → s.status.busy = true →
    exec i s = .next { s with status := { s.status with hostConflict := true } }

/-- R101: with no core turn before the host's next access, a legal command other than SRESET is accepted and no more:
BUSY is 1, its stage list is pending, and the report of the last command is cleared. -/
def Obligations.AcceptanceSetsBusyAndTheStageList : Prop :=
  ∀ (i : Instr) (s : State) (stages : List Stage),
    (i, stages) ∈ [(Instr.nop, ([] : List Stage)), (.dconv, [.dconv]), (.filt, [.filt]), (.decim, [.decim]),
      (.sync, [.sync]), (.demap, [.demap]), (.pack, [.pack]), (.run, pipeline)] →
    s.status.busy = false → (∀ ts, s.turns ≠ .core :: ts) →
    exec i s = .next { s with
      status := { s.status with
        busy := true, done := false, err := false, errCode := 0x00#8, failOpc := 0x00#8,
        lastOpc := (encodeWord i).extractLsb' 0 8 }
      errInfo := 0#64
      opq := stages }

/-! ### The commands complete

The core turns that stand first in the schedule are granted to the command in the step that accepts it: the schedule is
the model's own data (log 1), and that one step takes them with the write is its choice (log 2). -/

/-- R104 (log 2): given a core turn, NOP completes and changes nothing but STATUS, ERR_INFO and PEND. -/
def Obligations.NopCompletesAndChangesNothingElse : Prop :=
  ∀ (s : State) (ts : List Turn), s.status.busy = false → s.turns = .core :: ts →
    exec .nop s = .next (commandDone 0x00#8 s.valid s.mem s.res ts s)

/-- R75, R76 (log 2): given a core turn, DCONV completes for every legal configuration and written waveform. Each I and
Q entry is the mix of its sample at phase `(FC_MHZ · n) mod (1000 · FS_HZ)`, VALID is V_IQ alone, and no byte
outside `I[0..N)`, `Q[0..N)` changes. -/
def Obligations.DconvMixesTheWaveform : Prop :=
  ∀ (s : State) (ts : List Turn), s.status.busy = false → s.turns = .core :: ts →
    1 ≤ s.cfg.n.toNat → s.cfg.n.toNat ≤ 4096 → s.cfg.fsHz ≠ 0#64 → realsWritten s.mem .sample s.cfg.n.toNat →
    ∃ mem, exec .dconv s = .next (commandDone 0x01#8 0b000001#6 mem s.res ts s) ∧
      (∀ n x, n < s.cfg.n.toNat → realEntry s.mem .sample n = some x →
        let q := 1000 * s.cfg.fsHz.toNat
        let p := (s.cfg.fcMhz.toNat * n) % q
        realEntry mem .i n = some (numHw.mix x p q).1 ∧ realEntry mem .q n = some (numHw.mix x p q).2) ∧
      bytesKeptOutside [(0x30000, 8 * s.cfg.n.toNat), (0x40000, 8 * s.cfg.n.toNat)] s.mem mem

/-- R78, R80 (log 2): given a core turn, FILT completes for every legal configuration with V_IQ set and I, Q written. IF
and QF are the masked lowpass of I and of Q under the same integer mask, and no byte outside `IF[0..N)`, `QF[0..N)`
changes. -/
def Obligations.FiltFiltersIAndQ : Prop :=
  ∀ (s : State) (ts : List Turn) (xi xq : List F64), s.status.busy = false → s.turns = .core :: ts →
    1 ≤ s.cfg.n.toNat → s.cfg.n.toNat ≤ 4096 → s.cfg.fsHz ≠ 0#64 → stageValid s.valid .dconv = true →
    xi.length = s.cfg.n.toNat → xq.length = s.cfg.n.toNat →
    (∀ n < s.cfg.n.toNat, realEntry s.mem .i n = xi[n]? ∧ realEntry s.mem .q n = xq[n]?) →
    let N := s.cfg.n.toNat
    let keep := fun k => decide (1000 * min k (N - k) * s.cfg.fsHz.toNat ≤ s.cfg.cutoffMhz.toNat * N)
    ∃ mem, exec .filt s = .next (commandDone 0x02#8 0b000011#6 mem s.res ts s) ∧
      (∀ n < N, realEntry mem .iF n = some (numHw.lpf N xi keep s.cfg.gain n) ∧
        realEntry mem .qF n = some (numHw.lpf N xq keep s.cfg.gain n)) ∧
      bytesKeptOutside [(0x50000, 8 * N), (0x60000, 8 * N)] s.mem mem

/-- R83, R84 (log 2): given a core turn, DECIM completes for every legal configuration with V_FILT set and IF, QF
written up to N. DEC holds every DECIM-th word of both, bit for bit, L_LEN is `ceil(N / DECIM)`, and no byte outside
`DEC[0..L)` changes. -/
def Obligations.DecimKeepsEveryDthEntry : Prop :=
  ∀ (s : State) (ts : List Turn), s.status.busy = false → s.turns = .core :: ts →
    1 ≤ s.cfg.n.toNat → s.cfg.n.toNat ≤ 4096 → s.cfg.decim ≠ 0#64 → stageValid s.valid .filt = true →
    realsWritten s.mem .iF s.cfg.n.toNat → realsWritten s.mem .qF s.cfg.n.toNat →
    let D := s.cfg.decim.toNat
    let L := (s.cfg.n.toNat + D - 1) / D
    ∃ mem, exec .decim s = .next (commandDone 0x03#8 ((s.valid &&& 0b000011#6) ||| 0b000100#6) mem
        { s.res with lLen := BitVec.ofNat 64 L } ts s) ∧
      (∀ k re im, k < L → realEntry s.mem .iF (k * D) = some re → realEntry s.mem .qF (k * D) = some im →
        complexEntry mem .dec k = some ⟨re, im⟩) ∧
      bytesKeptOutside [(0x70000, 16 * L)] s.mem mem

/-- R85 to R88, R91 (log 2): given a core turn, SYNC completes with V_DEC set, the stream and the preamble written and
`1 <= M <= L_LEN`, `M <= 4096`. CORR is the power of each lag, START_INDEX and PEAK_POWER are what the loop of R87
finds, the payload bounds use an unbounded sum, and no byte outside `CORR[0..L-M+1)` changes. -/
def Obligations.SyncFindsTheStartIndex : Prop :=
  ∀ (s : State) (ts : List Turn) (d r : List C64), s.status.busy = false → s.turns = .core :: ts →
    1 ≤ s.cfg.m.toNat → s.cfg.m.toNat ≤ 4096 → stageValid s.valid .decim = true → s.cfg.m.toNat ≤ s.res.lLen.toNat →
    d.length = s.res.lLen.toNat → (∀ k < d.length, complexEntry s.mem .dec k = d[k]?) →
    r.length = s.cfg.m.toNat → (∀ k < r.length, complexEntry s.mem .pre k = r[k]?) →
    let L := s.res.lLen.toNat
    let M := s.cfg.m.toNat
    ∃ mem series, series.length = L - M + 1 ∧
      (∀ o ≤ L - M, series[o]? = some (numHw.corrPower M ((d.drop o).take M) r) ∧ realEntry mem .corr o = series[o]?) ∧
      (let best := firstMaxIndex series
       let start := min (best + s.cfg.guard.toNat) L
       exec .sync s = .next (commandDone 0x04#8 ((s.valid &&& 0b000111#6) ||| 0b001000#6) mem
        { s.res with
          startIndex := BitVec.ofNat 64 best, peakPower := series.getD best 0#64,
          payloadStart := BitVec.ofNat 64 start, payloadLen := BitVec.ofNat 64 (L - start) } ts s)) ∧
      bytesKeptOutside [(0x80000, 8 * (L - M + 1))] s.mem mem

/-- R93, R95 (log 2): given a core turn, DEMAP completes with V_SYNC set and the payload symbols written. CODE[p] is the
zero-extended code of the entry the loop of R93 finds for symbol p, BIT_COUNT is `4 · PAYLOAD_LEN`, and no byte
outside `CODE[0..PAYLOAD_LEN)` changes. -/
def Obligations.DemapMapsEachSymbolToItsNearestCode : Prop :=
  ∀ (s : State) (ts : List Turn), s.status.busy = false → s.turns = .core :: ts → stageValid s.valid .sync = true →
    (∀ p < s.res.payloadLen.toNat, (complexEntry s.mem .dec (s.res.payloadStart.toNat + p)).isSome = true) →
    ∃ mem, exec .demap s = .next (commandDone 0x05#8 ((s.valid &&& 0b001111#6) ||| 0b010000#6) mem
        { s.res with bitCount := BitVec.ofNat 64 (4 * s.res.payloadLen.toNat) } ts s) ∧
      (∀ p z, p < s.res.payloadLen.toNat → complexEntry s.mem .dec (s.res.payloadStart.toNat + p) = some z →
        realEntry mem .code p = some ((s.table.get (nearestIndex numHw s.table z)).code.setWidth 64)) ∧
      bytesKeptOutside [(0x90000, 8 * s.res.payloadLen.toNat)] s.mem mem

/-- R97, R98 (log 2): given a core turn, PACK completes with V_CODE set and the codes written. TEXT[t] is the sum of the
eight bits of group t, the first bit the most significant, CHAR_COUNT is `BIT_COUNT div 8`, and no byte outside
`TEXT[0..CHAR_COUNT)` changes. -/
def Obligations.PackPacksCompleteGroups : Prop :=
  ∀ (s : State) (ts : List Turn) (codes : List Word), s.status.busy = false → s.turns = .core :: ts →
    stageValid s.valid .demap = true → codes.length = s.res.bitCount.toNat / 4 →
    (∀ p < codes.length, realEntry s.mem .code p = codes[p]?) →
    let C := s.res.bitCount.toNat / 8
    ∃ mem, exec .pack s = .next (commandDone 0x06#8 ((s.valid &&& 0b011111#6) ||| 0b100000#6) mem
        { s.res with charCount := BitVec.ofNat 64 C } ts s) ∧
      (∀ t < C, realEntry mem .text t = some (BitVec.ofNat 64
        (∑ i ∈ Finset.range 8, (sequenceBit codes (8 * t + i)).toNat * 2 ^ (7 - i)))) ∧
      bytesKeptOutside [(0xA0000, 8 * C)] s.mem mem

/-- R98: character t of a successful PACK is the code of symbol 2t in bits 7:4 and the code of symbol 2t+1 in bits 3:0.
-/
def Obligations.CharacterIsTwoCodes : Prop :=
  ∀ (s t : State) (ts : List Turn) (k : Nat) (hi lo : Word), s.status.busy = false → s.turns = .core :: ts →
    exec .pack s = .next t → t.status.done = true → k < s.res.bitCount.toNat / 8 →
    realEntry s.mem .code (2 * k) = some hi → realEntry s.mem .code (2 * k + 1) = some lo →
    realEntry t.mem .text k = some (0#56 ++ hi.extractLsb' 0 4 ++ lo.extractLsb' 0 4)

/-- R99: a bit sequence of length `8k + r` gives k characters and writes no other TEXT byte. Where BIT_COUNT is `4 ·
PAYLOAD_LEN`, r is 0 for an even PAYLOAD_LEN and 4 for an odd one, and CHAR_COUNT is `PAYLOAD_LEN div 2`. -/
def Obligations.IncompleteGroupIsDropped : Prop :=
  ∀ (s t : State) (ts : List Turn), s.status.busy = false → s.turns = .core :: ts → exec .pack s = .next t →
    t.status.done = true →
    (∀ k r, r < 8 → s.res.bitCount.toNat = 8 * k + r →
      t.res.charCount.toNat = k ∧ bytesKeptOutside [(0xA0000, 8 * k)] s.mem t.mem) ∧
    (s.res.bitCount.toNat = 4 * s.res.payloadLen.toNat →
      s.res.bitCount.toNat % 8 = (if s.res.payloadLen.toNat % 2 = 0 then 0 else 4) ∧
      t.res.charCount.toNat = s.res.payloadLen.toNat / 2)

/-- R105, R103 (log 2): RUN with six core turns completes the whole pipeline, for every legal configuration with the
waveform and the preamble written and M no longer than the decimated stream: all six VALID bits, the lengths the
rules give, and the inputs kept. -/
def Obligations.RunCompletesThePipeline : Prop :=
  ∀ (s : State) (ts : List Turn), s.status.busy = false → s.turns = List.replicate 6 Turn.core ++ ts →
    1 ≤ s.cfg.n.toNat → s.cfg.n.toNat ≤ 4096 → s.cfg.fsHz ≠ 0#64 → s.cfg.decim ≠ 0#64 → 1 ≤ s.cfg.m.toNat →
    s.cfg.m.toNat ≤ (s.cfg.n.toNat + s.cfg.decim.toNat - 1) / s.cfg.decim.toNat →
    realsWritten s.mem .sample s.cfg.n.toNat → complexesWritten s.mem .pre s.cfg.m.toNat →
    ∃ mem res, exec .run s = .next (commandDone 0x07#8 0b111111#6 mem res ts s) ∧
      res.lLen.toNat = (s.cfg.n.toNat + s.cfg.decim.toNat - 1) / s.cfg.decim.toNat ∧
      res.startIndex.toNat ≤ res.lLen.toNat - s.cfg.m.toNat ∧
      res.payloadStart.toNat = min (res.startIndex.toNat + s.cfg.guard.toNat) res.lLen.toNat ∧
      res.payloadLen.toNat = res.lLen.toNat - res.payloadStart.toNat ∧
      res.bitCount.toNat = 4 * res.payloadLen.toNat ∧ res.charCount.toNat = res.payloadLen.toNat / 2 ∧
      realsWritten mem .text res.charCount.toNat ∧
      (∀ a, a < 0x30000 → readByte mem a = readByte s.mem a)

/-- R107 (log 2): six stage commands that all succeed, with no host write between them, leave what one RUN leaves, but
for LAST_OPC. -/
def Obligations.RunEqualsSixStageCommands : Prop :=
  ∀ (s s1 s2 s3 s4 s5 s6 : State) (ts : List Turn), s.status.busy = false →
    s.turns = List.replicate 6 Turn.core ++ ts →
    exec .dconv { s with turns := [.core] } = .next s1 → s1.status.done = true →
    exec .filt { s1 with turns := [.core] } = .next s2 → s2.status.done = true →
    exec .decim { s2 with turns := [.core] } = .next s3 → s3.status.done = true →
    exec .sync { s3 with turns := [.core] } = .next s4 → s4.status.done = true →
    exec .demap { s4 with turns := [.core] } = .next s5 → s5.status.done = true →
    exec .pack { s5 with turns := [.core] } = .next s6 → s6.status.done = true →
    exec .run s = .next { s6 with status := { s6.status with lastOpc := 0x07#8 }, turns := ts }

/-- R106, R126, R128: SRESET is accepted whether BUSY is 0 or 1. Every register, CONST and OPQ take their reset values.
Memory stands when the core was idle; when a stage was running, the bytes of that stage's output buffers have no
value any more (log 8) and all others stand. That the model's own fields `turns`, `readData` and `draws` stand is its
choice (log 19). -/
def Obligations.SresetRestoresTheResetState : Prop :=
  ∀ s : State, ∃ mem, exec .sreset s =
      .next { State.reset with mem := mem, turns := s.turns, readData := s.readData, draws := s.draws } ∧
    (s.status.busy = false → mem = s.mem) ∧
    (s.status.busy = true → ∀ a,
      let forgotten := ∃ st rest, s.opq = st :: rest ∧ ∃ b ∈ st.outputs, b.base ≤ a ∧ a < b.base + b.span
      (forgotten → readByte mem a = none) ∧ (¬ forgotten → readByte mem a = readByte s.mem a))

/-! ### Errors -/

/-- R113, R109, R110, R112 (log 2): given a core turn, each stage command reports the first of its checks that fails, in
the order of the table, with its own and all later VALID bits cleared and no memory byte and no result register
written. -/
def Obligations.StageCommandsReportTheFirstFailedCheck : Prop :=
  ∀ (s : State) (ts : List Turn), s.status.busy = false → s.turns = .core :: ts →
    let badN := s.cfg.n.toNat = 0 ∨ 4096 < s.cfg.n.toNat
    let badM := s.cfg.m.toNat = 0 ∨ 4096 < s.cfg.m.toNat
    let failed := fun (opc code : BitVec 8) (info : Word) (kept : BitVec 6) =>
      Host.Outcome.next (φ := Fault) (ρ := Refusal)
        (commandFailed opc opc code info (s.valid &&& kept) s.mem s.res ts s)
    (badN → exec .dconv s = failed 0x01#8 0x02#8 0x030#64 0b000000#6) ∧
    (¬ badN → s.cfg.fsHz = 0#64 → exec .dconv s = failed 0x01#8 0x02#8 0x038#64 0b000000#6) ∧
    (badN → exec .filt s = failed 0x02#8 0x02#8 0x030#64 0b000001#6) ∧
    (¬ badN → s.cfg.fsHz = 0#64 → exec .filt s = failed 0x02#8 0x02#8 0x038#64 0b000001#6) ∧
    (¬ badN → s.cfg.fsHz ≠ 0#64 → s.valid.getLsbD 0 = false →
      exec .filt s = failed 0x02#8 0x03#8 0#64 0b000001#6) ∧
    (badN → exec .decim s = failed 0x03#8 0x02#8 0x030#64 0b000011#6) ∧
    (¬ badN → s.cfg.decim = 0#64 → exec .decim s = failed 0x03#8 0x02#8 0x050#64 0b000011#6) ∧
    (¬ badN → s.cfg.decim ≠ 0#64 → s.valid.getLsbD 1 = false →
      exec .decim s = failed 0x03#8 0x03#8 1#64 0b000011#6) ∧
    (badM → exec .sync s = failed 0x04#8 0x02#8 0x060#64 0b000111#6) ∧
    (¬ badM → s.valid.getLsbD 2 = false → exec .sync s = failed 0x04#8 0x03#8 2#64 0b000111#6) ∧
    (¬ badM → s.valid.getLsbD 2 = true → s.res.lLen.toNat < s.cfg.m.toNat →
      exec .sync s = failed 0x04#8 0x04#8 s.cfg.m 0b000111#6) ∧
    (s.valid.getLsbD 3 = false → exec .demap s = failed 0x05#8 0x03#8 3#64 0b001111#6) ∧
    (s.valid.getLsbD 4 = false → exec .pack s = failed 0x06#8 0x03#8 4#64 0b011111#6)

/-- R102, R103, R112: a core step of a running command, taken when the schedule's next turn is the core's or, as the
model reads the fairness of R102 (log 3), when no turn is left. A command with no stage pending (a NOP) completes. A
stage that succeeds leaves VALID, memory and result registers as its own command would on an idle core (log 2); it leaves
OPQ, BUSY stays 1 while a stage is pending, and the last one completes the command. A stage that raises clears its own
and every later VALID bit, leaves the earlier ones, writes no memory byte and no result register, and ends the command
with its report. A stage whose own command would fault stops the machine alike (log 6). -/
def Obligations.CoreStepRunsTheStageAtTheHead : Prop :=
  ∀ (s : State) (ts : List Turn), s.status.busy = true → ((s.turns = [] ∧ ts = []) ∨ s.turns = .core :: ts) →
    let ended := { s.status with busy := false, done := true, err := false }
    (s.opq = [] → step s = .next { s with status := ended, intr := { s.intr with pend := true }, turns := ts }) ∧
    ∀ (st : Stage) (rest : List Stage), s.opq = st :: rest →
      (∀ u, exec st.command (idleWithOneCoreTurn s) = .next u → u.status.done = true →
        (rest ≠ [] → step s = .next { s with
          valid := u.valid, mem := u.mem, res := u.res, opq := rest, turns := ts }) ∧
        (rest = [] → step s = .next { s with
          status := ended, valid := u.valid, mem := u.mem, res := u.res, opq := [],
          intr := { s.intr with pend := true }, turns := ts })) ∧
      (∀ e, stageError st s = some e → ∃ valid,
        step s = .next { s with
          status := { s.status with
            busy := false, done := false, err := true, errSticky := true, errCode := e.code.value,
            failOpc := st.opcode }
          valid := valid, errInfo := e.info, opq := [], intr := { s.intr with pend := true }, turns := ts } ∧
        ∀ st', stageValid valid st' = (decide (st'.index < st.index) && stageValid s.valid st')) ∧
      (∀ f, exec st.command (idleWithOneCoreTurn s) = .fault f → step s = .fault f)

/-- R105, R89, R111 (V-ER-4; log 2): given four core turns, a RUN whose preamble is longer than the decimated stream runs three stages, then ends with
PREAMBLE_TOO_LONG, FAIL_OPC 4, ERR_INFO = M, the first three VALID bits set and L_LEN valid; PRE is never read. -/
def Obligations.RunReportsATooLongPreamble : Prop :=
  ∀ (s : State) (ts : List Turn), s.status.busy = false → s.turns = List.replicate 4 Turn.core ++ ts →
    1 ≤ s.cfg.n.toNat → s.cfg.n.toNat ≤ 4096 → s.cfg.fsHz ≠ 0#64 → s.cfg.decim ≠ 0#64 → s.cfg.m.toNat ≤ 4096 →
    (s.cfg.n.toNat + s.cfg.decim.toNat - 1) / s.cfg.decim.toNat < s.cfg.m.toNat →
    realsWritten s.mem .sample s.cfg.n.toNat →
    ∃ mem, exec .run s = .next (commandFailed 0x07#8 0x04#8 0x04#8 s.cfg.m 0b000111#6 mem
      { s.res with lLen := BitVec.ofNat 64 ((s.cfg.n.toNat + s.cfg.decim.toNat - 1) / s.cfg.decim.toNat) } ts s)

/-- R42, R127 (log 6, and log 2 for the core turn taken in the same step): a DCONV whose checks pass but whose waveform
has an entry nothing has written stops with the model's fault, and so does a SYNC whose checks pass and whose stream is
written but whose preamble has an entry nothing has written. -/
def Obligations.UnwrittenInputStopsTheStage : Prop :=
  ∀ (s : State) (ts : List Turn), s.status.busy = false → s.turns = .core :: ts →
    (1 ≤ s.cfg.n.toNat → s.cfg.n.toNat ≤ 4096 → s.cfg.fsHz ≠ 0#64 →
      (∃ n < s.cfg.n.toNat, realEntry s.mem .sample n = none) → exec .dconv s = .fault (.unwrittenEntry .sample)) ∧
    (1 ≤ s.cfg.m.toNat → s.cfg.m.toNat ≤ 4096 → stageValid s.valid .decim = true →
      s.cfg.m.toNat ≤ s.res.lLen.toNat → complexesWritten s.mem .dec s.res.lLen.toNat →
      (∃ m < s.cfg.m.toNat, complexEntry s.mem .pre m = none) → exec .sync s = .fault (.unwrittenEntry .pre))

/-! ### Frames -/

/-- R104, R69: in every state in which NOP goes on, memory, VALID, every result register, the configuration, the table,
EN and BUS_ERR are unchanged, and HOST_CONFLICT changes only where the command is refused. -/
def Obligations.NopFrame : Prop :=
  ∀ s t : State, exec .nop s = .next t →
    commandFrame s t ∧ t.mem = s.mem ∧ t.res = s.res ∧ t.valid = s.valid

/-- R42, R69, R76: in every state in which DCONV goes on, every byte outside `I[0..N)` and `Q[0..N)`, every result
register, the configuration, the table, EN and BUS_ERR are unchanged, and HOST_CONFLICT changes only where the
command is refused. -/
def Obligations.DconvFrame : Prop :=
  ∀ s t : State, exec .dconv s = .next t →
    commandFrame s t ∧ t.res = s.res ∧
    bytesKeptOutside [(0x30000, 8 * s.cfg.n.toNat), (0x40000, 8 * s.cfg.n.toNat)] s.mem t.mem

/-- R42, R69, R80: in every state in which FILT goes on, every byte outside `IF[0..N)` and `QF[0..N)`, V_IQ, every
result register, the configuration, the table, EN and BUS_ERR are unchanged, and HOST_CONFLICT changes only where
the command is refused. -/
def Obligations.FiltFrame : Prop :=
  ∀ s t : State, exec .filt s = .next t →
    commandFrame s t ∧ t.res = s.res ∧ t.valid.getLsbD 0 = s.valid.getLsbD 0 ∧
    bytesKeptOutside [(0x50000, 8 * s.cfg.n.toNat), (0x60000, 8 * s.cfg.n.toNat)] s.mem t.mem

/-- R42, R69, R84: in every state in which DECIM goes on, every byte outside `DEC[0..L)`, V_IQ and V_FILT, every result
register but L_LEN, the configuration, the table, EN and BUS_ERR are unchanged, and HOST_CONFLICT changes only where
the command is refused. -/
def Obligations.DecimFrame : Prop :=
  ∀ s t : State, exec .decim s = .next t →
    commandFrame s t ∧ t.res = { s.res with lLen := t.res.lLen } ∧
    (∀ b < 2, t.valid.getLsbD b = s.valid.getLsbD b) ∧
    bytesKeptOutside [(0x70000, 16 * ((s.cfg.n.toNat + s.cfg.decim.toNat - 1) / s.cfg.decim.toNat))] s.mem t.mem

/-- R42, R69, R91: in every state in which SYNC goes on, every byte outside `CORR[0..L_LEN-M+1)`, the first three VALID
bits, L_LEN, BIT_COUNT, CHAR_COUNT, the configuration, the table, EN and BUS_ERR are unchanged, and HOST_CONFLICT
changes only where the command is refused. -/
def Obligations.SyncFrame : Prop :=
  ∀ s t : State, exec .sync s = .next t →
    commandFrame s t ∧ t.res.lLen = s.res.lLen ∧ t.res.bitCount = s.res.bitCount ∧
    t.res.charCount = s.res.charCount ∧ (∀ b < 3, t.valid.getLsbD b = s.valid.getLsbD b) ∧
    bytesKeptOutside [(0x80000, 8 * (s.res.lLen.toNat - s.cfg.m.toNat + 1))] s.mem t.mem

/-- R42, R69, R95: in every state in which DEMAP goes on, every byte outside `CODE[0..PAYLOAD_LEN)`, the first four
VALID bits, every result register but BIT_COUNT, the configuration, the table, EN and BUS_ERR are unchanged, and
HOST_CONFLICT changes only where the command is refused. -/
def Obligations.DemapFrame : Prop :=
  ∀ s t : State, exec .demap s = .next t →
    commandFrame s t ∧ t.res = { s.res with bitCount := t.res.bitCount } ∧
    (∀ b < 4, t.valid.getLsbD b = s.valid.getLsbD b) ∧
    bytesKeptOutside [(0x90000, 8 * s.res.payloadLen.toNat)] s.mem t.mem

/-- R42, R69, R98: in every state in which PACK goes on, every byte outside `TEXT[0..BIT_COUNT div 8)`, the first five
VALID bits, every result register but CHAR_COUNT, the configuration, the table, EN and BUS_ERR are unchanged, and
HOST_CONFLICT changes only where the command is refused. -/
def Obligations.PackFrame : Prop :=
  ∀ s t : State, exec .pack s = .next t →
    commandFrame s t ∧ t.res = { s.res with charCount := t.res.charCount } ∧
    (∀ b < 5, t.valid.getLsbD b = s.valid.getLsbD b) ∧
    bytesKeptOutside [(0xA0000, 8 * (s.res.bitCount.toNat / 8))] s.mem t.mem

/-- R42, R69, R105: in every state in which RUN goes on, every byte below 0x30000 and from 0xA8000 on (the host's two
buffers among them), the configuration, the table, EN and BUS_ERR are unchanged, and HOST_CONFLICT changes only
where the command is refused. -/
def Obligations.RunFrame : Prop :=
  ∀ s t : State, exec .run s = .next t →
    commandFrame s t ∧ ∀ a, (a < 0x30000 ∨ 0xA8000 ≤ a) → readByte t.mem a = readByte s.mem a

/-! ### The host port -/

/-- R18, R40, R48: what a bus read of each register but STATUS and of each CONST word returns, res0 bits as 0 and CTRL
as 0; it changes nothing else. -/
def Obligations.RegisterReadsReturnTheRegister : Prop :=
  (∀ (s : State) (a : Addr) (v : Word) (ts : List Turn), s.turns = .read a :: ts →
    (a, v) ∈ [(0x00000#20, 0x4951525800000007#64), (0x00008#20, 0#64), (0x00018#20, 0#58 ++ s.valid),
      (0x00020#20, 0#62 ++ BitVec.ofBool s.intr.pend ++ BitVec.ofBool s.intr.en), (0x00028#20, s.errInfo),
      (0x00030#20, s.cfg.n), (0x00038#20, s.cfg.fsHz), (0x00040#20, s.cfg.fcMhz), (0x00048#20, s.cfg.cutoffMhz),
      (0x00050#20, s.cfg.decim), (0x00058#20, s.cfg.guard), (0x00060#20, s.cfg.m), (0x00068#20, s.cfg.gain),
      (0x00070#20, s.res.lLen), (0x00078#20, s.res.startIndex), (0x00080#20, s.res.peakPower),
      (0x00088#20, s.res.payloadStart), (0x00090#20, s.res.payloadLen), (0x00098#20, s.res.bitCount),
      (0x000A0#20, s.res.charCount)] →
    step s = .next { s with turns := ts, readData := v }) ∧
  (∀ (s : State) (j : Fin 16) (off : Nat) (v : Word) (ts : List Turn),
    s.turns = .read (BitVec.ofNat 20 (0x100 + 0x18 * j.val + off)) :: ts →
    (off, v) ∈ [(0x00, s.table[j].point.re), (0x08, s.table[j].point.im), (0x10, 0#60 ++ s.table[j].code)] →
    step s = .next { s with turns := ts, readData := v })

/-- R21: a bus read of STATUS returns each field at its bits, and 0 at bits 7:6 and 63:32. -/
def Obligations.StatusReadHasEachFieldAtItsBits : Prop :=
  ∀ (s : State) (ts : List Turn), s.turns = .read 0x00010#20 :: ts →
    ∃ v : Word, step s = .next { s with turns := ts, readData := v } ∧
      v.getLsbD 0 = s.status.busy ∧ v.getLsbD 1 = s.status.done ∧ v.getLsbD 2 = s.status.err ∧
      v.getLsbD 3 = s.status.errSticky ∧ v.getLsbD 4 = s.status.busErr ∧ v.getLsbD 5 = s.status.hostConflict ∧
      v.extractLsb' 6 2 = 0#2 ∧ v.extractLsb' 8 8 = s.status.errCode ∧ v.extractLsb' 16 8 = s.status.lastOpc ∧
      v.extractLsb' 24 8 = s.status.failOpc ∧ v.extractLsb' 32 32 = 0#32

/-- R47, R50, R51: an access that is misaligned or outside the map sets BUS_ERR and nothing else, and a read returns 0.
-/
def Obligations.MisalignedAndUnmappedAccessesAreRefused : Prop :=
  ∀ (s : State) (a : Addr) (ts : List Turn),
    (a.toNat % 8 ≠ 0 ∨
      (∀ w ∈ [(0x00000, 0x000A7), (0x00100, 0x0027F), (0x10000, 0x17FFF), (0x20000, 0x2FFFF), (0x30000, 0x37FFF),
        (0x40000, 0x47FFF), (0x50000, 0x57FFF), (0x60000, 0x67FFF), (0x70000, 0x7FFFF), (0x80000, 0x87FFF),
        (0x90000, 0x97FFF), (0xA0000, 0xA7FFF)], a.toNat < w.1 ∨ w.2 < a.toNat)) →
    (s.turns = .read a :: ts → step s = .next { s with
      status := { s.status with busErr := true }, turns := ts, readData := 0#64 }) ∧
    (∀ v, s.turns = .write a v :: ts → step s = .next { s with
      status := { s.status with busErr := true }, turns := ts })

/-- R51, R17: a write to a read-only register or a read-only buffer word sets BUS_ERR and nothing else, BUSY or not. -/
def Obligations.ReadOnlyWritesAreRefused : Prop :=
  ∀ (s : State) (a : Addr) (v : Word) (ts : List Turn), s.turns = .write a v :: ts → a.toNat % 8 = 0 →
    (a.toNat ∈ [0x000, 0x010, 0x018, 0x028, 0x070, 0x078, 0x080, 0x088, 0x090, 0x098, 0x0A0] ∨
      (∃ base ∈ [0x30000, 0x40000, 0x50000, 0x60000, 0x80000, 0x90000, 0xA0000],
        base ≤ a.toNat ∧ a.toNat < base + 0x8000) ∨ (0x70000 ≤ a.toNat ∧ a.toNat < 0x80000)) →
    step s = .next { s with status := { s.status with busErr := true }, turns := ts }

/-- R49, R56: an idle core stores a write to each configuration register whole, and clears VALID. -/
def Obligations.ConfigurationWritesAreStored : Prop :=
  ∀ (s : State) (a : Addr) (v : Word) (c : ConfigRegs) (ts : List Turn), s.turns = .write a v :: ts →
    s.status.busy = false →
    (a, c) ∈ [(0x00030#20, { s.cfg with n := v }), (0x00038#20, { s.cfg with fsHz := v }),
      (0x00040#20, { s.cfg with fcMhz := v }), (0x00048#20, { s.cfg with cutoffMhz := v }),
      (0x00050#20, { s.cfg with decim := v }), (0x00058#20, { s.cfg with guard := v }),
      (0x00060#20, { s.cfg with m := v }), (0x00068#20, { s.cfg with gain := v })] →
    step s = .next { s with cfg := c, valid := 0#6, turns := ts }

/-- R40, R49, R56: an idle core stores a write to each word of constellation entry j, CODE keeping bits 3:0, leaves the
other entries, and clears VALID. -/
def Obligations.ConstellationWritesAreStored : Prop :=
  ∀ (s : State) (j : Fin 16) (v : Word) (ts : List Turn), s.status.busy = false →
    let entry := fun off : Nat => BitVec.ofNat 20 (0x100 + 0x18 * j.val + off)
    let old := s.table[j]
    (∀ off p, (off, p) ∈ [(0x00, (⟨⟨v, old.point.im⟩, old.code⟩ : ConstPoint)), (0x08, ⟨⟨old.point.re, v⟩, old.code⟩),
        (0x10, ⟨old.point, v.extractLsb' 0 4⟩)] →
      s.turns = .write (entry off) v :: ts →
      ∃ table, step s = .next { s with table := table, valid := 0#6, turns := ts } ∧ table[j] = p ∧
        ∀ k : Fin 16, k ≠ j → table[k] = s.table[k])

/-- R49, R52, R56: an idle core stores a write to a SAMPLE or PRE word: the word reads as written, every byte outside it
as before, and VALID is cleared. -/
def Obligations.BufferWritesAreStored : Prop :=
  ∀ (s : State) (a : Addr) (v : Word) (ts : List Turn), s.turns = .write a v :: ts → s.status.busy = false →
    a.toNat % 8 = 0 → ((0x10000 ≤ a.toNat ∧ a.toNat < 0x18000) ∨ (0x20000 ≤ a.toNat ∧ a.toNat < 0x30000)) →
    ∃ mem, step s = .next { s with mem := mem, valid := 0#6, turns := ts } ∧ readWord mem a.toNat = some v ∧
      bytesKeptOutside [(a.toNat, 8)] s.mem mem

/-- R48, R52, R57 (d): a bus read of a buffer word that has been written returns it and changes nothing else: of every
buffer while the core is idle, and of SAMPLE and PRE also while BUSY. -/
def Obligations.WrittenBufferWordsReadBack : Prop :=
  ∀ (s : State) (a : Addr) (v : Word) (ts : List Turn) (b : Buffer), s.turns = .read a :: ts →
    (s.status.busy = false ∨ b.hostWritable = true) → a.toNat % 8 = 0 → b.base ≤ a.toNat →
    a.toNat < b.base + b.span → readWord s.mem a.toNat = some v →
    step s = .next { s with turns := ts, readData := v }

/-- R57 (a): while BUSY a write to a configuration register, a CONST word or a SAMPLE or PRE word is refused: nothing
changes but HOST_CONFLICT. -/
def Obligations.BusyCoreRefusesInputWrites : Prop :=
  ∀ (s : State) (a : Addr) (v : Word) (ts : List Turn), s.turns = .write a v :: ts → s.status.busy = true →
    a.toNat % 8 = 0 →
    ((0x30 ≤ a.toNat ∧ a.toNat ≤ 0x68) ∨ (0x100 ≤ a.toNat ∧ a.toNat < 0x280) ∨
      (0x10000 ≤ a.toNat ∧ a.toNat < 0x18000) ∨ (0x20000 ≤ a.toNat ∧ a.toNat < 0x30000)) →
    step s = .next { s with status := { s.status with hostConflict := true }, turns := ts }

/-- R57 (d), R127, log 5: a bus read of a read-only buffer word while BUSY, and of a buffer word nothing has written
since power-on, completes with an unspecified word, the next one drawn; only the model's own fields change. -/
def Obligations.UnspecifiedBufferReadsDraw : Prop :=
  ∀ (s : State) (a : Addr) (ts : List Turn) (b : Buffer), s.turns = .read a :: ts → a.toNat % 8 = 0 →
    b.base ≤ a.toNat → a.toNat < b.base + b.span →
    ((s.status.busy = true ∧ b.hostWritable = false) ∨ readWord s.mem a.toNat = none) →
    step s = .next { s with turns := ts, readData := Config.drawnWord s.draws, draws := s.draws + 1 }

/-- R23, R49, R117: an INTR write sets EN from bit 0 and clears PEND where bit 1 is 1, BUSY or not, and never clears
VALID. -/
def Obligations.IntrWriteSetsEnAndAcknowledges : Prop :=
  ∀ (s : State) (v : Word) (ts : List Turn), s.turns = .write 0x00020#20 v :: ts →
    step s = .next { s with
      intr := ⟨v.getLsbD 0, if v.getLsbD 1 = true then false else s.intr.pend⟩, turns := ts }

/-- R116, R117: the interrupt output is EN and PEND, and PEND goes from 0 to 1 only in a step in which a command
completed: BUSY is 0 and DONE or ERR is 1 after it, and BUSY was 1 before it or the step took a CTRL write. -/
def Obligations.PendRisesOnlyAtACompletion : Prop :=
  ∀ s t : State, step s = .next t → t.irq = (t.intr.en && t.intr.pend) ∧
    (s.intr.pend = false → t.intr.pend = true →
      t.status.busy = false ∧ (t.status.done = true ∨ t.status.err = true) ∧
      (s.status.busy = true ∨ ∃ w ts, s.turns = .write 0x00008#20 w :: ts))

/-- R125, R126, R127: the platform's reset turn leaves every register at its reset value and every buffer byte without a
value; the model's own fields stand (log 19). -/
def Obligations.PlatformResetForgetsTheBuffers : Prop :=
  ∀ (s : State) (ts : List Turn), s.turns = .reset :: ts →
    step s = .next { State.reset with turns := ts, readData := s.readData, draws := s.draws }

/-! ### Whole-machine rules -/

/-- R102, R124: an idle core with no access to serve stays exactly as it is. R102 gives an idle core no step: that a core
turn of an idle core is a step that only drops the turn, and that with no turn left the machine steps to itself, is the
model's reading (log 17). -/
def Obligations.IdleCoreStaysStill : Prop :=
  ∀ (s : State) (ts : List Turn), s.status.busy = false →
    (s.turns = [] → step s = .next s) ∧ (s.turns = .core :: ts → step s = .next { s with turns := ts })

/-- R21, R114: ERR_STICKY, BUS_ERR and HOST_CONFLICT, once set, stay set in every step but an SRESET write or a reset.
-/
def Obligations.StickyBitsStaySet : Prop :=
  ∀ s t : State, step s = .next t →
    (∀ ts, s.turns ≠ .write 0x00008#20 0x0F#64 :: ts ∧ s.turns ≠ .reset :: ts) →
    (s.status.errSticky = true → t.status.errSticky = true) ∧
    (s.status.busErr = true → t.status.busErr = true) ∧
    (s.status.hostConflict = true → t.status.hostConflict = true)

/-- R102, R133, R135 (log 3): with no turn left but the core's, a busy core that does not stop is idle after as many core
steps as OPQ has stages, one for a NOP, and the run has then ended; a run that has ended stays ended, and nothing changes
any more but the schedule, unless the platform resets the core (that an idle core's turn is such a step: log 17). -/
def Obligations.AcceptedCommandsComplete : Prop :=
  (∀ s t : State, (∀ x ∈ s.turns, x = .core) → s.status.busy = true →
    Sys2Proof.core.run (max 1 s.opq.length) s = .next t →
    t.status.busy = false ∧ t.opq = [] ∧ runEnded t = true) ∧
  (∀ s t : State, runEnded s = true → step s = .next t → runEnded t = true ∧
    ((∀ ts, s.turns ≠ .reset :: ts) → t = { s with turns := s.turns.tail }))

/-- R21, R22, R24, R43, R109: every step keeps the control invariant. -/
def Obligations.EveryStepKeepsControlInv : Prop :=
  ∀ s t : State, ControlInv s → step s = .next t → ControlInv t

/-- R42, R47: every step keeps memory inside the buffer windows, and in its canonical form (the form is the model's, log
6). -/
def Obligations.EveryStepKeepsMemoryInv : Prop :=
  ∀ s t : State, MemoryInv s → step s = .next t → MemoryInv t

/-- R126, R127: the three invariants hold after reset. -/
def Obligations.InvariantsHoldAtReset : Prop :=
  ControlInv State.reset ∧ CoverageInv State.reset ∧ MemoryInv State.reset

/-- R22, R33 to R39, R42, R56: every step keeps the meaning of the VALID bits: what a set bit covers is written, the
result registers agree with the configuration, and both are the stage's results of its inputs as they now stand. -/
def Obligations.EveryStepKeepsCoverageInv : Prop :=
  ∀ s t : State, CoverageInv s → step s = .next t → CoverageInv t

/-- R42: from a state that keeps the invariants, the only fault a step can stop with is a read of a SAMPLE or PRE entry
that the host has not written. -/
def Obligations.OnlyHostFilledEntriesFault : Prop :=
  ∀ (s : State) (f : Fault), ControlInv s → CoverageInv s → step s = .fault f →
    f = .unwrittenEntry .sample ∨ f = .unwrittenEntry .pre

/-! ### Numerics and loops -/

/-- R14 (b) to (e), R94 (log 9 to log 12, log 26): the machine's numerics are exact at the quarter turns; on finite
operands they are within `NUM_TOL` of `NUM_REF`; they find no point nearer than itself, and none nearer when a coordinate
is a NaN; and the lowpass depends on a sequence only through the bins the mask keeps. -/
def Obligations.HardwareNumericsMeetR14 : Prop :=
  quarterTurnsExact numHw (fun _ => True) ∧ NearReference numTol numHw ∧ closerIrreflexive numHw ∧
  (∀ z a b : C64, (F64.isNaN z.re = true ∨ F64.isNaN z.im = true ∨ F64.isNaN a.re = true ∨ F64.isNaN a.im = true ∨
    F64.isNaN b.re = true ∨ F64.isNaN b.im = true) → numHw.closer z a b = false) ∧
  (∀ (N : Nat) (x y : List F64) (keep keep' : Nat → Bool) (g : F64) (n : Nat),
    (∀ k < N, keep k = keep' k) →
    (∀ k < N, keep k = true → hardware.parts.spectrumBin N x k = hardware.parts.spectrumBin N y k) →
    numHw.lpf N x keep g n = numHw.lpf N y keep' g n)

/-- R14 (b), (d): the values R14 (b) asks for are those `NUM_REF` gives for a finite sample, and `NUM_REF` finds no
point nearer than itself. -/
def Obligations.ReferenceNumericsMeetR14 : Prop :=
  quarterTurnsExact numRef (fun s => F64.isFinite s = true) ∧ closerIrreflexive numRef

/-- R75: the integer pair of the phase, and that its cosine and sine are those of the source's formula: the pair is the
oscillator's phase up to whole turns. -/
def Obligations.IntegerPhaseIsExact : Prop :=
  ∀ (c : ConfigRegs) (n : Nat), c.fsHz ≠ 0#64 →
    let turns : ℝ := (c.fcMhz.toNat / 1000 : ℝ) * (n / c.fsHz.toNat : ℝ)
    let reduced : ℝ := (phaseNum c n : ℝ) / (phaseDen c : ℝ)
    1000 ≤ phaseDen c ∧ phaseNum c n < phaseDen c ∧
    phaseDen c = 1000 * c.fsHz.toNat ∧ phaseNum c n = (c.fcMhz.toNat * n) % phaseDen c ∧
    Real.cos (2 * Real.pi * reduced) = Real.cos (2 * Real.pi * turns) ∧
    Real.sin (2 * Real.pi * reduced) = Real.sin (2 * Real.pi * turns)

/-- R78, R81: the mask is symmetric, keeps bin 0, and at the reset configuration keeps exactly the bins with `min(k,
3000 - k) <= 153`. -/
def Obligations.MaskIsSymmetricAndKeepsTheCutoffBin : Prop :=
  (∀ (c : ConfigRegs) (k : Nat), 1 ≤ k → k < c.n.toNat → keepBin c k = keepBin c (c.n.toNat - k)) ∧
  (∀ c : ConfigRegs, keepBin c 0 = true) ∧
  (∀ k, k < 3000 → (keepBin ConfigRegs.default k = true ↔ min k (3000 - k) ≤ 153))

/-- R87: for a series with no NaN the scan finds the first index of the greatest word; a NaN at index 0 keeps index 0;
no later NaN replaces the candidate; and the word reported is the one at the index. -/
def Obligations.StartIndexIsTheFirstMaximum : Prop :=
  ∀ series : List F64, series ≠ [] →
    let best := (argmaxFirst series).1
    best = firstMaxIndex series ∧ series[best]? = some (argmaxFirst series).2 ∧
    (F64.isNaN (series.getD 0 0#64) = true → best = 0) ∧
    (F64.isNaN (argmaxFirst series).2 = true → best = 0) ∧
    ((∀ w ∈ series, F64.isNaN w = false) →
      (∀ w ∈ series, F64.gt w (argmaxFirst series).2 = false) ∧
      (∀ k < best, F64.gt (argmaxFirst series).2 (series.getD k 0#64) = true))

/-- R93: the entry found is that of the rule's loop, for every numerics record. Under `NUM_REF`, for a finite symbol and
finite points, it is the smallest index among those at minimum distance. The reset table lists the real level first,
then the imaginary, both ascending. -/
def Obligations.NearestIsTheFirstMinimum : Prop :=
  (∀ (num : NumRecord) (table : Vector ConstPoint 16) (z : C64),
    nearest num table z = table.get (nearestIndex num table z)) ∧
  (∀ (table : Vector ConstPoint 16) (z : C64), C64.isFinite z = true →
    (∀ k : Fin 16, C64.isFinite table[k].point = true) →
    let best := nearestIndex numRef table z
    (∀ j : Fin 16, distanceSq z (table.get best).point ≤ distanceSq z (table.get j).point) ∧
    (∀ j : Fin 16, j < best → distanceSq z (table.get best).point < distanceSq z (table.get j).point)) ∧
  (∀ j k : Fin 16, j < k →
    let p := resetTable[j].point
    let q := resetTable[k].point
    F64.lt p.re q.re = true ∨ (p.re = q.re ∧ F64.lt p.im q.im = true))

/-- R96: if the 16 table points are finite and pairwise distinct as numbers, then under `NUM_REF` each point maps to its
own entry: it is at distance 0 from itself and at a positive distance from every other. -/
def Obligations.EachPointMapsToItself : Prop :=
  ∀ (table : Vector ConstPoint 16) (j : Fin 16), (∀ k : Fin 16, C64.isFinite table[k].point = true) →
    (∀ k l : Fin 16, k ≠ l → C64.toComplex table[k].point ≠ C64.toComplex table[l].point) →
    nearestIndex numRef table table[j].point = j ∧ nearest numRef table table[j].point = table[j] ∧
    distanceSq table[j].point table[j].point = 0 ∧
    ∀ k : Fin 16, k ≠ j → 0 < distanceSq table[j].point table[k].point
end

