-- ==== Sys2Proof/Laws/Bytes.lean ====
section
/-! SUPPORT. A word and its eight bytes are the same data (R53). -/

namespace Sys2Proof

@[simp] theorem wordBytes_length (w : Word) : (wordBytes w).length = 8 := rfl

@[simp] theorem bytesWord_wordBytes (w : Word) : bytesWord (wordBytes w) = w := by
  apply BitVec.eq_of_getLsbD_eq
  intro i hi
  simp only [wordBytes, bytesWord, BitVec.getLsbD_or, BitVec.getLsbD_shiftLeft, BitVec.getLsbD_setWidth,
    BitVec.getLsbD_extractLsb']
  interval_cases i <;> simp

theorem wordBytes_injective : Function.Injective wordBytes :=
  Function.LeftInverse.injective bytesWord_wordBytes

@[simp] theorem flatMap_wordBytes_length (ws : List Word) : (ws.flatMap wordBytes).length = 8 * ws.length := by
  induction ws with
  | nil => rfl
  | cons w ws ih => simp [ih]; omega

/-- Byte `8·i + k` of a run of words is byte `k` of word `i`. -/
theorem flatMap_wordBytes_getElem? (ws : List Word) (i k : Nat) (hk : k < 8) :
    (ws.flatMap wordBytes)[8 * i + k]? = ws[i]?.bind fun w => (wordBytes w)[k]? := by
  induction ws generalizing i with
  | nil => simp
  | cons w ws ih =>
    cases i with
    | zero => simp [List.getElem?_append, hk]
    | succ i =>
      have h : ¬ 8 * (i + 1) + k < 8 := by omega
      have e : 8 * (i + 1) + k - 8 = 8 * i + k := by omega
      simp [List.getElem?_append, h, e, ih]

/-- Decoding from the bytes of a word is decoding the word. -/
theorem decode_wordBytes (w : Word) (rest : List Byte) :
    decode (wordBytes w ++ rest) =
      match decodeWord w with
      | .ok i => .ok (i, rest)
      | .error e => .error e := by
  have e : decode (wordBytes w ++ rest) =
      match decodeWord (bytesWord (wordBytes w)) with
      | .ok i => .ok (i, rest)
      | .error e => .error e := rfl
  rw [e, bytesWord_wordBytes]

theorem decodeTableWord_eq (nbits w : Nat) :
    decodeTableWord nbits w = (decodeWord (tableWord nbits w)).toOption := by
  unfold decodeTableWord
  rw [← List.append_nil (wordBytes _), decode_wordBytes]
  cases decodeWord (tableWord nbits w) <;> rfl

end Sys2Proof
end

