-- ==== Sys2Proof/Laws/Memory.lean ====
section
/-! SUPPORT. The laws of memory: reading after writing, what a write leaves alone, and the canonical form. -/

namespace Sys2Proof.Machine

/-! ### One byte -/

@[simp] theorem readByte_writeByte (m : Memory) (a : Nat) (b : Byte) (x : Nat) :
    readByte (writeByte m a b) x = if a = x then some b else readByte m x := by
  induction m with
  | nil => simp [writeByte, readByte]
  | cons c m ih =>
    unfold writeByte
    split
    · simp [readByte]
    · split
      · rename_i h1 h2
        subst h2
        by_cases hx : c.1 = x <;> simp [readByte, hx]
      · rename_i h1 h2
        by_cases hx : c.1 = x
        · have : a ≠ x := fun e => h2 (by omega)
          simp [readByte, hx, this]
        · simp [readByte, hx, ih]

theorem writeByte_addrs (m : Memory) (a : Nat) (b : Byte) (x : Nat) :
    x ∈ (writeByte m a b).map Prod.fst → x = a ∨ x ∈ m.map Prod.fst := by
  induction m with
  | nil => simp [writeByte]
  | cons c m ih =>
    unfold writeByte
    split
    · simp
    · split
      · rename_i h1 h2
        subst h2
        simp
      · intro h
        simp only [List.map_cons, List.mem_cons] at h ⊢
        rcases h with h | h
        · exact .inr (.inl h)
        · rcases ih h with h | h
          · exact .inl h
          · exact .inr (.inr h)

/-- A write keeps the canonical form. -/
theorem writeByte_wf (m : Memory) (a : Nat) (b : Byte) (h : Memory.wf m) : Memory.wf (writeByte m a b) := by
  induction m with
  | nil => simp [writeByte, Memory.wf]
  | cons c m ih =>
    simp only [Memory.wf, List.map_cons, List.pairwise_cons] at h
    unfold writeByte
    split
    · rename_i h1
      simp only [Memory.wf, List.map_cons, List.pairwise_cons, List.mem_cons]
      refine ⟨?_, h⟩
      rintro x (rfl | hx)
      · exact h1
      · exact h1.trans (h.1 x hx)
    · split
      · rename_i h1 h2
        subst h2
        simpa only [Memory.wf, List.map_cons, List.pairwise_cons] using h
      · rename_i h1 h2
        simp only [Memory.wf, List.map_cons, List.pairwise_cons]
        refine ⟨fun x hx => ?_, ih h.2⟩
        rcases writeByte_addrs m a b x hx with rfl | hx
        · omega
        · exact h.1 x hx

/-! ### Runs of bytes -/

theorem writeBytes_wf (m : Memory) (a : Nat) (bs : List Byte) (h : Memory.wf m) : Memory.wf (writeBytes m a bs) := by
  induction bs generalizing m a with
  | nil => exact h
  | cons b bs ih => exact ih _ _ (writeByte_wf m a b h)

/-- What every address reads after a run of bytes is written. -/
theorem readByte_writeBytes (m : Memory) (a : Nat) (bs : List Byte) (x : Nat) :
    readByte (writeBytes m a bs) x =
      if a ≤ x ∧ x < a + bs.length then bs[x - a]? else readByte m x := by
  induction bs generalizing m a with
  | nil =>
    have : ¬ (a ≤ x ∧ x < a) := by omega
    simp [writeBytes, this]
  | cons b bs ih =>
    simp only [writeBytes, ih, readByte_writeByte, List.length_cons]
    by_cases h : a = x
    · subst h
      have h1 : ¬ (a + 1 ≤ a ∧ a < a + 1 + bs.length) := by omega
      have h2 : a ≤ a ∧ a < a + (bs.length + 1) := by omega
      simp
    · by_cases h1 : a + 1 ≤ x ∧ x < a + 1 + bs.length
      · have h2 : a ≤ x ∧ x < a + (bs.length + 1) := by omega
        have e : x - a = (x - (a + 1)) + 1 := by omega
        rw [if_pos h1, if_pos h2, e, List.getElem?_cons_succ]
      · have h2 : ¬ (a ≤ x ∧ x < a + (bs.length + 1)) := by omega
        rw [if_neg h1, if_neg h2, if_neg h]

/-- Reading a run of bytes looks at those bytes only. -/
theorem readBytes_congr (m m' : Memory) (a n : Nat) (h : ∀ x, a ≤ x → x < a + n → readByte m x = readByte m' x) :
    readBytes m a n = readBytes m' a n := by
  induction n generalizing a with
  | zero => rfl
  | succ n ih =>
    simp only [readBytes, h a (by omega) (by omega), ih (a + 1) fun x h1 h2 => h x (by omega) (by omega)]

/-- A run of bytes is read exactly when each byte is there. -/
theorem readBytes_eq_some (m : Memory) (a n : Nat) (bs : List Byte) :
    readBytes m a n = some bs ↔ bs.length = n ∧ ∀ k < n, readByte m (a + k) = bs[k]? := by
  induction n generalizing a bs with
  | zero =>
    simp only [readBytes, Option.some.injEq, List.length_eq_zero_iff]
    exact ⟨fun h => ⟨h.symm, fun k hk => absurd hk (by omega)⟩, fun h => h.1.symm⟩
  | succ n ih =>
    unfold readBytes
    constructor
    · intro h
      split at h
      · rename_i b bs' hb hbs
        obtain rfl := (Option.some.inj h).symm
        obtain ⟨hl, hk⟩ := (ih (a + 1) bs').1 hbs
        refine ⟨by simp [hl], fun k hk' => ?_⟩
        cases k with
        | zero => simpa using hb
        | succ k =>
          have := hk k (by omega)
          rw [List.getElem?_cons_succ, ← this]
          congr 1
          omega
      · cases h
    · rintro ⟨hl, hk⟩
      cases bs with
      | nil => simp at hl
      | cons b bs =>
        have h0 : readByte m a = some b := by simpa using hk 0 (by omega)
        have h1 : readBytes m (a + 1) n = some bs := by
          refine (ih (a + 1) bs).2 ⟨by simpa using hl, fun k hk' => ?_⟩
          have := hk (k + 1) (by omega)
          rw [List.getElem?_cons_succ] at this
          rw [← this]
          congr 1
          omega
        rw [h0, h1]

/-! ### Words -/

theorem writeWords_wf (m : Memory) (a : Nat) (ws : List Word) (h : Memory.wf m) : Memory.wf (writeWords m a ws) :=
  writeBytes_wf m a _ h

theorem writeWord_wf (m : Memory) (a : Nat) (w : Word) (h : Memory.wf m) : Memory.wf (writeWord m a w) :=
  writeWords_wf m a [w] h

/-- A run of words changes no byte outside it. -/
theorem readByte_writeWords_outside (m : Memory) (a : Nat) (ws : List Word) (x : Nat)
    (h : x < a ∨ a + 8 * ws.length ≤ x) : readByte (writeWords m a ws) x = readByte m x := by
  rw [writeWords, readByte_writeBytes, if_neg]
  rw [flatMap_wordBytes_length]
  omega

/-- A word outside a run of written words reads as before. -/
theorem readWord_writeWords_outside (m : Memory) (a : Nat) (ws : List Word) (x : Nat)
    (h : x + 8 ≤ a ∨ a + 8 * ws.length ≤ x) : readWord (writeWords m a ws) x = readWord m x := by
  rw [readWord, readWord, readBytes_congr _ m]
  intro y h1 h2
  exact readByte_writeWords_outside m a ws y (by omega)

/-- Word `i` of a run of written words reads as it was written. -/
theorem readWord_writeWords (m : Memory) (a : Nat) (ws : List Word) (i : Nat) (w : Word) (h : ws[i]? = some w) :
    readWord (writeWords m a ws) (a + 8 * i) = some w := by
  have hi : i < ws.length := (List.getElem?_eq_some_iff.1 h).1
  have : readBytes (writeWords m a ws) (a + 8 * i) 8 = some (wordBytes w) := by
    refine (readBytes_eq_some _ _ _ _).2 ⟨rfl, fun k hk => ?_⟩
    rw [writeWords, readByte_writeBytes, if_pos (by rw [flatMap_wordBytes_length]; omega)]
    have e : a + 8 * i + k - a = 8 * i + k := by omega
    rw [e, flatMap_wordBytes_getElem? ws i k hk, h]
    rfl
  rw [readWord, this, Option.map_some, bytesWord_wordBytes]

@[simp] theorem readWord_writeWord (m : Memory) (a : Nat) (w : Word) : readWord (writeWord m a w) a = some w :=
  readWord_writeWords m a [w] 0 w rfl

/-- A word that does not overlap the written one reads as before. -/
theorem readWord_writeWord_outside (m : Memory) (a x : Nat) (w : Word) (h : x + 8 ≤ a ∨ a + 8 ≤ x) :
    readWord (writeWord m a w) x = readWord m x :=
  readWord_writeWords_outside m a [w] x (by simpa using h)

theorem readByte_writeWord_outside (m : Memory) (a x : Nat) (w : Word) (h : x < a ∨ a + 8 ≤ x) :
    readByte (writeWord m a w) x = readByte m x :=
  readByte_writeWords_outside m a [w] x (by simpa using h)

/-! ### Forgetting -/

theorem forgetRange_wf (m : Memory) (lo len : Nat) (h : Memory.wf m) : Memory.wf (forgetRange m lo len) :=
  List.Pairwise.sublist (List.Sublist.map _ List.filter_sublist) h

/-- A forgotten byte has no value; every other byte reads as before. -/
theorem readByte_forgetRange (m : Memory) (lo len x : Nat) :
    readByte (forgetRange m lo len) x = if lo ≤ x ∧ x < lo + len then none else readByte m x := by
  induction m with
  | nil => simp [forgetRange, readByte]
  | cons c m ih =>
    by_cases hin : lo ≤ c.1 ∧ c.1 < lo + len
    · have e : forgetRange (c :: m) lo len = forgetRange m lo len := by
        simp [forgetRange, hin]
      rw [e, ih]
      by_cases hx : c.1 = x
      · subst hx
        simp [hin]
      · simp [readByte, hx]
    · have e : forgetRange (c :: m) lo len = c :: forgetRange m lo len := by
        unfold forgetRange
        rw [List.filter_cons_of_pos]
        simp only [Bool.not_eq_true', Bool.and_eq_false_iff, decide_eq_false_iff_not]
        omega
      rw [e]
      by_cases hx : c.1 = x
      · subst hx
        simp [readByte, hin]
      · simp [readByte, hx, ih]

theorem forgetOutputs_wf (m : Memory) (opq : List Stage) (h : Memory.wf m) : Memory.wf (forgetOutputs m opq) := by
  cases opq with
  | nil => exact h
  | cons st rest => cases st <;> simp only [forgetOutputs, Stage.outputs, List.foldl] <;>
      first
      | exact forgetRange_wf _ _ _ (forgetRange_wf _ _ _ h)
      | exact forgetRange_wf _ _ _ h

theorem storeReals_wf (m : Memory) (b : Buffer) (ws : List Word) (h : Memory.wf m) : Memory.wf (storeReals m b ws) :=
  writeWords_wf m _ ws h

theorem storeComplex_wf (m : Memory) (b : Buffer) (zs : List C64) (h : Memory.wf m) :
    Memory.wf (storeComplex m b zs) :=
  writeWords_wf m _ _ h

end Sys2Proof.Machine
end

