-- ==== Sys2Proof/Laws/State.lean ====
section
/-! SUPPORT. Every field after every named update of the state, each true by rfl, so that no later proof unfolds a record
update. -/

namespace Sys2Proof.Machine

/-! ### busError -/

@[simp] theorem busError_status (s : State) : (busError s).status = { s.status with busErr := true } := rfl
@[simp] theorem busError_valid (s : State) : (busError s).valid = s.valid := rfl
@[simp] theorem busError_intr (s : State) : (busError s).intr = s.intr := rfl
@[simp] theorem busError_errInfo (s : State) : (busError s).errInfo = s.errInfo := rfl
@[simp] theorem busError_cfg (s : State) : (busError s).cfg = s.cfg := rfl
@[simp] theorem busError_res (s : State) : (busError s).res = s.res := rfl
@[simp] theorem busError_table (s : State) : (busError s).table = s.table := rfl
@[simp] theorem busError_mem (s : State) : (busError s).mem = s.mem := rfl
@[simp] theorem busError_opq (s : State) : (busError s).opq = s.opq := rfl
@[simp] theorem busError_turns (s : State) : (busError s).turns = s.turns := rfl
@[simp] theorem busError_readData (s : State) : (busError s).readData = s.readData := rfl
@[simp] theorem busError_draws (s : State) : (busError s).draws = s.draws := rfl

/-! ### hostConflict -/

@[simp] theorem hostConflict_status (s : State) : (hostConflict s).status = { s.status with hostConflict := true } :=
  rfl
@[simp] theorem hostConflict_valid (s : State) : (hostConflict s).valid = s.valid := rfl
@[simp] theorem hostConflict_intr (s : State) : (hostConflict s).intr = s.intr := rfl
@[simp] theorem hostConflict_errInfo (s : State) : (hostConflict s).errInfo = s.errInfo := rfl
@[simp] theorem hostConflict_cfg (s : State) : (hostConflict s).cfg = s.cfg := rfl
@[simp] theorem hostConflict_res (s : State) : (hostConflict s).res = s.res := rfl
@[simp] theorem hostConflict_table (s : State) : (hostConflict s).table = s.table := rfl
@[simp] theorem hostConflict_mem (s : State) : (hostConflict s).mem = s.mem := rfl
@[simp] theorem hostConflict_opq (s : State) : (hostConflict s).opq = s.opq := rfl
@[simp] theorem hostConflict_turns (s : State) : (hostConflict s).turns = s.turns := rfl
@[simp] theorem hostConflict_readData (s : State) : (hostConflict s).readData = s.readData := rfl
@[simp] theorem hostConflict_draws (s : State) : (hostConflict s).draws = s.draws := rfl

/-! ### invalidate -/

@[simp] theorem invalidate_status (s : State) : (invalidate s).status = s.status := rfl
@[simp] theorem invalidate_valid (s : State) : (invalidate s).valid = 0#6 := rfl
@[simp] theorem invalidate_intr (s : State) : (invalidate s).intr = s.intr := rfl
@[simp] theorem invalidate_errInfo (s : State) : (invalidate s).errInfo = s.errInfo := rfl
@[simp] theorem invalidate_cfg (s : State) : (invalidate s).cfg = s.cfg := rfl
@[simp] theorem invalidate_res (s : State) : (invalidate s).res = s.res := rfl
@[simp] theorem invalidate_table (s : State) : (invalidate s).table = s.table := rfl
@[simp] theorem invalidate_mem (s : State) : (invalidate s).mem = s.mem := rfl
@[simp] theorem invalidate_opq (s : State) : (invalidate s).opq = s.opq := rfl
@[simp] theorem invalidate_turns (s : State) : (invalidate s).turns = s.turns := rfl
@[simp] theorem invalidate_readData (s : State) : (invalidate s).readData = s.readData := rfl
@[simp] theorem invalidate_draws (s : State) : (invalidate s).draws = s.draws := rfl

/-! ### accept -/

@[simp] theorem accept_status (opc : BitVec 8) (st : List Stage) (s : State) : (accept opc st s).status = s.status.accepted opc :=
  rfl
@[simp] theorem accept_valid (opc : BitVec 8) (st : List Stage) (s : State) : (accept opc st s).valid = s.valid := rfl
@[simp] theorem accept_intr (opc : BitVec 8) (st : List Stage) (s : State) : (accept opc st s).intr = s.intr := rfl
@[simp] theorem accept_errInfo (opc : BitVec 8) (st : List Stage) (s : State) : (accept opc st s).errInfo = 0#64 := rfl
@[simp] theorem accept_cfg (opc : BitVec 8) (st : List Stage) (s : State) : (accept opc st s).cfg = s.cfg := rfl
@[simp] theorem accept_res (opc : BitVec 8) (st : List Stage) (s : State) : (accept opc st s).res = s.res := rfl
@[simp] theorem accept_table (opc : BitVec 8) (st : List Stage) (s : State) : (accept opc st s).table = s.table := rfl
@[simp] theorem accept_mem (opc : BitVec 8) (st : List Stage) (s : State) : (accept opc st s).mem = s.mem := rfl
@[simp] theorem accept_opq (opc : BitVec 8) (st : List Stage) (s : State) : (accept opc st s).opq = st := rfl
@[simp] theorem accept_turns (opc : BitVec 8) (st : List Stage) (s : State) : (accept opc st s).turns = s.turns := rfl
@[simp] theorem accept_readData (opc : BitVec 8) (st : List Stage) (s : State) : (accept opc st s).readData = s.readData :=
  rfl
@[simp] theorem accept_draws (opc : BitVec 8) (st : List Stage) (s : State) : (accept opc st s).draws = s.draws := rfl

/-! ### illegalCommand -/

@[simp] theorem illegalCommand_status (w : Word) (s : State) : (illegalCommand w s).status = s.status.illegal (w.setWidth 8) :=
  rfl
@[simp] theorem illegalCommand_valid (w : Word) (s : State) : (illegalCommand w s).valid = s.valid := rfl
@[simp] theorem illegalCommand_intr (w : Word) (s : State) : (illegalCommand w s).intr = s.intr.completed := rfl
@[simp] theorem illegalCommand_errInfo (w : Word) (s : State) : (illegalCommand w s).errInfo = w := rfl
@[simp] theorem illegalCommand_cfg (w : Word) (s : State) : (illegalCommand w s).cfg = s.cfg := rfl
@[simp] theorem illegalCommand_res (w : Word) (s : State) : (illegalCommand w s).res = s.res := rfl
@[simp] theorem illegalCommand_table (w : Word) (s : State) : (illegalCommand w s).table = s.table := rfl
@[simp] theorem illegalCommand_mem (w : Word) (s : State) : (illegalCommand w s).mem = s.mem := rfl
@[simp] theorem illegalCommand_opq (w : Word) (s : State) : (illegalCommand w s).opq = s.opq := rfl
@[simp] theorem illegalCommand_turns (w : Word) (s : State) : (illegalCommand w s).turns = s.turns := rfl
@[simp] theorem illegalCommand_readData (w : Word) (s : State) : (illegalCommand w s).readData = s.readData := rfl
@[simp] theorem illegalCommand_draws (w : Word) (s : State) : (illegalCommand w s).draws = s.draws := rfl

/-! ### completeOk -/

@[simp] theorem completeOk_status (s : State) : (completeOk s).status = s.status.completedOk := rfl
@[simp] theorem completeOk_valid (s : State) : (completeOk s).valid = s.valid := rfl
@[simp] theorem completeOk_intr (s : State) : (completeOk s).intr = s.intr.completed := rfl
@[simp] theorem completeOk_errInfo (s : State) : (completeOk s).errInfo = s.errInfo := rfl
@[simp] theorem completeOk_cfg (s : State) : (completeOk s).cfg = s.cfg := rfl
@[simp] theorem completeOk_res (s : State) : (completeOk s).res = s.res := rfl
@[simp] theorem completeOk_table (s : State) : (completeOk s).table = s.table := rfl
@[simp] theorem completeOk_mem (s : State) : (completeOk s).mem = s.mem := rfl
@[simp] theorem completeOk_opq (s : State) : (completeOk s).opq = [] := rfl
@[simp] theorem completeOk_turns (s : State) : (completeOk s).turns = s.turns := rfl
@[simp] theorem completeOk_readData (s : State) : (completeOk s).readData = s.readData := rfl
@[simp] theorem completeOk_draws (s : State) : (completeOk s).draws = s.draws := rfl

/-! ### completeErr -/

@[simp] theorem completeErr_status (o : BitVec 8) (e : CmdError) (s : State) : (completeErr o e s).status = s.status.completedErr e.code.value o :=
  rfl
@[simp] theorem completeErr_valid (o : BitVec 8) (e : CmdError) (s : State) : (completeErr o e s).valid = s.valid := rfl
@[simp] theorem completeErr_intr (o : BitVec 8) (e : CmdError) (s : State) : (completeErr o e s).intr = s.intr.completed :=
  rfl
@[simp] theorem completeErr_errInfo (o : BitVec 8) (e : CmdError) (s : State) : (completeErr o e s).errInfo = e.info :=
  rfl
@[simp] theorem completeErr_cfg (o : BitVec 8) (e : CmdError) (s : State) : (completeErr o e s).cfg = s.cfg := rfl
@[simp] theorem completeErr_res (o : BitVec 8) (e : CmdError) (s : State) : (completeErr o e s).res = s.res := rfl
@[simp] theorem completeErr_table (o : BitVec 8) (e : CmdError) (s : State) : (completeErr o e s).table = s.table := rfl
@[simp] theorem completeErr_mem (o : BitVec 8) (e : CmdError) (s : State) : (completeErr o e s).mem = s.mem := rfl
@[simp] theorem completeErr_opq (o : BitVec 8) (e : CmdError) (s : State) : (completeErr o e s).opq = [] := rfl
@[simp] theorem completeErr_turns (o : BitVec 8) (e : CmdError) (s : State) : (completeErr o e s).turns = s.turns := rfl
@[simp] theorem completeErr_readData (o : BitVec 8) (e : CmdError) (s : State) : (completeErr o e s).readData = s.readData :=
  rfl
@[simp] theorem completeErr_draws (o : BitVec 8) (e : CmdError) (s : State) : (completeErr o e s).draws = s.draws := rfl

/-! ### failStage -/

@[simp] theorem failStage_status (st : Stage) (e : CmdError) (s : State) : (failStage st e s).status = s.status.completedErr e.code.value st.opcode :=
  rfl
@[simp] theorem failStage_valid (st : Stage) (e : CmdError) (s : State) : (failStage st e s).valid = clearFrom st s.valid :=
  rfl
@[simp] theorem failStage_intr (st : Stage) (e : CmdError) (s : State) : (failStage st e s).intr = s.intr.completed :=
  rfl
@[simp] theorem failStage_errInfo (st : Stage) (e : CmdError) (s : State) : (failStage st e s).errInfo = e.info := rfl
@[simp] theorem failStage_cfg (st : Stage) (e : CmdError) (s : State) : (failStage st e s).cfg = s.cfg := rfl
@[simp] theorem failStage_res (st : Stage) (e : CmdError) (s : State) : (failStage st e s).res = s.res := rfl
@[simp] theorem failStage_table (st : Stage) (e : CmdError) (s : State) : (failStage st e s).table = s.table := rfl
@[simp] theorem failStage_mem (st : Stage) (e : CmdError) (s : State) : (failStage st e s).mem = s.mem := rfl
@[simp] theorem failStage_opq (st : Stage) (e : CmdError) (s : State) : (failStage st e s).opq = [] := rfl
@[simp] theorem failStage_turns (st : Stage) (e : CmdError) (s : State) : (failStage st e s).turns = s.turns := rfl
@[simp] theorem failStage_readData (st : Stage) (e : CmdError) (s : State) : (failStage st e s).readData = s.readData :=
  rfl
@[simp] theorem failStage_draws (st : Stage) (e : CmdError) (s : State) : (failStage st e s).draws = s.draws := rfl

/-! ### markValid -/

@[simp] theorem markValid_status (st : Stage) (s : State) : (markValid st s).status = s.status := rfl
@[simp] theorem markValid_valid (st : Stage) (s : State) : (markValid st s).valid = validAfter st s.valid := rfl
@[simp] theorem markValid_intr (st : Stage) (s : State) : (markValid st s).intr = s.intr := rfl
@[simp] theorem markValid_errInfo (st : Stage) (s : State) : (markValid st s).errInfo = s.errInfo := rfl
@[simp] theorem markValid_cfg (st : Stage) (s : State) : (markValid st s).cfg = s.cfg := rfl
@[simp] theorem markValid_res (st : Stage) (s : State) : (markValid st s).res = s.res := rfl
@[simp] theorem markValid_table (st : Stage) (s : State) : (markValid st s).table = s.table := rfl
@[simp] theorem markValid_mem (st : Stage) (s : State) : (markValid st s).mem = s.mem := rfl
@[simp] theorem markValid_opq (st : Stage) (s : State) : (markValid st s).opq = s.opq := rfl
@[simp] theorem markValid_turns (st : Stage) (s : State) : (markValid st s).turns = s.turns := rfl
@[simp] theorem markValid_readData (st : Stage) (s : State) : (markValid st s).readData = s.readData := rfl
@[simp] theorem markValid_draws (st : Stage) (s : State) : (markValid st s).draws = s.draws := rfl

/-! ### softReset -/

@[simp] theorem softReset_status (s : State) : (softReset s).status = Status.zero := rfl
@[simp] theorem softReset_valid (s : State) : (softReset s).valid = 0#6 := rfl
@[simp] theorem softReset_intr (s : State) : (softReset s).intr = ⟨false, false⟩ := rfl
@[simp] theorem softReset_errInfo (s : State) : (softReset s).errInfo = 0#64 := rfl
@[simp] theorem softReset_cfg (s : State) : (softReset s).cfg = ConfigRegs.default := rfl
@[simp] theorem softReset_res (s : State) : (softReset s).res = ResultRegs.zero := rfl
@[simp] theorem softReset_table (s : State) : (softReset s).table = resetTable := rfl
@[simp] theorem softReset_mem (s : State) : (softReset s).mem = if s.status.busy then forgetOutputs s.mem s.opq else s.mem :=
  rfl
@[simp] theorem softReset_opq (s : State) : (softReset s).opq = [] := rfl
@[simp] theorem softReset_turns (s : State) : (softReset s).turns = s.turns := rfl
@[simp] theorem softReset_readData (s : State) : (softReset s).readData = s.readData := rfl
@[simp] theorem softReset_draws (s : State) : (softReset s).draws = s.draws := rfl

/-! ### powerOnReset -/

@[simp] theorem powerOnReset_status (s : State) : (powerOnReset s).status = Status.zero := rfl
@[simp] theorem powerOnReset_valid (s : State) : (powerOnReset s).valid = 0#6 := rfl
@[simp] theorem powerOnReset_intr (s : State) : (powerOnReset s).intr = ⟨false, false⟩ := rfl
@[simp] theorem powerOnReset_errInfo (s : State) : (powerOnReset s).errInfo = 0#64 := rfl
@[simp] theorem powerOnReset_cfg (s : State) : (powerOnReset s).cfg = ConfigRegs.default := rfl
@[simp] theorem powerOnReset_res (s : State) : (powerOnReset s).res = ResultRegs.zero := rfl
@[simp] theorem powerOnReset_table (s : State) : (powerOnReset s).table = resetTable := rfl
@[simp] theorem powerOnReset_mem (s : State) : (powerOnReset s).mem = [] := rfl
@[simp] theorem powerOnReset_opq (s : State) : (powerOnReset s).opq = [] := rfl
@[simp] theorem powerOnReset_turns (s : State) : (powerOnReset s).turns = s.turns := rfl
@[simp] theorem powerOnReset_readData (s : State) : (powerOnReset s).readData = s.readData := rfl
@[simp] theorem powerOnReset_draws (s : State) : (powerOnReset s).draws = s.draws := rfl

/-! ### draw -/

@[simp] theorem draw_word (s : State) : (draw s).1 = Config.drawnWord s.draws := rfl
@[simp] theorem draw_status (s : State) : (draw s).2.status = s.status := rfl
@[simp] theorem draw_valid (s : State) : (draw s).2.valid = s.valid := rfl
@[simp] theorem draw_intr (s : State) : (draw s).2.intr = s.intr := rfl
@[simp] theorem draw_errInfo (s : State) : (draw s).2.errInfo = s.errInfo := rfl
@[simp] theorem draw_cfg (s : State) : (draw s).2.cfg = s.cfg := rfl
@[simp] theorem draw_res (s : State) : (draw s).2.res = s.res := rfl
@[simp] theorem draw_table (s : State) : (draw s).2.table = s.table := rfl
@[simp] theorem draw_mem (s : State) : (draw s).2.mem = s.mem := rfl
@[simp] theorem draw_opq (s : State) : (draw s).2.opq = s.opq := rfl
@[simp] theorem draw_turns (s : State) : (draw s).2.turns = s.turns := rfl
@[simp] theorem draw_readData (s : State) : (draw s).2.readData = s.readData := rfl
@[simp] theorem draw_draws (s : State) : (draw s).2.draws = s.draws + 1 := rfl

/-! ### Status.accepted -/

@[simp] theorem Status.accepted_busy (opc : BitVec 8) (s : Status) : (Status.accepted opc s).busy = true := rfl
@[simp] theorem Status.accepted_done (opc : BitVec 8) (s : Status) : (Status.accepted opc s).done = false := rfl
@[simp] theorem Status.accepted_err (opc : BitVec 8) (s : Status) : (Status.accepted opc s).err = false := rfl
@[simp] theorem Status.accepted_errSticky (opc : BitVec 8) (s : Status) : (Status.accepted opc s).errSticky = s.errSticky := rfl
@[simp] theorem Status.accepted_busErr (opc : BitVec 8) (s : Status) : (Status.accepted opc s).busErr = s.busErr := rfl
@[simp] theorem Status.accepted_hostConflict (opc : BitVec 8) (s : Status) : (Status.accepted opc s).hostConflict = s.hostConflict := rfl
@[simp] theorem Status.accepted_errCode (opc : BitVec 8) (s : Status) : (Status.accepted opc s).errCode = 0#8 := rfl
@[simp] theorem Status.accepted_lastOpc (opc : BitVec 8) (s : Status) : (Status.accepted opc s).lastOpc = opc := rfl
@[simp] theorem Status.accepted_failOpc (opc : BitVec 8) (s : Status) : (Status.accepted opc s).failOpc = 0#8 := rfl

/-! ### Status.illegal -/

@[simp] theorem Status.illegal_busy (opc : BitVec 8) (s : Status) : (Status.illegal opc s).busy = s.busy := rfl
@[simp] theorem Status.illegal_done (opc : BitVec 8) (s : Status) : (Status.illegal opc s).done = false := rfl
@[simp] theorem Status.illegal_err (opc : BitVec 8) (s : Status) : (Status.illegal opc s).err = true := rfl
@[simp] theorem Status.illegal_errSticky (opc : BitVec 8) (s : Status) : (Status.illegal opc s).errSticky = true := rfl
@[simp] theorem Status.illegal_busErr (opc : BitVec 8) (s : Status) : (Status.illegal opc s).busErr = s.busErr := rfl
@[simp] theorem Status.illegal_hostConflict (opc : BitVec 8) (s : Status) : (Status.illegal opc s).hostConflict = s.hostConflict := rfl
@[simp] theorem Status.illegal_errCode (opc : BitVec 8) (s : Status) : (Status.illegal opc s).errCode = 0x01#8 := rfl
@[simp] theorem Status.illegal_lastOpc (opc : BitVec 8) (s : Status) : (Status.illegal opc s).lastOpc = opc := rfl
@[simp] theorem Status.illegal_failOpc (opc : BitVec 8) (s : Status) : (Status.illegal opc s).failOpc = opc := rfl

/-! ### Status.completedOk -/

@[simp] theorem Status.completedOk_busy (s : Status) : (Status.completedOk s).busy = false := rfl
@[simp] theorem Status.completedOk_done (s : Status) : (Status.completedOk s).done = true := rfl
@[simp] theorem Status.completedOk_err (s : Status) : (Status.completedOk s).err = false := rfl
@[simp] theorem Status.completedOk_errSticky (s : Status) : (Status.completedOk s).errSticky = s.errSticky := rfl
@[simp] theorem Status.completedOk_busErr (s : Status) : (Status.completedOk s).busErr = s.busErr := rfl
@[simp] theorem Status.completedOk_hostConflict (s : Status) : (Status.completedOk s).hostConflict = s.hostConflict := rfl
@[simp] theorem Status.completedOk_errCode (s : Status) : (Status.completedOk s).errCode = s.errCode := rfl
@[simp] theorem Status.completedOk_lastOpc (s : Status) : (Status.completedOk s).lastOpc = s.lastOpc := rfl
@[simp] theorem Status.completedOk_failOpc (s : Status) : (Status.completedOk s).failOpc = s.failOpc := rfl

/-! ### Status.completedErr -/

@[simp] theorem Status.completedErr_busy (c o : BitVec 8) (s : Status) : (Status.completedErr c o s).busy = false := rfl
@[simp] theorem Status.completedErr_done (c o : BitVec 8) (s : Status) : (Status.completedErr c o s).done = false := rfl
@[simp] theorem Status.completedErr_err (c o : BitVec 8) (s : Status) : (Status.completedErr c o s).err = true := rfl
@[simp] theorem Status.completedErr_errSticky (c o : BitVec 8) (s : Status) : (Status.completedErr c o s).errSticky = true := rfl
@[simp] theorem Status.completedErr_busErr (c o : BitVec 8) (s : Status) : (Status.completedErr c o s).busErr = s.busErr := rfl
@[simp] theorem Status.completedErr_hostConflict (c o : BitVec 8) (s : Status) : (Status.completedErr c o s).hostConflict = s.hostConflict := rfl
@[simp] theorem Status.completedErr_errCode (c o : BitVec 8) (s : Status) : (Status.completedErr c o s).errCode = c := rfl
@[simp] theorem Status.completedErr_lastOpc (c o : BitVec 8) (s : Status) : (Status.completedErr c o s).lastOpc = s.lastOpc := rfl
@[simp] theorem Status.completedErr_failOpc (c o : BitVec 8) (s : Status) : (Status.completedErr c o s).failOpc = o := rfl

/-! ### INTR -/

@[simp] theorem Intr.completed_en (i : Intr) : i.completed.en = i.en := rfl
@[simp] theorem Intr.completed_pend (i : Intr) : i.completed.pend = true := rfl
@[simp] theorem Intr.written_en (v : Word) (i : Intr) : (Intr.written v i).en = v.getLsbD 0 := rfl
@[simp] theorem Intr.written_pend (v : Word) (i : Intr) : (Intr.written v i).pend = (i.pend && !v.getLsbD 1) := rfl

/-! ### afterStage -/

@[simp] theorem afterStage_nil (s : State) : afterStage [] s = completeOk s := rfl
@[simp] theorem afterStage_cons (st : Stage) (more : List Stage) (s : State) :
    afterStage (st :: more) s = { s with opq := st :: more } := rfl

theorem afterStage_opq (rest : List Stage) (s : State) : (afterStage rest s).opq = rest := by
  cases rest <;> rfl

/-! ### VALID -/

theorem stageValid_zero (st : Stage) : stageValid 0#6 st = false := by cases st <;> rfl

/-- Which VALID bits a success leaves set: its own, and those below that were set. -/
theorem stageValid_validAfter (st st' : Stage) (v : BitVec 6) :
    stageValid (validAfter st v) st' = (decide (st' = st) || (decide (st'.index < st.index) && stageValid v st')) := by
  revert v
  cases st <;> cases st' <;> decide

/-- Which VALID bits a failure leaves set: those below its own that were set. -/
theorem stageValid_clearFrom (st st' : Stage) (v : BitVec 6) :
    stageValid (clearFrom st v) st' = (decide (st'.index < st.index) && stageValid v st') := by
  revert v
  cases st <;> cases st' <;> decide

end Sys2Proof.Machine
end

