-- ==== Sys2Proof/Laws/Operands.lean ====
section
/-! SUPPORT. Reading the entries of buffers, storing them, and the order of a stage's checks. -/

namespace Sys2Proof.Machine

/-! ### Lists of entries -/

/-- A list of items is read exactly when each item is there. -/
theorem readEach_eq_some {α : Type} (f : Nat → Option α) (ks : List Nat) (xs : List α) :
    readEach f ks = some xs ↔ ks.map f = xs.map some := by
  induction ks generalizing xs with
  | nil =>
    cases xs <;> simp [readEach]
  | cons k ks ih =>
    unfold readEach
    constructor
    · intro h
      split at h
      · rename_i x ys hx hys
        obtain rfl := Option.some.inj h
        simp [hx, (ih ys).1 hys]
      · cases h
    · intro h
      cases xs with
      | nil => simp at h
      | cons x xs =>
        simp only [List.map_cons, List.cons.injEq] at h
        rw [h.1, (ih xs).2 h.2]

theorem readEach_length {α : Type} (f : Nat → Option α) (ks : List Nat) (xs : List α)
    (h : readEach f ks = some xs) : xs.length = ks.length := by
  have := congrArg List.length ((readEach_eq_some f ks xs).1 h)
  simpa using this.symm

/-- Item `i` of a list that was read is what index `i` of the list of indices reads as. -/
theorem readEach_getElem? {α : Type} (f : Nat → Option α) (ks : List Nat) (xs : List α)
    (h : readEach f ks = some xs) (i : Nat) (hi : i < ks.length) : f ks[i] = xs[i]? := by
  have e := congrArg (fun l => l[i]?) ((readEach_eq_some f ks xs).1 h)
  have hx : i < xs.length := by rw [readEach_length f ks xs h]; exact hi
  simp only [List.getElem?_map, List.getElem?_eq_getElem hi, List.getElem?_eq_getElem hx, Option.map_some,
    Option.some.injEq] at e
  rw [e, List.getElem?_eq_getElem hx]

/-- A list of items can be read exactly when each of them can. -/
theorem readEach_isSome {α : Type} (f : Nat → Option α) (ks : List Nat) :
    (∃ xs, readEach f ks = some xs) ↔ ∀ k ∈ ks, (f k).isSome := by
  induction ks with
  | nil => simp [readEach]
  | cons k ks ih =>
    simp only [readEach, List.mem_cons, forall_eq_or_imp]
    constructor
    · rintro ⟨xs, h⟩
      split at h
      · rename_i x ys hx hys
        exact ⟨by simp [hx], ih.1 ⟨ys, hys⟩⟩
      · cases h
    · rintro ⟨h, hs⟩
      obtain ⟨ys, hys⟩ := ih.2 hs
      obtain ⟨x, hx⟩ := Option.isSome_iff_exists.1 h
      exact ⟨x :: ys, by rw [hx, hys]⟩

theorem readEach_congr {α : Type} (f g : Nat → Option α) (ks : List Nat) (h : ∀ k ∈ ks, f k = g k) :
    readEach f ks = readEach g ks := by
  induction ks with
  | nil => rfl
  | cons k ks ih =>
    simp only [readEach, h k (by simp), ih fun k' hk' => h k' (by simp [hk'])]

/-- The entries `0..n)` are read exactly when entry by entry they are there. -/
theorem readReals_eq_some (m : Memory) (b : Buffer) (n : Nat) (xs : List F64) :
    readReals m b n = some xs ↔ xs.length = n ∧ ∀ k < n, realEntry m b k = xs[k]? := by
  constructor
  · intro h
    have hl : xs.length = n := by simpa using readEach_length _ _ _ h
    refine ⟨hl, fun k hk => ?_⟩
    have := readEach_getElem? _ _ _ h k (by simpa using hk)
    simpa using this
  · rintro ⟨hl, hk⟩
    refine (readEach_eq_some _ _ _).2 (List.ext_getElem (by simp [hl]) fun k h1 h2 => ?_)
    have hkn : k < n := by simpa using h1
    have := hk k hkn
    rw [List.getElem?_eq_getElem (by omega)] at this
    simpa using this

theorem readComplexes_eq_some (m : Memory) (b : Buffer) (n : Nat) (zs : List C64) :
    readComplexes m b n = some zs ↔ zs.length = n ∧ ∀ k < n, complexEntry m b k = zs[k]? := by
  constructor
  · intro h
    have hl : zs.length = n := by simpa using readEach_length _ _ _ h
    refine ⟨hl, fun k hk => ?_⟩
    have := readEach_getElem? _ _ _ h k (by simpa using hk)
    simpa using this
  · rintro ⟨hl, hk⟩
    refine (readEach_eq_some _ _ _).2 (List.ext_getElem (by simp [hl]) fun k h1 h2 => ?_)
    have hkn : k < n := by simpa using h1
    have := hk k hkn
    rw [List.getElem?_eq_getElem (by omega)] at this
    simpa using this

theorem readReals_isSome (m : Memory) (b : Buffer) (n : Nat) :
    (∃ xs, readReals m b n = some xs) ↔ ∀ k < n, (realEntry m b k).isSome := by
  simpa [readReals] using readEach_isSome (realEntry m b) (List.range n)

theorem readComplexes_isSome (m : Memory) (b : Buffer) (n : Nat) :
    (∃ zs, readComplexes m b n = some zs) ↔ ∀ k < n, (complexEntry m b k).isSome := by
  simpa [readComplexes] using readEach_isSome (complexEntry m b) (List.range n)

/-- No buffer has an entry at or beyond `N_MAX`. -/
theorem realEntry_isSome_lt (m : Memory) (b : Buffer) (k : Nat) (h : (realEntry m b k).isSome) : k < Config.nMax := by
  unfold realEntry at h
  split at h
  · assumption
  · cases h

theorem complexEntry_isSome_lt (m : Memory) (b : Buffer) (k : Nat) (h : (complexEntry m b k).isSome) :
    k < Config.nMax := by
  unfold complexEntry at h
  split at h
  · assumption
  · cases h

theorem readReals_length_le (m : Memory) (b : Buffer) (n : Nat) (xs : List F64) (h : readReals m b n = some xs) :
    n ≤ Config.nMax := by
  by_contra hn
  have := (readReals_isSome m b n).1 ⟨xs, h⟩ Config.nMax (by omega)
  exact absurd (realEntry_isSome_lt _ _ _ this) (by omega)

theorem readComplexes_length_le (m : Memory) (b : Buffer) (n : Nat) (zs : List C64)
    (h : readComplexes m b n = some zs) : n ≤ Config.nMax := by
  by_contra hn
  have := (readComplexes_isSome m b n).1 ⟨zs, h⟩ Config.nMax (by omega)
  exact absurd (complexEntry_isSome_lt _ _ _ this) (by omega)

/-! ### Buffer windows -/

/-- Two different buffer windows do not overlap (R47). -/
theorem Buffer.windows_disjoint (b b' : Buffer) (h : b ≠ b') :
    b.base + b.span ≤ b'.base ∨ b'.base + b'.span ≤ b.base := by
  revert h
  cases b <;> cases b' <;> decide

theorem Buffer.span_real (b : Buffer) (h : b.isComplex = false) : b.span = 8 * Config.nMax := by
  revert h
  cases b <;> decide

theorem Buffer.span_complex (b : Buffer) (h : b.isComplex = true) : b.span = 16 * Config.nMax := by
  revert h
  cases b <;> decide

theorem Buffer.entryAddr_real (b : Buffer) (h : b.isComplex = false) (k : Nat) : b.entryAddr k = b.base + 8 * k := by
  simp [Buffer.entryAddr, Buffer.entryBytes, h]

theorem Buffer.entryAddr_complex (b : Buffer) (h : b.isComplex = true) (k : Nat) :
    b.entryAddr k = b.base + 16 * k := by
  simp [Buffer.entryAddr, Buffer.entryBytes, h]

/-- An entry's bytes lie in its buffer's window. -/
theorem Buffer.entryAddr_lt (b : Buffer) (k : Nat) (hk : k < Config.nMax) :
    b.base ≤ b.entryAddr k ∧ b.entryAddr k + b.entryBytes ≤ b.base + b.span := by
  unfold Buffer.entryAddr Buffer.span
  constructor
  · omega
  · have : b.entryBytes * (k + 1) ≤ b.entryBytes * Config.nMax := Nat.mul_le_mul_left _ hk
    rw [Nat.mul_add] at this
    rw [Nat.mul_comm Config.nMax]
    omega

/-! ### Storing entries -/

theorem flatMap_words_length (zs : List C64) : (zs.flatMap C64.words).length = 2 * zs.length := by
  induction zs with
  | nil => rfl
  | cons z zs ih => simp [ih, C64.words]; omega

theorem flatMap_words_re (zs : List C64) (k : Nat) : (zs.flatMap C64.words)[2 * k]? = zs[k]?.map C64.re := by
  induction zs generalizing k with
  | nil => simp
  | cons z zs ih =>
    cases k with
    | zero => simp [C64.words]
    | succ k =>
      have e : 2 * (k + 1) = 2 * k + 1 + 1 := by omega
      simp [C64.words, e, ih]

theorem flatMap_words_im (zs : List C64) (k : Nat) : (zs.flatMap C64.words)[2 * k + 1]? = zs[k]?.map C64.im := by
  induction zs generalizing k with
  | nil => simp
  | cons z zs ih =>
    cases k with
    | zero => simp [C64.words]
    | succ k =>
      have e : 2 * (k + 1) + 1 = 2 * k + 1 + 1 + 1 := by omega
      simp [C64.words, e, ih]

/-- Storing reals changes no byte outside the words stored. -/
theorem readByte_storeReals_outside (m : Memory) (b : Buffer) (ws : List Word) (x : Nat)
    (h : x < b.base ∨ b.base + 8 * ws.length ≤ x) : readByte (storeReals m b ws) x = readByte m x :=
  readByte_writeWords_outside m b.base ws x h

theorem readByte_storeComplex_outside (m : Memory) (b : Buffer) (zs : List C64) (x : Nat)
    (h : x < b.base ∨ b.base + 16 * zs.length ≤ x) : readByte (storeComplex m b zs) x = readByte m x :=
  readByte_writeWords_outside m b.base _ x (by rw [flatMap_words_length]; omega)

/-- A stored real entry reads as it was stored. -/
theorem realEntry_storeReals (m : Memory) (b : Buffer) (hb : b.isComplex = false) (ws : List Word) (k : Nat)
    (hk : k < ws.length) (hn : k < Config.nMax) : realEntry (storeReals m b ws) b k = ws[k]? := by
  rw [realEntry, if_pos hn, Buffer.entryAddr_real b hb, List.getElem?_eq_getElem hk]
  exact readWord_writeWords m b.base ws k _ (List.getElem?_eq_getElem hk)

/-- A stored complex entry reads as it was stored. -/
theorem complexEntry_storeComplex (m : Memory) (b : Buffer) (hb : b.isComplex = true) (zs : List C64) (k : Nat)
    (hk : k < zs.length) (hn : k < Config.nMax) : complexEntry (storeComplex m b zs) b k = zs[k]? := by
  have h1 : readWord (storeComplex m b zs) (b.base + 8 * (2 * k)) = some zs[k].re :=
    readWord_writeWords _ _ _ _ _ (by rw [flatMap_words_re, List.getElem?_eq_getElem hk]; rfl)
  have h2 : readWord (storeComplex m b zs) (b.base + 8 * (2 * k + 1)) = some zs[k].im :=
    readWord_writeWords _ _ _ _ _ (by rw [flatMap_words_im, List.getElem?_eq_getElem hk]; rfl)
  have e1 : b.base + 16 * k = b.base + 8 * (2 * k) := by omega
  have e2 : b.base + 16 * k + 8 = b.base + 8 * (2 * k + 1) := by omega
  rw [complexEntry, if_pos hn, Buffer.entryAddr_complex b hb, e2, e1, h1, h2, List.getElem?_eq_getElem hk]

/-- An entry of one buffer is untouched by a run of words inside another's window. -/
theorem realEntry_writeWords_other (m : Memory) (b b' : Buffer) (h : b ≠ b') (ws : List Word)
    (hw : 8 * ws.length ≤ b'.span) (k : Nat) : realEntry (writeWords m b'.base ws) b k = realEntry m b k := by
  unfold realEntry
  split
  · rename_i hk
    have h1 := Buffer.entryAddr_lt b k hk
    have h2 := Buffer.windows_disjoint b b' h
    have h3 : 8 ≤ b.entryBytes := by cases b <;> decide
    exact readWord_writeWords_outside m b'.base ws _ (by omega)
  · rfl

theorem complexEntry_writeWords_other (m : Memory) (b b' : Buffer) (hb : b.isComplex = true) (h : b ≠ b')
    (ws : List Word) (hw : 8 * ws.length ≤ b'.span) (k : Nat) :
    complexEntry (writeWords m b'.base ws) b k = complexEntry m b k := by
  unfold complexEntry
  split
  · rename_i hk
    have h1 := Buffer.entryAddr_lt b k hk
    have h2 := Buffer.windows_disjoint b b' h
    have h3 : b.entryBytes = 16 := by simp [Buffer.entryBytes, hb]
    rw [readWord_writeWords_outside m b'.base ws _ (by omega), readWord_writeWords_outside m b'.base ws _ (by omega)]
  · rfl

/-! ### Checks -/

/-- No check fails exactly when each passes. -/
theorem firstFailure_eq_none (cs : List StageCheck) : firstFailure cs = none ↔ ∀ c ∈ cs, c.1 = false := by
  induction cs with
  | nil => simp [firstFailure]
  | cons c cs ih =>
    unfold firstFailure
    cases h : c.1 <;> simp [h, ih]

/-- The error reported is that of the first check that fails (R113). -/
theorem firstFailure_eq_some (cs : List StageCheck) (e : CmdError) :
    firstFailure cs = some e ↔
      ∃ before c after, cs = before ++ c :: after ∧ (∀ c' ∈ before, c'.1 = false) ∧ c.1 = true ∧ c.2 = e := by
  induction cs with
  | nil => simp [firstFailure]
  | cons c cs ih =>
    unfold firstFailure
    split
    · rename_i hc
      constructor
      · intro h
        exact ⟨[], c, cs, rfl, by simp, hc, Option.some.inj h⟩
      · rintro ⟨before, c', after, heq, hb, hc', rfl⟩
        cases before with
        | nil =>
          simp only [List.nil_append, List.cons.injEq] at heq
          rw [heq.1]
        | cons d before =>
          simp only [List.cons_append, List.cons.injEq] at heq
          have := hb d (by simp)
          rw [← heq.1, hc] at this
          cases this
    · rename_i hc
      rw [ih]
      constructor
      · rintro ⟨before, c', after, rfl, hb, hc', he⟩
        refine ⟨c :: before, c', after, rfl, ?_, hc', he⟩
        intro d hd
        rcases List.mem_cons.1 hd with rfl | hd
        · simpa using hc
        · exact hb d hd
      · rintro ⟨before, c', after, heq, hb, hc', he⟩
        cases before with
        | nil =>
          simp only [List.nil_append, List.cons.injEq] at heq
          rw [heq.1] at hc
          exact absurd hc' hc
        | cons d before =>
          simp only [List.cons_append, List.cons.injEq] at heq
          exact ⟨before, c', after, heq.2, fun d' hd' => hb d' (by simp [hd']), hc', he⟩

/-- A length register passes its check exactly in 1..N_MAX. -/
theorem outOfRange_eq_false (w : Word) : outOfRange w = false ↔ 1 ≤ w.toNat ∧ w.toNat ≤ Config.nMax := by
  simp [outOfRange]
  omega

/-- What a stage's checks read: the configuration, L_LEN and VALID only. -/
theorem stageError_congr (st : Stage) (s s' : State) (hc : s.cfg = s'.cfg) (hr : s.res = s'.res)
    (hv : s.valid = s'.valid) : stageError st s = stageError st s' := by
  cases st <;>
    simp only [stageError, stageChecks, checkN, checkFs, checkDecim, checkM, checkValid, checkPreamble, hc, hr, hv]

theorem afterChecks_of_error (st : Stage) (s : State) (body : State → StageResult) (e : CmdError)
    (h : stageError st s = some e) : afterChecks st s body = .raised e := by
  rw [afterChecks, h]

theorem afterChecks_of_none (st : Stage) (s : State) (body : State → StageResult) (h : stageError st s = none) :
    afterChecks st s body = body s := by
  rw [afterChecks, h]

end Sys2Proof.Machine
end

