-- ==== Sys2Proof/Laws/Stages.lean ====
section
/-! SUPPORT. What each stage can do, said once: when it ends it has passed its checks, found its operands written, and
changed exactly the memory, the result registers and the VALID bits its rule names. -/

namespace Sys2Proof.Machine

/-- A stage that ends passed its checks and ran its body. -/
theorem afterChecks_done (st : Stage) (s s' : State) (body : State → StageResult)
    (h : afterChecks st s body = .done s') : stageError st s = none ∧ body s = .done s' := by
  unfold afterChecks at h
  split at h
  · cases h
  · rename_i he
    exact ⟨he, h⟩

/-- A stage whose body never raises, raises exactly the first failing check (R110, R113). -/
theorem afterChecks_raised (st : Stage) (s : State) (body : State → StageResult) (e : CmdError)
    (hb : ∀ s e, body s ≠ .raised e) (h : afterChecks st s body = .raised e) : stageError st s = some e := by
  unfold afterChecks at h
  split at h
  · rename_i he
    cases h
    exact he
  · exact absurd h (hb s e)

theorem stageDconv_done (num : NumRecord) (s s' : State) (h : stageDconv num s = .done s') :
    stageError .dconv s = none ∧ ∃ xs, readReals s.mem .sample s.cfg.n.toNat = some xs ∧
      s' = markValid .dconv { s with
        mem := storeReals (storeReals s.mem .i ((mixFrom num s.cfg 0 xs).map Prod.fst)) .q
          ((mixFrom num s.cfg 0 xs).map Prod.snd) } := by
  obtain ⟨he, hb⟩ := afterChecks_done _ _ _ _ h
  refine ⟨he, ?_⟩
  dsimp only at hb
  split at hb
  · cases hb
  · rename_i xs hx
    exact ⟨xs, hx, (StageResult.done.inj hb).symm⟩

theorem stageFilt_done (num : NumRecord) (s s' : State) (h : stageFilt num s = .done s') :
    stageError .filt s = none ∧ ∃ xi xq, readReals s.mem .i s.cfg.n.toNat = some xi ∧
      readReals s.mem .q s.cfg.n.toNat = some xq ∧
      s' = markValid .filt { s with
        mem := storeReals (storeReals s.mem .iF (lowpass num s.cfg xi)) .qF (lowpass num s.cfg xq) } := by
  obtain ⟨he, hb⟩ := afterChecks_done _ _ _ _ h
  refine ⟨he, ?_⟩
  dsimp only at hb
  split at hb
  · cases hb
  · cases hb
  · rename_i xi xq hi hq
    exact ⟨xi, xq, hi, hq, (StageResult.done.inj hb).symm⟩

theorem stageDecim_done (s s' : State) (h : stageDecim s = .done s') :
    stageError .decim s = none ∧ ∃ xi xq, readEach (realEntry s.mem .iF) (keptIndices s.cfg) = some xi ∧
      readEach (realEntry s.mem .qF) (keptIndices s.cfg) = some xq ∧
      s' = markValid .decim { s with
        mem := storeComplex s.mem .dec (List.zipWith C64.mk xi xq)
        res := { s.res with lLen := BitVec.ofNat 64 (decimatedLength s.cfg) } } := by
  obtain ⟨he, hb⟩ := afterChecks_done _ _ _ _ h
  refine ⟨he, ?_⟩
  dsimp only at hb
  split at hb
  · cases hb
  · cases hb
  · rename_i xi xq hi hq
    exact ⟨xi, xq, hi, hq, (StageResult.done.inj hb).symm⟩

theorem stageSync_done (num : NumRecord) (s s' : State) (h : stageSync num s = .done s') :
    stageError .sync s = none ∧ ∃ d r, readComplexes s.mem .dec s.res.lLen.toNat = some d ∧
      readComplexes s.mem .pre s.cfg.m.toNat = some r ∧
      s' = markValid .sync { s with
        mem := storeReals s.mem .corr (correlation num s.res.lLen.toNat s.cfg.m.toNat d r)
        res := syncResults s.cfg s.res.lLen.toNat (correlation num s.res.lLen.toNat s.cfg.m.toNat d r) s.res } := by
  obtain ⟨he, hb⟩ := afterChecks_done _ _ _ _ h
  refine ⟨he, ?_⟩
  dsimp only at hb
  split at hb
  · cases hb
  · cases hb
  · rename_i d r hd hr
    exact ⟨d, r, hd, hr, (StageResult.done.inj hb).symm⟩

theorem stageDemap_done (num : NumRecord) (s s' : State) (h : stageDemap num s = .done s') :
    stageError .demap s = none ∧ ∃ zs, readEach (complexEntry s.mem .dec) (payloadIndices s.res) = some zs ∧
      s' = markValid .demap { s with
        mem := storeReals s.mem .code (zs.map (symbolCode num s.table))
        res := { s.res with bitCount := BitVec.ofNat 64 (4 * s.res.payloadLen.toNat) } } := by
  obtain ⟨he, hb⟩ := afterChecks_done _ _ _ _ h
  refine ⟨he, ?_⟩
  dsimp only at hb
  split at hb
  · cases hb
  · rename_i zs hz
    exact ⟨zs, hz, (StageResult.done.inj hb).symm⟩

theorem stagePack_done (s s' : State) (h : stagePack s = .done s') :
    stageError .pack s = none ∧ ∃ codes, readReals s.mem .code (s.res.bitCount.toNat / 4) = some codes ∧
      s' = markValid .pack { s with
        mem := storeReals s.mem .text (packChars (bitSequence codes) (charCount s.res))
        res := { s.res with charCount := BitVec.ofNat 64 (charCount s.res) } } := by
  obtain ⟨he, hb⟩ := afterChecks_done _ _ _ _ h
  refine ⟨he, ?_⟩
  dsimp only at hb
  split at hb
  · cases hb
  · rename_i codes hc
    exact ⟨codes, hc, (StageResult.done.inj hb).symm⟩

/-- A stage raises exactly when a check fails, and then the first that fails (R110, R113). -/
theorem runStage_raised_iff (num : NumRecord) (st : Stage) (s : State) (e : CmdError) :
    runStage num st s = .raised e ↔ stageError st s = some e := by
  constructor
  · intro h
    cases st <;> simp only [runStage, stageDconv, stageFilt, stageDecim, stageSync, stageDemap, stagePack] at h <;>
      refine afterChecks_raised _ _ _ _ (fun s e hb => ?_) h <;> split at hb <;> cases hb
  · intro h
    cases st <;> simp only [runStage, stageDconv, stageFilt, stageDecim, stageSync, stageDemap, stagePack] <;>
      exact afterChecks_of_error _ _ _ _ h

/-- What every stage that ends leaves alone, and what it does to VALID (R22, R69). -/
theorem runStage_done_frame (num : NumRecord) (st : Stage) (s s' : State) (h : runStage num st s = .done s') :
    stageError st s = none ∧ s'.valid = validAfter st s.valid ∧ s'.status = s.status ∧ s'.intr = s.intr ∧
      s'.errInfo = s.errInfo ∧ s'.cfg = s.cfg ∧ s'.table = s.table ∧ s'.opq = s.opq ∧ s'.turns = s.turns ∧
      s'.readData = s.readData ∧ s'.draws = s.draws := by
  cases st
  · obtain ⟨he, xs, -, rfl⟩ := stageDconv_done num s s' h
    exact ⟨he, rfl, rfl, rfl, rfl, rfl, rfl, rfl, rfl, rfl, rfl⟩
  · obtain ⟨he, xi, xq, -, -, rfl⟩ := stageFilt_done num s s' h
    exact ⟨he, rfl, rfl, rfl, rfl, rfl, rfl, rfl, rfl, rfl, rfl⟩
  · obtain ⟨he, xi, xq, -, -, rfl⟩ := stageDecim_done s s' h
    exact ⟨he, rfl, rfl, rfl, rfl, rfl, rfl, rfl, rfl, rfl, rfl⟩
  · obtain ⟨he, d, r, -, -, rfl⟩ := stageSync_done num s s' h
    exact ⟨he, rfl, rfl, rfl, rfl, rfl, rfl, rfl, rfl, rfl, rfl⟩
  · obtain ⟨he, zs, -, rfl⟩ := stageDemap_done num s s' h
    exact ⟨he, rfl, rfl, rfl, rfl, rfl, rfl, rfl, rfl, rfl, rfl⟩
  · obtain ⟨he, codes, -, rfl⟩ := stagePack_done s s' h
    exact ⟨he, rfl, rfl, rfl, rfl, rfl, rfl, rfl, rfl, rfl, rfl⟩

/-! ### Lengths of what the stages write -/

@[simp] theorem mixFrom_length (num : NumRecord) (c : ConfigRegs) (n : Nat) (xs : List F64) :
    (mixFrom num c n xs).length = xs.length := by
  induction xs generalizing n with
  | nil => rfl
  | cons x xs ih => simp [mixFrom, ih]

/-- Entry `k` of the mixed sequence is sample `n + k` with its phase (R75, R76). -/
theorem mixFrom_getElem? (num : NumRecord) (c : ConfigRegs) (n k : Nat) (xs : List F64) :
    (mixFrom num c n xs)[k]? = xs[k]?.map fun x => num.mix x (phaseNum c (n + k)) (phaseDen c) := by
  induction xs generalizing n k with
  | nil => simp [mixFrom]
  | cons x xs ih =>
    cases k with
    | zero => simp [mixFrom]
    | succ k =>
      have e : n + 1 + k = n + (k + 1) := by omega
      simp [mixFrom, ih, e]

@[simp] theorem lowpass_length (num : NumRecord) (c : ConfigRegs) (xs : List F64) :
    (lowpass num c xs).length = c.n.toNat := by
  simp [lowpass]

@[simp] theorem keptIndices_length (c : ConfigRegs) : (keptIndices c).length = decimatedLength c := by
  simp [keptIndices]

@[simp] theorem correlation_length (num : NumRecord) (L M : Nat) (d r : List C64) :
    (correlation num L M d r).length = L - M + 1 := by
  simp [correlation]

@[simp] theorem payloadIndices_length (r : ResultRegs) : (payloadIndices r).length = r.payloadLen.toNat := by
  simp [payloadIndices]

@[simp] theorem packChars_length (bits : List Bool) (n : Nat) : (packChars bits n).length = n := by
  simp [packChars]

/-- The decimated length is no more than N for a legal factor (R83). -/
theorem decimatedLength_le (c : ConfigRegs) (hd : c.decim ≠ 0#64) : decimatedLength c ≤ c.n.toNat := by
  have h0 : 0 < c.decim.toNat := by
    rcases Nat.eq_zero_or_pos c.decim.toNat with h | h
    · exact absurd (BitVec.eq_of_toNat_eq (by simpa using h)) hd
    · exact h
  unfold decimatedLength
  rcases Nat.eq_zero_or_pos c.n.toNat with hn | hn
  · rw [hn, Nat.zero_add, Nat.div_eq_of_lt (by omega)]
  · obtain ⟨a, ha⟩ : ∃ a, c.n.toNat = a + 1 := ⟨c.n.toNat - 1, by omega⟩
    obtain ⟨b, hb⟩ : ∃ b, c.decim.toNat = b + 1 := ⟨c.decim.toNat - 1, by omega⟩
    have h1 : (b + 1) * (a + 1) = a * b + (a + b + 1) := by ring
    rw [ha, hb]
    exact Nat.div_le_of_le_mul (by omega)

/-- Every kept index is below N (R83). -/
theorem mul_lt_of_lt_decimatedLength (c : ConfigRegs) (k : Nat) (h : k < decimatedLength c) :
    k * c.decim.toNat < c.n.toNat := by
  unfold decimatedLength at h
  rcases Nat.eq_zero_or_pos c.decim.toNat with hd | hd
  · simp [hd] at h
  · have := (Nat.lt_div_iff_mul_lt hd).1 h
    omega

/-- What a stage reads and writes: configuration, table, result registers, VALID and memory. States that agree on these
answer alike, each keeping its other fields (R69). -/
theorem runStage_congr (num : NumRecord) (st : Stage) (s u s' : State) (h1 : u.cfg = s.cfg) (h2 : u.res = s.res)
    (h3 : u.valid = s.valid) (h4 : u.mem = s.mem) (h5 : u.table = s.table) (h : runStage num st s = .done s') :
    runStage num st u = .done { u with valid := s'.valid, res := s'.res, mem := s'.mem } := by
  have he : stageError st u = stageError st s := stageError_congr _ _ _ h1 h2 h3
  cases u; cases s
  simp only at h1 h2 h3 h4 h5
  subst h1 h2 h3 h4 h5
  cases st
  · obtain ⟨hn, xs, hx, rfl⟩ := stageDconv_done _ _ _ h
    simp only [runStage, stageDconv]
    rw [afterChecks_of_none _ _ _ (he.trans hn)]
    dsimp only at hx ⊢
    simp only [hx]
    rfl
  · obtain ⟨hn, xi, xq, hi, hq, rfl⟩ := stageFilt_done _ _ _ h
    simp only [runStage, stageFilt]
    rw [afterChecks_of_none _ _ _ (he.trans hn)]
    dsimp only at hi hq ⊢
    simp only [hi, hq]
    rfl
  · obtain ⟨hn, xi, xq, hi, hq, rfl⟩ := stageDecim_done _ _ h
    simp only [runStage, stageDecim]
    rw [afterChecks_of_none _ _ _ (he.trans hn)]
    dsimp only at hi hq ⊢
    simp only [hi, hq]
    rfl
  · obtain ⟨hn, xi, xq, hi, hq, rfl⟩ := stageSync_done _ _ _ h
    simp only [runStage, stageSync]
    rw [afterChecks_of_none _ _ _ (he.trans hn)]
    dsimp only at hi hq ⊢
    simp only [hi, hq]
    rfl
  · obtain ⟨hn, xs, hx, rfl⟩ := stageDemap_done _ _ _ h
    simp only [runStage, stageDemap]
    rw [afterChecks_of_none _ _ _ (he.trans hn)]
    dsimp only at hx ⊢
    simp only [hx]
    rfl
  · obtain ⟨hn, xs, hx, rfl⟩ := stagePack_done _ _ h
    simp only [runStage, stagePack]
    rw [afterChecks_of_none _ _ _ (he.trans hn)]
    dsimp only at hx ⊢
    simp only [hx]
    rfl

/-! ### What the stages write -/

/-- A payload whose symbols could all be read fits in a buffer (R42, R88). -/
theorem payloadLen_le (s : State) (zs : List C64)
    (h : readEach (complexEntry s.mem .dec) (payloadIndices s.res) = some zs) :
    s.res.payloadLen.toNat ≤ Config.nMax := by
  have key : ∀ p < s.res.payloadLen.toNat, s.res.payloadStart.toNat + p < Config.nMax := fun p hp =>
    complexEntry_isSome_lt _ _ _ ((readEach_isSome _ _).1 ⟨zs, h⟩ _ (by simp [payloadIndices, hp]))
  rcases Nat.eq_zero_or_pos s.res.payloadLen.toNat with h0 | h0
  · omega
  · have := key (s.res.payloadLen.toNat - 1) (by omega)
    omega

/-- What a stage that ends writes: nothing, or runs of words that lie each in the window of one of its output buffers
(R42, R69). -/
theorem runStage_writes (num : NumRecord) (st : Stage) (s s' : State) (h : runStage num st s = .done s') :
    ∃ runs : List (Buffer × List Word), (∀ x ∈ runs, x.1 ∈ st.outputs ∧ 8 * x.2.length ≤ x.1.span) ∧
      s'.mem = runs.foldl (fun m x => writeWords m x.1.base x.2) s.mem := by
  have fits : ∀ (b : Buffer) (ws : List Word), b.isComplex = false → ws.length ≤ Config.nMax →
      8 * ws.length ≤ b.span :=
    fun b ws hb hw => by rw [Buffer.span_real b hb]; exact Nat.mul_le_mul_left 8 hw
  cases st
  · obtain ⟨-, xs, hx, rfl⟩ := stageDconv_done _ _ _ h
    have hl : xs.length ≤ Config.nMax := by
      rw [((readReals_eq_some _ _ _ _).1 hx).1]
      exact readReals_length_le _ _ _ _ hx
    exact ⟨[(.i, (mixFrom num s.cfg 0 xs).map Prod.fst), (.q, (mixFrom num s.cfg 0 xs).map Prod.snd)],
      List.forall_mem_cons.2 ⟨⟨by simp [Stage.outputs], fits _ _ rfl (by simpa using hl)⟩,
        List.forall_mem_singleton.2 ⟨by simp [Stage.outputs], fits _ _ rfl (by simpa using hl)⟩⟩, rfl⟩
  · obtain ⟨-, xi, xq, hi, -, rfl⟩ := stageFilt_done _ _ _ h
    have hn := readReals_length_le _ _ _ _ hi
    exact ⟨[(.iF, lowpass num s.cfg xi), (.qF, lowpass num s.cfg xq)],
      List.forall_mem_cons.2 ⟨⟨by simp [Stage.outputs], fits _ _ rfl (by simpa using hn)⟩,
        List.forall_mem_singleton.2 ⟨by simp [Stage.outputs], fits _ _ rfl (by simpa using hn)⟩⟩, rfl⟩
  · obtain ⟨he, xi, xq, hi, hq, rfl⟩ := stageDecim_done _ _ h
    have li := (readEach_length _ _ _ hi).trans (keptIndices_length _)
    have lq := (readEach_length _ _ _ hq).trans (keptIndices_length _)
    have hc := (firstFailure_eq_none _).1 he
    simp only [stageChecks, checkN, checkDecim, List.mem_cons, forall_eq_or_imp, beq_eq_false_iff_ne] at hc
    have hn := (outOfRange_eq_false _).1 hc.1
    have hd := decimatedLength_le s.cfg hc.2.1
    refine ⟨[(.dec, (List.zipWith C64.mk xi xq).flatMap C64.words)],
      List.forall_mem_singleton.2 ⟨by simp [Stage.outputs], ?_⟩, rfl⟩
    rw [flatMap_words_length, List.length_zipWith, li, lq, Buffer.span_complex .dec rfl]
    omega
  · obtain ⟨he, d, r, hd, -, rfl⟩ := stageSync_done _ _ _ h
    have hn := readComplexes_length_le _ _ _ _ hd
    have hc := (firstFailure_eq_none _).1 he
    simp only [stageChecks, checkM, checkPreamble, List.mem_cons, forall_eq_or_imp, decide_eq_false_iff_not] at hc
    have hm := (outOfRange_eq_false _).1 hc.1
    have hle := hc.2.2.1
    refine ⟨[(.corr, correlation num s.res.lLen.toNat s.cfg.m.toNat d r)],
      List.forall_mem_singleton.2 ⟨by simp [Stage.outputs], fits _ _ rfl ?_⟩, rfl⟩
    rw [correlation_length]
    omega
  · obtain ⟨-, zs, hz, rfl⟩ := stageDemap_done _ _ _ h
    have li := (readEach_length _ _ _ hz).trans (payloadIndices_length _)
    refine ⟨[(.code, zs.map (symbolCode num s.table))],
      List.forall_mem_singleton.2 ⟨by simp [Stage.outputs], fits _ _ rfl ?_⟩, rfl⟩
    rw [List.length_map, li]
    exact payloadLen_le s zs hz
  · obtain ⟨-, codes, hc, rfl⟩ := stagePack_done _ _ h
    have hn := readReals_length_le _ _ _ _ hc
    refine ⟨[(.text, packChars (bitSequence codes) (charCount s.res))],
      List.forall_mem_singleton.2 ⟨by simp [Stage.outputs], fits _ _ rfl ?_⟩, rfl⟩
    rw [packChars_length, charCount]
    omega

/-- The entries of every buffer that is no output of a stage stand when it ends (R42, R69). -/
theorem runStage_entries_other (num : NumRecord) (st : Stage) (s s' : State) (h : runStage num st s = .done s')
    (b : Buffer) (hb : b ∉ st.outputs) :
    (∀ k, realEntry s'.mem b k = realEntry s.mem b k) ∧
    (b.isComplex = true → ∀ k, complexEntry s'.mem b k = complexEntry s.mem b k) := by
  obtain ⟨runs, hr, e⟩ := runStage_writes num st s s' h
  rw [e]
  generalize s.mem = m
  clear e h
  induction runs generalizing m with
  | nil => exact ⟨fun _ => rfl, fun _ _ => rfl⟩
  | cons x runs ih =>
    obtain ⟨hx, hw⟩ := hr x (by simp)
    have hne : b ≠ x.1 := fun e => hb (e ▸ hx)
    obtain ⟨h1, h2⟩ := ih (fun y hy => hr y (by simp [hy])) (writeWords m x.1.base x.2)
    exact ⟨fun k => (h1 k).trans (realEntry_writeWords_other m b x.1 hne x.2 hw k),
      fun hc k => (h2 hc k).trans (complexEntry_writeWords_other m b x.1 hc hne x.2 hw k)⟩

end Sys2Proof.Machine
end

