-- ==== Sys2Proof/Laws/Sequencer.lean ====
section
/-! SUPPORT. What a core step, the granted core steps and the issue of a command can do (R100 to R103). -/

namespace Sys2Proof.Machine

/-- The three ways a core step goes on: a NOP or an empty list completes, a stage succeeds, a stage raises (R102). -/
theorem coreStep_next (num : NumRecord) (s t : State) (h : coreStep num s = .next t) :
    (s.opq = [] ∧ t = completeOk s) ∨
    (∃ st rest s', s.opq = st :: rest ∧ runStage num st s = .done s' ∧ t = afterStage rest s') ∨
    (∃ st rest e, s.opq = st :: rest ∧ stageError st s = some e ∧ t = failStage st e s) := by
  unfold coreStep at h
  split at h
  · rename_i hq
    cases h
    exact .inl ⟨hq, rfl⟩
  · rename_i st rest hq
    split at h
    · rename_i s' hs
      cases h
      exact .inr (.inl ⟨st, rest, s', hq, hs, rfl⟩)
    · rename_i e he
      cases h
      exact .inr (.inr ⟨st, rest, e, hq, (runStage_raised_iff num st s e).1 he, rfl⟩)
    · cases h

/-- A core step never refuses. -/
theorem coreStep_not_refused (num : NumRecord) (s : State) (r : Refusal) : coreStep num s ≠ .refused r := by
  intro h
  unfold coreStep at h
  split at h
  · cases h
  · split at h <;> cases h

/-- A core step faults only in the stage at the head of OPQ. -/
theorem coreStep_fault (num : NumRecord) (s : State) (f : Fault) (h : coreStep num s = .fault f) :
    ∃ st rest, s.opq = st :: rest ∧ runStage num st s = .fault f := by
  unfold coreStep at h
  split at h
  · cases h
  · rename_i st rest hq
    split at h
    · cases h
    · cases h
    · rename_i f' hf
      cases h
      exact ⟨st, rest, hq, hf⟩

/-- A core step of the schedule's owner: it changes no configuration, no table entry and none of the model's own fields. -/
theorem coreStep_frame (num : NumRecord) (s t : State) (h : coreStep num s = .next t) :
    t.cfg = s.cfg ∧ t.table = s.table ∧ t.turns = s.turns ∧ t.readData = s.readData ∧ t.draws = s.draws ∧
      t.intr.en = s.intr.en := by
  rcases coreStep_next num s t h with ⟨-, rfl⟩ | ⟨st, rest, s', -, hs, rfl⟩ | ⟨st, rest, e, -, -, rfl⟩
  · exact ⟨rfl, rfl, rfl, rfl, rfl, rfl⟩
  · obtain ⟨-, -, -, hi, -, hc, ht, -, hts, hr, hd⟩ := runStage_done_frame num st s s' hs
    cases rest <;> refine ⟨hc, ht, hts, hr, hd, ?_⟩ <;> simp [hi]
  · exact ⟨rfl, rfl, rfl, rfl, rfl, rfl⟩

@[simp] theorem andThen_next (s : State) (f : State → Result) : andThen (.next s) f = f s := rfl
@[simp] theorem andThen_fault (e : Fault) (f : State → Result) : andThen (.fault e) f = .fault e := rfl
@[simp] theorem andThen_refused (e : Refusal) (f : State → Result) : andThen (.refused e) f = .refused e := rfl

theorem andThen_eq_next (r : Result) (f : State → Result) (t : State) :
    andThen r f = .next t ↔ ∃ s, r = .next s ∧ f s = .next t := by
  cases r <;> simp [andThen]

/-- With no turn left nothing is granted. -/
@[simp] theorem grantedSteps_nil (num : NumRecord) (s : State) :
    grantedSteps num [] s = .next { s with turns := [] } := rfl

/-- A core turn granted to a busy core is a core step. -/
theorem grantedSteps_core (num : NumRecord) (ts : List Turn) (s : State) (h : s.status.busy = true) :
    grantedSteps num (.core :: ts) s = andThen (coreStep num s) (grantedSteps num ts) := by
  simp [grantedSteps, h]

/-- Once the command has completed, the rest of the schedule stands. -/
theorem grantedSteps_idle (num : NumRecord) (ts : List Turn) (s : State) (h : s.status.busy = false) :
    grantedSteps num ts s = .next { s with turns := ts } := by
  cases ts with
  | nil => rfl
  | cons t ts => cases t <;> simp [grantedSteps, h]

/-- An access that stands first in the schedule ends what is granted. -/
theorem grantedSteps_access (num : NumRecord) (t : Turn) (ts : List Turn) (s : State) (h : t ≠ .core) :
    grantedSteps num (t :: ts) s = .next { s with turns := t :: ts } := by
  cases t <;> simp [grantedSteps] at h ⊢

/-- What every core step keeps, and what does not look at the schedule, the granted steps keep. -/
theorem grantedSteps_induct (num : NumRecord) (P : State → Prop) (hturns : ∀ s ts, P s → P { s with turns := ts })
    (hstep : ∀ s t, P s → s.status.busy = true → coreStep num s = .next t → P t) (ts : List Turn) :
    ∀ s t, P s → grantedSteps num ts s = .next t → P t := by
  induction ts with
  | nil =>
    intro s t hs h
    cases h
    exact hturns s [] hs
  | cons x ts ih =>
    intro s t hs h
    cases hb : s.status.busy with
    | false =>
      rw [grantedSteps_idle num _ s hb] at h
      cases h
      exact hturns s _ hs
    | true =>
      by_cases hx : x = .core
      · subst hx
        rw [grantedSteps_core num ts s hb, andThen_eq_next] at h
        obtain ⟨s', h1, h2⟩ := h
        exact ih s' t (hstep s s' hs hb h1) h2
      · rw [grantedSteps_access num x ts s hx] at h
        cases h
        exact hturns s _ hs

/-- The two ways an issued command goes on (R100, R101). -/
theorem issue_next (num : NumRecord) (opc : BitVec 8) (stages : List Stage) (s t : State)
    (h : issue num opc stages s = .next t) :
    (s.status.busy = true ∧ t = hostConflict s) ∨
    (s.status.busy = false ∧ grantedSteps num s.turns (accept opc stages s) = .next t) := by
  unfold issue at h
  split at h
  · rename_i hb
    cases h
    exact .inl ⟨hb, rfl⟩
  · rename_i hb
    exact .inr ⟨by simpa using hb, h⟩

theorem issue_busy (num : NumRecord) (opc : BitVec 8) (stages : List Stage) (s : State) (h : s.status.busy = true) :
    issue num opc stages s = .next (hostConflict s) := by
  simp [issue, h]

theorem issue_idle (num : NumRecord) (opc : BitVec 8) (stages : List Stage) (s : State) (h : s.status.busy = false) :
    issue num opc stages s = grantedSteps num s.turns (accept opc stages s) := by
  simp [issue, h]

/-- What an acceptance, a core step and a HOST_CONFLICT keep, an issued command keeps. -/
theorem issue_induct (num : NumRecord) (P : State → Prop) (hturns : ∀ s ts, P s → P { s with turns := ts })
    (hstep : ∀ s t, P s → s.status.busy = true → coreStep num s = .next t → P t)
    (opc : BitVec 8) (stages : List Stage) (s t : State) (hconf : P (hostConflict s))
    (hacc : s.status.busy = false → P (accept opc stages s)) (h : issue num opc stages s = .next t) : P t := by
  rcases issue_next num opc stages s t h with ⟨-, rfl⟩ | ⟨hb, hg⟩
  · exact hconf
  · exact grantedSteps_induct num P hturns hstep _ _ _ (hacc hb) hg

/-- A one-stage command given one core turn: the stage's answer decides how the command ends (R102, R103). -/
theorem issue_single (num : NumRecord) (opc : BitVec 8) (st : Stage) (s : State) (ts : List Turn)
    (hb : s.status.busy = false) (ht : s.turns = .core :: ts) :
    issue num opc [st] s =
      match runStage num st (accept opc [st] s) with
      | .done s' => .next { completeOk s' with turns := ts }
      | .raised e => .next { failStage st e (accept opc [st] s) with turns := ts }
      | .fault f => .fault f := by
  have hstep : coreStep num (accept opc [st] s) =
      match runStage num st (accept opc [st] s) with
      | .done s' => .next (completeOk s')
      | .raised e => .next (failStage st e (accept opc [st] s))
      | .fault f => .fault f := rfl
  rw [issue_idle num opc _ s hb, ht, grantedSteps_core num ts _ rfl, hstep]
  cases runStage num st (accept opc [st] s) with
  | done s' => exact grantedSteps_idle num ts _ rfl
  | raised e => exact grantedSteps_idle num ts _ rfl
  | fault f => rfl

end Sys2Proof.Machine
end

