-- ==== Sys2Proof/Laws/Bus.lean ====
section
/-! SUPPORT. What a bus access, a turn and a step can do, said once each (R48, R49, R58, R100). -/

namespace Sys2Proof.Machine

/-! ### Reads -/

/-- A read changes at most BUS_ERR and the draw counter (R48). -/
theorem memRead_state (a : Addr) (s : State) :
    (memRead a s).2 = s ∨ ((memRead a s).2 = busError s ∧ busTarget a = none) ∨ (memRead a s).2 = (draw s).2 := by
  unfold memRead
  split
  · rename_i h
    exact .inr (.inl ⟨rfl, h⟩)
  · exact .inl rfl
  · exact .inl rfl
  · unfold readBufferWord
    split
    · exact .inr (.inr rfl)
    · split
      · exact .inl rfl
      · exact .inr (.inr rfl)

/-- What a read turn leaves alone (R48). -/
theorem hostRead_frame (a : Addr) (s : State) :
    (hostRead a s).valid = s.valid ∧ (hostRead a s).intr = s.intr ∧ (hostRead a s).errInfo = s.errInfo ∧
      (hostRead a s).cfg = s.cfg ∧ (hostRead a s).res = s.res ∧ (hostRead a s).table = s.table ∧
      (hostRead a s).mem = s.mem ∧ (hostRead a s).opq = s.opq ∧ (hostRead a s).turns = s.turns := by
  unfold hostRead
  rcases memRead_state a s with h | ⟨h, -⟩ | h <;> simp [h]

/-! ### Writes -/

theorem inputWrite_busy (f : State → State) (s : State) (h : s.status.busy = true) :
    inputWrite f s = hostConflict s := by
  simp [inputWrite, h]

theorem inputWrite_idle (f : State → State) (s : State) (h : s.status.busy = false) :
    inputWrite f s = invalidate (f s) := by
  simp [inputWrite, h]

/-- The two ways a CTRL write goes on: a command, or a word that is none (R100). -/
theorem ctrlWrite_next (w : Word) (s t : State) (h : ctrlWrite w s = .next t) :
    (∃ i, decodeWord w = .ok i ∧ exec i s = .next t) ∨ (∃ e, decodeWord w = .error e ∧ t = issueIllegal w s) := by
  unfold ctrlWrite at h
  split at h
  · rename_i i hi
    exact .inl ⟨i, hi, h⟩
  · rename_i e he
    cases h
    exact .inr ⟨e, he, rfl⟩

theorem ctrlWrite_ok (w : Word) (s : State) (i : Instr) (h : decodeWord w = .ok i) : ctrlWrite w s = exec i s := by
  simp [ctrlWrite, h]

theorem ctrlWrite_error (w : Word) (s : State) (e : DecodeError) (h : decodeWord w = .error e) :
    ctrlWrite w s = .next (issueIllegal w s) := by
  simp [ctrlWrite, h]

/-- The ways a bus write goes on (R49). -/
theorem memWrite_next (a : Addr) (v : Word) (s t : State) (h : memWrite a v s = .next t) :
    (busTarget a = none ∧ t = busError s) ∨
    (busTarget a = some (.reg .ctrl) ∧ ctrlWrite v s = .next t) ∨
    (∃ r, busTarget a = some (.reg r) ∧ r ≠ .ctrl ∧ t = regWrite r v s) ∨
    (∃ j f, busTarget a = some (.const j f) ∧ t = constWrite j f v s) ∨
    (∃ b k, busTarget a = some (.buf b k) ∧ t = bufferWrite b k v s) := by
  unfold memWrite at h
  split at h
  · rename_i ha
    cases h
    exact .inl ⟨ha, rfl⟩
  · rename_i ha
    exact .inr (.inl ⟨ha, h⟩)
  · rename_i r hr ha
    cases h
    exact .inr (.inr (.inl ⟨r, ha, fun e => hr e, rfl⟩))
  · rename_i j f ha
    cases h
    exact .inr (.inr (.inr (.inl ⟨j, f, ha, rfl⟩)))
  · rename_i b k ha
    cases h
    exact .inr (.inr (.inr (.inr ⟨b, k, ha, rfl⟩)))

@[simp] theorem busTarget_ctrlAddr : busTarget ctrlAddr = some (.reg .ctrl) := rfl

@[simp] theorem memWrite_ctrl (v : Word) (s : State) : memWrite ctrlAddr v s = ctrlWrite v s := rfl

/-- A register's offset names it (R18). -/
theorem busTarget_offset (a : Addr) (r : Reg) (h : a.toNat = r.offset) : busTarget a = some (.reg r) := by
  have e : a = BitVec.ofNat 20 r.offset := by
    apply BitVec.eq_of_toNat_eq
    rw [h]
    cases r <;> rfl
  subst e
  cases r <;> rfl

/-- A constellation word's address names it (R40). -/
theorem busTarget_const (j : Fin 16) (f : ConstField) :
    busTarget (BitVec.ofNat 20 (0x100 + 0x18 * j.val + f.offset)) = some (.const j f) := by
  cases f <;> revert j <;> decide +kernel

/-- An aligned address in a buffer's window names the word it is the address of (R47, R52). -/
theorem busTarget_buffer (a : Addr) (b : Buffer) (h8 : a.toNat % 8 = 0) (h1 : b.base ≤ a.toNat)
    (h2 : a.toNat < b.base + b.span) :
    busTarget a = some (.buf b ((a.toNat - b.base) / 8)) ∧ b.base + 8 * ((a.toNat - b.base) / 8) = a.toNat := by
  have hb : b.base % 8 = 0 := by cases b <;> rfl
  refine ⟨?_, by omega⟩
  have hs : a.toNat / 0x10000 = b.base / 0x10000 ∧ a.toNat % 0x10000 = a.toNat - b.base ∧
      a.toNat % 0x10000 < b.span ∧ 0x10000 ≤ a.toNat := by
    cases b <;> simp [Buffer.base, Buffer.span, Config.nMax, Buffer.entryBytes, Buffer.isComplex] at h1 h2 ⊢ <;> omega
  obtain ⟨s1, s2, s3, s4⟩ := hs
  have ho : Buffer.ofSlot (b.base / 0x10000) = some b := by cases b <;> rfl
  unfold busTarget
  dsimp only
  rw [if_neg (by omega), if_neg (by omega), if_neg (by omega), s1, ho]
  dsimp only
  rw [if_pos s3, s2]

/-! ### Commands -/

/-- The stages a command runs (R107). -/
def commandStages : Instr → List Stage
  | .nop => []
  | .dconv => [.dconv]
  | .filt => [.filt]
  | .decim => [.decim]
  | .sync => [.sync]
  | .demap => [.demap]
  | .pack => [.pack]
  | .run => [.dconv, .filt, .decim, .sync, .demap, .pack]
  | .sreset => []

/-- Every command but SRESET is issued with its opcode and its stages (R101, R107). -/
theorem exec_eq_issue (i : Instr) (h : i ≠ .sreset) (s : State) :
    exec i s = issue numHw ((encodeWord i).setWidth 8) (commandStages i) s := by
  cases i <;> first | rfl | exact absurd rfl h

theorem exec_sreset (s : State) : exec .sreset s = .next (softReset s) := rfl

/-! ### Turns and steps -/

/-- With no turn left the core has the step (R102; log 3). -/
theorem step_of_nil (s : State) (h : s.turns = []) : step s = coreTurn numHw s := by
  simp [step, nextTurn, h]

/-- A step takes the first turn of the schedule (R58). -/
theorem step_of_cons (s : State) (x : Turn) (ts : List Turn) (h : s.turns = x :: ts) :
    step s = takeTurn x { s with turns := ts } := by
  simp [step, nextTurn, h]

theorem coreTurn_busy (num : NumRecord) (s : State) (h : s.status.busy = true) :
    coreTurn num s = coreStep num s := by
  simp [coreTurn, h]

theorem coreTurn_idle (num : NumRecord) (s : State) (h : s.status.busy = false) : coreTurn num s = .next s := by
  simp [coreTurn, h]

/-- Every way a turn goes on. -/
theorem takeTurn_next (x : Turn) (s t : State) (h : takeTurn x s = .next t) :
    (x = .core ∧ coreTurn numHw s = .next t) ∨
    (∃ a, x = .read a ∧ t = hostRead a s) ∨
    (∃ a v, x = .write a v ∧ memWrite a v s = .next t) ∨
    (x = .reset ∧ t = powerOnReset s) := by
  cases x with
  | core => exact .inl ⟨rfl, h⟩
  | read a =>
    cases h
    exact .inr (.inl ⟨a, rfl, rfl⟩)
  | write a v => exact .inr (.inr (.inl ⟨a, v, rfl, h⟩))
  | reset =>
    cases h
    exact .inr (.inr (.inr ⟨rfl, rfl⟩))

/-- A property that does not look at the schedule and that each kind of turn keeps, every step keeps. -/
theorem step_induct (P : State → Prop) (hturns : ∀ s ts, P s → P { s with turns := ts })
    (hcore : ∀ s t, P s → s.status.busy = true → coreStep numHw s = .next t → P t)
    (hread : ∀ a s, P s → P (hostRead a s))
    (hbus : ∀ s, P s → P (busError s)) (hconf : ∀ s, P s → P (hostConflict s))
    (hacc : ∀ i s, i ≠ .sreset → P s → s.status.busy = false →
      P (accept ((encodeWord i).setWidth 8) (commandStages i) s))
    (hill : ∀ w s, P s → s.status.busy = false → P (illegalCommand w s))
    (hsreset : ∀ s, P s → P (softReset s))
    (hintr : ∀ v s, P s → P { s with intr := s.intr.written v })
    (hcfg : ∀ r v s, P s → s.status.busy = false → P (invalidate { s with cfg := writeConfig s.cfg v r }))
    (hconst : ∀ (j : Fin 16) f v s, P s → s.status.busy = false →
      P (invalidate { s with table := s.table.set j (writeConst s.table[j] v f) }))
    (hbuf : ∀ a b k v s, busTarget a = some (.buf b k) → b.hostWritable = true → P s → s.status.busy = false →
      P (invalidate { s with mem := writeWord s.mem (b.base + 8 * k) v }))
    (hreset : ∀ s, P s → P (powerOnReset s))
    (s t : State) (hs : P s) (h : step s = .next t) : P t := by
  have hinput : ∀ (f : State → State) s, P s → (s.status.busy = false → P (invalidate (f s))) →
      P (inputWrite f s) := by
    intro f s hs hf
    cases hb : s.status.busy with
    | true => rw [inputWrite_busy f s hb]; exact hconf s hs
    | false => rw [inputWrite_idle f s hb]; exact hf hb
  have hturn : ∀ s t, P s → coreTurn numHw s = .next t → P t := by
    intro s t hs h
    cases hb : s.status.busy with
    | true => exact hcore s t hs hb (by rwa [coreTurn_busy _ _ hb] at h)
    | false =>
      rw [coreTurn_idle _ _ hb] at h
      cases h
      exact hs
  have hexec : ∀ i s t, P s → exec i s = .next t → P t := by
    intro i s t hs h
    by_cases hi : i = .sreset
    · subst hi
      cases h
      exact hsreset s hs
    · rw [exec_eq_issue i hi] at h
      exact issue_induct numHw P hturns hcore _ _ s t (hconf s hs) (fun hb => hacc i s hi hs hb) h
  cases hts : s.turns with
  | nil =>
    rw [step_of_nil s hts] at h
    exact hturn s t hs h
  | cons x ts =>
    rw [step_of_cons s x ts hts] at h
    have hs' := hturns s ts hs
    rcases takeTurn_next x _ t h with ⟨-, h⟩ | ⟨a, -, rfl⟩ | ⟨a, v, -, h⟩ | ⟨-, rfl⟩
    · exact hturn _ t hs' h
    · exact hread a _ hs'
    · rcases memWrite_next a v _ t h with ⟨-, rfl⟩ | ⟨-, h⟩ | ⟨r, -, hr, rfl⟩ | ⟨j, f, -, rfl⟩ | ⟨b, k, hb, rfl⟩
      · exact hbus _ hs'
      · rcases ctrlWrite_next v _ t h with ⟨i, -, h⟩ | ⟨e, -, rfl⟩
        · exact hexec i _ t hs' h
        · unfold issueIllegal
          split
          · exact hconf _ hs'
          · rename_i hb
            exact hill v _ hs' (by simpa using hb)
      · unfold regWrite
        split
        · exact hbus _ hs'
        · split
          · exact hintr v _ hs'
          · exact hinput _ _ hs' (hcfg r v _ hs')
      · exact hinput _ _ hs' (hconst j f v _ hs')
      · unfold bufferWrite
        split
        · rename_i hw
          exact hinput _ _ hs' (hbuf a b k v _ hb hw hs')
        · exact hbus _ hs'
    · exact hreset _ hs'

/-! ### How a command is placed -/

/-- The step after `withFetchWord` is the CTRL write of that word (log 16). -/
theorem step_withFetchWord (s : State) (nbits w : Nat) :
    step (s.withFetchWord nbits w) = ctrlWrite (tableWord nbits w) s := by
  rfl

/-! ### Runs -/

/-- What a run of `k + 1` steps does, by the answer of its first step. Rewrite with it through `.trans`. -/
theorem coreRun_succ (k : Nat) (s : State) :
    Sys2Proof.core.run (k + 1) s = andThen (step s) (Sys2Proof.core.run k) := by
  have key : ∀ (M : Host.Core) (x : M.State),
      (∀ t, M.step x = .next t → M.run (k + 1) x = M.run k t) ∧
      (∀ e, M.step x = .fault e → M.run (k + 1) x = .fault e) ∧
      (∀ e, M.step x = .refused e → M.run (k + 1) x = .refused e) := by
    intro M x
    refine ⟨fun t h => ?_, fun e h => ?_, fun e h => ?_⟩ <;> simp only [Host.Core.run, h]
  obtain ⟨h1, h2, h3⟩ := key Sys2Proof.core s
  cases h : step s with
  | next t => exact h1 t h
  | fault e => exact h2 e h
  | refused e => exact h3 e h

end Sys2Proof.Machine
end

