-- ==== Sys2Proof/Laws/PerInstr.lean ====
section
/-! SUPPORT. Statements made of each command as syntax, one lemma a constructor. -/

namespace Sys2Proof.Laws

/-- The command's CTRL word passes both checks of the format: its reserved bits are zero and its opcode is one of R65's. -/
def EncodesWellFormed.Statement (i : Instr) : Prop := (cmdFields (encodeWord i)).wellFormed = true

theorem EncodesWellFormed.nop : EncodesWellFormed.Statement .nop := rfl
theorem EncodesWellFormed.dconv : EncodesWellFormed.Statement .dconv := rfl
theorem EncodesWellFormed.filt : EncodesWellFormed.Statement .filt := rfl
theorem EncodesWellFormed.decim : EncodesWellFormed.Statement .decim := rfl
theorem EncodesWellFormed.sync : EncodesWellFormed.Statement .sync := rfl
theorem EncodesWellFormed.demap : EncodesWellFormed.Statement .demap := rfl
theorem EncodesWellFormed.pack : EncodesWellFormed.Statement .pack := rfl
theorem EncodesWellFormed.run : EncodesWellFormed.Statement .run := rfl
theorem EncodesWellFormed.sreset : EncodesWellFormed.Statement .sreset := rfl

end Sys2Proof.Laws
end

