-- ==== Sys2Proof/Tests/Slice0.lean ====
section
/-! SUPPORT. Tests: ill-formed words, decoding, single commands against the vectors of spec/95_test_vectors.md, and for
each obligation with hypotheses a concrete case that meets them. -/

namespace Sys2Proof.Tests

open Sys2Proof Sys2Proof.Machine

-- The kernel evaluates these theorems one after the other: side by side they would each take a thread of their own.
set_option Elab.async false

/-! ### Helpers -/

/-- Words written at bus addresses. -/
def pokes (ps : List (Nat × Word)) : Memory := ps.foldl (fun m p => writeWord m p.1 p.2) []

/-- A small state: one sample and a preamble of one written, the result registers as for a stream of two symbols. -/
def demo (ts : List Turn) (valid : BitVec 6) : State :=
  { State.reset with
    valid := valid
    cfg := { ConfigRegs.default with n := 1#64, guard := 0#64, m := 1#64 }
    res := ⟨2#64, 0#64, 0#64, 0#64, 2#64, 8#64, 0#64⟩
    mem := pokes [(0x10000, 0x4000000000000000#64), (0x20000, 1#64), (0x20008, 2#64)]
    turns := ts }

/-- `demo` with the input of stage command `i` written, and one core turn. -/
def ready (i : Instr) (valid : BitVec 6) : State :=
  { demo [.core] valid with
    mem := pokes (match i with
      | .dconv => [(0x10000, 0x4000000000000000#64)]
      | .filt => [(0x30000, 3#64), (0x40000, 4#64)]
      | .decim => [(0x50000, 5#64), (0x60000, 6#64)]
      | .sync => [(0x70000, 7#64), (0x70008, 8#64), (0x70010, 9#64), (0x70018, 10#64), (0x20000, 1#64), (0x20008, 2#64)]
      | .demap => [(0x70000, 7#64), (0x70008, 8#64), (0x70010, 9#64), (0x70018, 10#64)]
      | .pack => [(0x90000, 0x4#64), (0x90008, 0x8#64)]
      | _ => []) }

/-- `demo` while a stage list runs. -/
def demoBusy (opq : List Stage) : State :=
  { demo [] 0b000000#6 with status := { Status.zero with busy := true }, opq := opq }

/-- The state after an outcome that goes on. -/
def after (r : Result) : State :=
  match r with
  | .next s => s
  | _ => State.reset

/-- The outcome goes on. -/
def goesOn (r : Result) : Bool :=
  match r with
  | .next _ => true
  | _ => false

theorem after_eq (r : Result) (h : goesOn r = true) : r = .next (after r) := by
  cases r <;> simp [goesOn, after] at h ⊢

/-- STATUS, ERR_INFO and VALID after a command. -/
def report (s : State) : Word × Word × BitVec 6 := (s.status.word, s.errInfo, s.valid)

/-! ### Ill-formed words (R64 to R66) -/

theorem test_reserved_bit_refused : (Cmd64.mk 1#56 0x01#8).wellFormed = false := by decide
theorem test_reserved_top_bit_refused : (Cmd64.mk (1#56 <<< 55) 0x0F#8).wellFormed = false := by decide
theorem test_undefined_opcode_08_refused : (Cmd64.mk 0#56 0x08#8).wellFormed = false := by decide
theorem test_undefined_opcode_10_refused : (Cmd64.mk 0#56 0x10#8).wellFormed = false := by decide
theorem test_legal_word_accepted : (Cmd64.mk 0#56 0x0F#8).wellFormed = true := by decide

/-! ### Decoding, each word written out from R65's table -/

theorem test_decode_nop : decodeWord 0x0000000000000000#64 = .ok .nop := by rfl
theorem test_decode_dconv : decodeWord 0x0000000000000001#64 = .ok .dconv := by rfl
theorem test_decode_filt : decodeWord 0x0000000000000002#64 = .ok .filt := by rfl
theorem test_decode_decim : decodeWord 0x0000000000000003#64 = .ok .decim := by rfl
theorem test_decode_sync : decodeWord 0x0000000000000004#64 = .ok .sync := by rfl
theorem test_decode_demap : decodeWord 0x0000000000000005#64 = .ok .demap := by rfl
theorem test_decode_pack : decodeWord 0x0000000000000006#64 = .ok .pack := by rfl
theorem test_decode_run : decodeWord 0x0000000000000007#64 = .ok .run := by rfl
theorem test_decode_sreset : decodeWord 0x000000000000000F#64 = .ok .sreset := by rfl
/-- The bytes of a word stand least significant first (R53). -/
theorem test_decode_bytes : decode [0x07#8, 0#8, 0#8, 0#8, 0#8, 0#8, 0#8, 0#8, 0xAA#8] = .ok (.run, [0xAA#8]) := by rfl
theorem test_decode_high_byte : decode [0x07#8, 0#8, 0#8, 0#8, 0#8, 0#8, 0#8, 1#8] = .error .reservedBitsSet := by rfl
theorem test_decode_undefined : decodeWord 0x08#64 = .error (.undefinedOpcode 0x08#8) := by rfl
theorem test_decode_short : decode [0x07#8] = .error .shortInput := by rfl

/-! ### One command each (spec/95_test_vectors.md) -/

/-- V-CT-1. -/
theorem test_nop : report (after (exec .nop { State.reset with turns := [.core] })) = (0x2#64, 0#64, 0#6) := by
  decide +kernel

/-- V-DC-5: quarter turns from a carrier whose product would wrap. -/
def fourSamples : State :=
  { demo [.core] 0b000000#6 with
    cfg := { ConfigRegs.default with n := 4#64, fcMhz := 0xFFFFFFFFFFFF9808#64 }
    mem := pokes [(0x10000, 0x4000000000000000#64), (0x10008, 0x4000000000000000#64), (0x10010, 0x4000000000000000#64),
      (0x10018, 0x4000000000000000#64)] }

theorem test_dconv_i : (List.range 4).map (realEntry (after (exec .dconv fourSamples)).mem .i) =
    [some 0x4000000000000000#64, some 0#64, some 0xC000000000000000#64, some 0#64] := by decide +kernel
theorem test_dconv_q : (List.range 4).map (realEntry (after (exec .dconv fourSamples)).mem .q) =
    [some 0#64, some 0x4000000000000000#64, some 0#64, some 0xC000000000000000#64] := by decide +kernel

/-- V-FI-6. -/
theorem test_filt_sequence : report (after (exec .filt { State.reset with turns := [.core] })) =
    (0x0202030C#64, 0#64, 0#6) := by decide +kernel
/-- V-FI-5: the boundary bins of the mask. -/
theorem test_filt_mask : [153, 154, 2846, 2847, 1500].map (keepBin ConfigRegs.default) =
    [true, false, false, true, false] := by decide +kernel

/-- V-DE-2: N = 8, DECIM = 3 keeps indices 0, 3, 6. -/
def eightFiltered : State :=
  { demo [.core] 0b000011#6 with
    cfg := { ConfigRegs.default with n := 8#64, decim := 3#64 }
    mem := writeWords (writeWords [] 0x50000 [0x10#64, 0x11#64, 0x12#64, 0x13#64, 0x14#64, 0x15#64, 0x16#64, 0x17#64])
      0x60000 [0x20#64, 0x21#64, 0x22#64, 0x23#64, 0x24#64, 0x25#64, 0x26#64, 0x27#64] }

theorem test_decim : (List.range 4).map (complexEntry (after (exec .decim eightFiltered)).mem .dec) =
    [some ⟨0x10#64, 0x20#64⟩, some ⟨0x13#64, 0x23#64⟩, some ⟨0x16#64, 0x26#64⟩, none] := by decide +kernel
/-- V-DE-4. -/
theorem test_decim_sequence : report (after (exec .decim { State.reset with turns := [.core] })) =
    (0x0303030C#64, 1#64, 0#6) := by decide +kernel

/-- V-SY-6: the M range is checked before V_DEC. -/
theorem test_sync_no_preamble : report (after (exec .sync { State.reset with turns := [.core] })) =
    (0x0404020C#64, 0x060#64, 0#6) := by decide +kernel
/-- V-SY-7: a huge guard does not wrap; one lag, the stream as long as the preamble (V-SY-3). -/
theorem test_sync_huge_guard :
    let s := ready .sync 0b000111#6
    let t := after (exec .sync { s with
      cfg := { s.cfg with guard := 0xFFFFFFFFFFFFFFFF#64 }, res := { s.res with lLen := 1#64 } })
    (t.res.startIndex, t.res.payloadStart, t.res.payloadLen, t.valid) = (0#64, 1#64, 0#64, 0b001111#6) := by
  decide +kernel

/-- V-DM-5: an empty payload. -/
theorem test_demap_empty :
    let s := demo [.core] 0b001111#6
    let t := after (exec .demap { s with res := { s.res with payloadLen := 0#64 } })
    (t.res.bitCount, t.valid, t.status.word) = (0#64, 0b011111#6, 0x00050002#64) := by decide +kernel
/-- V-DM-3: under `NUM_REF` a tie goes to the lowest index. -/
theorem test_demap_ties :
    nearestIndex numRef resetTable ⟨0x4008000000000000#64, 0#64⟩ = 13 ∧
    nearestIndex numRef resetTable ⟨0xC000000000000000#64, 0xC000000000000000#64⟩ = 0 := by decide +kernel

/-- V-PK-1: five codes give "HI" and drop the last four bits. -/
theorem test_pack :
    let s := demo [.core] 0b011111#6
    let t := after (exec .pack { s with
      res := { s.res with payloadLen := 5#64, bitCount := 20#64 }
      mem := writeWords [] 0x90000 [0x4#64, 0x8#64, 0x4#64, 0x9#64, 0xF#64] })
    ((List.range 3).map (realEntry t.mem .text), t.res.charCount) = ([some 0x48#64, some 0x49#64, none], 2#64) := by
  decide +kernel
/-- V-PK-5. -/
theorem test_pack_sequence : report (after (exec .pack { State.reset with turns := [.core] })) =
    (0x0606030C#64, 4#64, 0#6) := by decide +kernel

/-- V-ER-5, with one sample: three stages, then SYNC refuses M = 0. -/
theorem test_run_no_preamble :
    let s := demo [.core, .core, .core, .core] 0b000000#6
    report (after (exec .run { s with cfg := { s.cfg with m := 0#64 } })) = (0x0407020C#64, 0x060#64, 0x07#6) := by
  decide +kernel
/-- A whole RUN on one sample: STATUS DONE with LAST_OPC 7, all VALID bits. -/
theorem test_run : report (after (exec .run (demo (List.replicate 6 .core) 0b000000#6))) =
    (0x00070002#64, 0#64, 0x3F#6) := by decide +kernel

/-- V-SR-1: after an illegal command, SRESET. -/
theorem test_sreset :
    let s := after (step { State.reset with turns := [.write 0x00008#20 0x10#64] })
    (report s, report (after (exec .sreset s))) =
      ((0x1010010C#64, 0x10#64, 0#6), (0#64, 0#64, 0#6)) := by decide +kernel

/-- V-ER-2, V-ER-3: reserved bits make a word illegal. -/
theorem test_illegal_reserved :
    report (after (step { State.reset with turns := [.write 0x00008#20 0x101#64] })) =
      (0x0101010C#64, 0x101#64, 0#6) ∧
    report (after (step { State.reset with turns := [.write 0x00008#20 0x10F#64] })) =
      (0x0F0F010C#64, 0x10F#64, 0#6) := by decide +kernel

/-- V-BU-1: misaligned read, then a refused write. -/
theorem test_bus_errors :
    (after (step { State.reset with turns := [.read 0x00004#20] })).status.word = 0x10#64 ∧
    (after (step { State.reset with turns := [.write 0x30000#20 0#64] })).status.word = 0x10#64 := by decide +kernel

/-- V-IV-1: a configuration write clears VALID, an INTR write does not. -/
theorem test_invalidation :
    (after (step (demo [.write 0x00040#20 20000#64] 0b000001#6))).valid = 0#6 ∧
    (after (step (demo [.write 0x00020#20 0#64] 0b000001#6))).valid = 1#6 := by decide +kernel

/-- STATUS with every field set, bit by bit from R21. -/
theorem test_status_word :
    (Status.mk true true true true true true 0x04#8 0x07#8 0x05#8).word = 0x0507043F#64 := by decide

/-- The memory operations keep the canonical form on the demo memory. -/
theorem test_demo_memory : Memory.wf (demo [] 0#6).mem := by decide +kernel

/-! ### Witnesses: a concrete case that meets the hypotheses of each obligation that has any -/

theorem test_witness_EncodedCommandsDecodeBack : Instr.wellFormed .run = true := by decide +kernel

theorem test_witness_StepRunsTheCommandWritten :
    (demo [.write 0x00008#20 0x07#64, .core] 0b000000#6).turns = .write 0x00008#20 0x07#64 :: [.core] ∧
    decodeWord 0x07#64 = .ok .run := ⟨rfl, rfl⟩

theorem test_witness_IllegalWordCompletesAtOnceOrIsRefused :
    (∀ i : Fin 6, let w := ([0x100#64, 0x8000000000000000#64, 0x08#64, 0x0E#64, 0x10#64, 0xFF#64] : List Word).get i;
      w.extractLsb' 8 56 ≠ 0#56 ∨ (8 ≤ w.toNat % 256 ∧ w.toNat % 256 ≠ 15)) ∧
    (demo [.write 0x00008#20 0x10#64] 0#6).status.busy = false ∧ (demoBusy [.sync]).status.busy = true := by decide +kernel

theorem test_witness_BusyCoreTurnsCommandsAway :
    Instr.run ≠ .sreset ∧ (demoBusy [.sync]).status.busy = true := by decide +kernel

theorem test_witness_AcceptanceSetsBusyAndTheStageList :
    (Instr.run, pipeline) ∈ [(Instr.nop, ([] : List Stage)), (.dconv, [.dconv]), (.filt, [.filt]), (.decim, [.decim]),
      (.sync, [.sync]), (.demap, [.demap]), (.pack, [.pack]), (.run, pipeline)] ∧
    (demo [.read 0x00010#20] 0#6).status.busy = false ∧ ∀ ts, (demo [.read 0x00010#20] 0#6).turns ≠ .core :: ts :=
  ⟨by decide +kernel, rfl, fun ts h => by cases h⟩

theorem test_witness_NopCompletesAndChangesNothingElse :
    (demo [.core] 0b111111#6).status.busy = false ∧ (demo [.core] 0b111111#6).turns = .core :: [] := by decide +kernel

theorem test_witness_DconvMixesTheWaveform :
    let s := ready .dconv 0b000000#6
    s.status.busy = false ∧ s.turns = .core :: [] ∧ 1 ≤ s.cfg.n.toNat ∧ s.cfg.n.toNat ≤ 4096 ∧ s.cfg.fsHz ≠ 0#64 ∧
    realsWritten s.mem .sample s.cfg.n.toNat ∧
    realEntry s.mem .sample 0 = some 0x4000000000000000#64 := by decide +kernel

theorem test_witness_FiltFiltersIAndQ :
    let s := ready .filt 0b000001#6
    s.status.busy = false ∧ s.turns = .core :: [] ∧ 1 ≤ s.cfg.n.toNat ∧ s.cfg.n.toNat ≤ 4096 ∧ s.cfg.fsHz ≠ 0#64 ∧
    stageValid s.valid .dconv = true ∧ [3#64].length = s.cfg.n.toNat ∧ [4#64].length = s.cfg.n.toNat ∧
    ∀ n < s.cfg.n.toNat, realEntry s.mem .i n = [3#64][n]? ∧ realEntry s.mem .q n = [4#64][n]? := by decide +kernel

theorem test_witness_DecimKeepsEveryDthEntry :
    let s := ready .decim 0b000011#6
    s.status.busy = false ∧ s.turns = .core :: [] ∧ 1 ≤ s.cfg.n.toNat ∧ s.cfg.n.toNat ≤ 4096 ∧ s.cfg.decim ≠ 0#64 ∧
    stageValid s.valid .filt = true ∧ realsWritten s.mem .iF s.cfg.n.toNat ∧ realsWritten s.mem .qF s.cfg.n.toNat ∧
    realEntry s.mem .iF 0 = some 5#64 ∧ realEntry s.mem .qF 0 = some 6#64 := by decide +kernel

theorem test_witness_SyncFindsTheStartIndex :
    let s := ready .sync 0b000111#6
    let d : List C64 := [⟨7#64, 8#64⟩, ⟨9#64, 10#64⟩]
    let r : List C64 := [⟨1#64, 2#64⟩]
    s.status.busy = false ∧ s.turns = .core :: [] ∧ 1 ≤ s.cfg.m.toNat ∧ s.cfg.m.toNat ≤ 4096 ∧
    stageValid s.valid .decim = true ∧ s.cfg.m.toNat ≤ s.res.lLen.toNat ∧ d.length = s.res.lLen.toNat ∧
    (∀ k < d.length, complexEntry s.mem .dec k = d[k]?) ∧ r.length = s.cfg.m.toNat ∧
    ∀ k < r.length, complexEntry s.mem .pre k = r[k]? := by decide +kernel

theorem test_witness_DemapMapsEachSymbolToItsNearestCode :
    let s := ready .demap 0b001111#6
    s.status.busy = false ∧ s.turns = .core :: [] ∧ stageValid s.valid .sync = true ∧
    (∀ p < s.res.payloadLen.toNat, (complexEntry s.mem .dec (s.res.payloadStart.toNat + p)).isSome = true) ∧
    0 < s.res.payloadLen.toNat ∧ complexEntry s.mem .dec s.res.payloadStart.toNat = some ⟨7#64, 8#64⟩ := by
  decide +kernel

theorem test_witness_PackPacksCompleteGroups :
    let s := ready .pack 0b011111#6
    s.status.busy = false ∧ s.turns = .core :: [] ∧ stageValid s.valid .demap = true ∧
    [0x4#64, 0x8#64].length = s.res.bitCount.toNat / 4 ∧
    ∀ p < [0x4#64, 0x8#64].length, realEntry s.mem .code p = [0x4#64, 0x8#64][p]? := by decide +kernel

theorem test_witness_CharacterIsTwoCodes :
    let s := ready .pack 0b011111#6
    s.status.busy = false ∧ s.turns = .core :: [] ∧ exec .pack s = .next (after (exec .pack s)) ∧
    (after (exec .pack s)).status.done = true ∧ 0 < s.res.bitCount.toNat / 8 ∧
    realEntry s.mem .code (2 * 0) = some 0x4#64 ∧ realEntry s.mem .code (2 * 0 + 1) = some 0x8#64 :=
  ⟨rfl, rfl, after_eq _ (by decide +kernel), by decide +kernel, by decide +kernel, by decide +kernel,
    by decide +kernel⟩

theorem test_witness_IncompleteGroupIsDropped :
    let s := { ready .pack 0b011111#6 with res := ⟨2#64, 0#64, 0#64, 0#64, 1#64, 4#64, 0#64⟩ }
    s.status.busy = false ∧ s.turns = .core :: [] ∧ exec .pack s = .next (after (exec .pack s)) ∧
    (after (exec .pack s)).status.done = true ∧ s.res.bitCount.toNat = 8 * 0 + 4 ∧
    s.res.bitCount.toNat = 4 * s.res.payloadLen.toNat :=
  ⟨rfl, rfl, after_eq _ (by decide +kernel), by decide +kernel, by decide +kernel, by decide +kernel⟩

theorem test_witness_RunCompletesThePipeline :
    let s := demo (List.replicate 6 Turn.core ++ []) 0b000000#6
    s.status.busy = false ∧ s.turns = List.replicate 6 Turn.core ++ [] ∧ 1 ≤ s.cfg.n.toNat ∧ s.cfg.n.toNat ≤ 4096 ∧
    s.cfg.fsHz ≠ 0#64 ∧ s.cfg.decim ≠ 0#64 ∧ 1 ≤ s.cfg.m.toNat ∧
    s.cfg.m.toNat ≤ (s.cfg.n.toNat + s.cfg.decim.toNat - 1) / s.cfg.decim.toNat ∧
    realsWritten s.mem .sample s.cfg.n.toNat ∧ complexesWritten s.mem .pre s.cfg.m.toNat := by decide +kernel

/-- The state after stage command `i` run on `s` with one core turn. -/
def stageRun (i : Instr) (s : State) : State := after (exec i { s with turns := [.core] })

theorem test_witness_RunEqualsSixStageCommands :
    ∃ s s1 s2 s3 s4 s5 s6 : State, s.status.busy = false ∧ s.turns = List.replicate 6 Turn.core ++ [] ∧
      exec .dconv { s with turns := [.core] } = .next s1 ∧ s1.status.done = true ∧
      exec .filt { s1 with turns := [.core] } = .next s2 ∧ s2.status.done = true ∧
      exec .decim { s2 with turns := [.core] } = .next s3 ∧ s3.status.done = true ∧
      exec .sync { s3 with turns := [.core] } = .next s4 ∧ s4.status.done = true ∧
      exec .demap { s4 with turns := [.core] } = .next s5 ∧ s5.status.done = true ∧
      exec .pack { s5 with turns := [.core] } = .next s6 ∧ s6.status.done = true := by
  let s0 := demo (List.replicate 6 .core) 0b000000#6
  let s1 := stageRun .dconv s0
  let s2 := stageRun .filt s1
  let s3 := stageRun .decim s2
  let s4 := stageRun .sync s3
  let s5 := stageRun .demap s4
  let s6 := stageRun .pack s5
  have h : (goesOn (exec .dconv { s0 with turns := [.core] }) && s1.status.done &&
      goesOn (exec .filt { s1 with turns := [.core] }) && s2.status.done &&
      goesOn (exec .decim { s2 with turns := [.core] }) && s3.status.done &&
      goesOn (exec .sync { s3 with turns := [.core] }) && s4.status.done &&
      goesOn (exec .demap { s4 with turns := [.core] }) && s5.status.done &&
      goesOn (exec .pack { s5 with turns := [.core] }) && s6.status.done) = true := by decide +kernel
  simp only [Bool.and_eq_true] at h
  obtain ⟨⟨⟨⟨⟨⟨⟨⟨⟨⟨⟨g1, d1⟩, g2⟩, d2⟩, g3⟩, d3⟩, g4⟩, d4⟩, g5⟩, d5⟩, g6⟩, d6⟩ := h
  exact ⟨s0, s1, s2, s3, s4, s5, s6, rfl, rfl, after_eq _ g1, d1, after_eq _ g2, d2, after_eq _ g3, d3, after_eq _ g4, d4,
    after_eq _ g5, d5, after_eq _ g6, d6⟩

/-- Both clauses, and within the second a forgotten and a kept byte at the edges of a running DCONV's windows. -/
theorem test_witness_SresetRestoresTheResetState :
    (demo [] 0#6).status.busy = false ∧ (demoBusy pipeline).status.busy = true ∧
    (demoBusy pipeline).opq = Stage.dconv :: [.filt, .decim, .sync, .demap, .pack] ∧
    (Buffer.q ∈ Stage.outputs .dconv ∧ Buffer.q.base ≤ 0x47FFF ∧ 0x47FFF < Buffer.q.base + Buffer.q.span) ∧
    (∀ b ∈ Stage.outputs .dconv, ¬ (b.base ≤ 0x2FFFF ∧ 0x2FFFF < b.base + b.span)) := by decide +kernel

/-- One state for each of the thirteen clauses, N and M at the edges of their ranges. -/
theorem test_witness_StageCommandsReportTheFirstFailedCheck :
    let s := demo [.core] 0b111111#6
    let n := fun v : Word => { s with cfg := { s.cfg with n := v } }
    let m := fun v : Word => { s with cfg := { s.cfg with m := v } }
    let noFs := { s with cfg := { s.cfg with n := 4096#64, fsHz := 0#64 } }
    let noDecim := { s with cfg := { s.cfg with decim := 0#64 } }
    s.status.busy = false ∧ s.turns = .core :: [] ∧
    (n 0#64).cfg.n.toNat = 0 ∧ 4096 < (n 4097#64).cfg.n.toNat ∧
    ¬ (noFs.cfg.n.toNat = 0 ∨ 4096 < noFs.cfg.n.toNat) ∧ noFs.cfg.fsHz = 0#64 ∧
    (m 0#64).cfg.m.toNat = 0 ∧ 4096 < (m 4097#64).cfg.m.toNat ∧
    ¬ (noDecim.cfg.n.toNat = 0 ∨ 4096 < noDecim.cfg.n.toNat) ∧ noDecim.cfg.decim = 0#64 ∧
    ¬ ((m 3#64).cfg.m.toNat = 0 ∨ 4096 < (m 3#64).cfg.m.toNat) ∧ (m 3#64).valid.getLsbD 2 = true ∧
    (m 3#64).res.lLen.toNat < (m 3#64).cfg.m.toNat ∧
    (let u := demo [.core] 0b000000#6
     ¬ (u.cfg.n.toNat = 0 ∨ 4096 < u.cfg.n.toNat) ∧ ¬ (u.cfg.m.toNat = 0 ∨ 4096 < u.cfg.m.toNat) ∧
     u.cfg.fsHz ≠ 0#64 ∧ u.cfg.decim ≠ 0#64 ∧ ∀ b < 5, u.valid.getLsbD b = false) := by decide +kernel

/-- The first core step of a RUN whose next turn is a core turn and then a host read, the last core step of one with no
turn left, a stage that raises, a DCONV over unwritten samples, and a NOP. -/
theorem test_witness_CoreStepRunsTheStageAtTheHead :
    (let s := { demoBusy pipeline with turns := [.core, .read 0x00010#20] }
     s.status.busy = true ∧ s.turns = .core :: [.read 0x00010#20] ∧ s.opq = .dconv :: pipeline.tail ∧
     pipeline.tail ≠ [] ∧ ∃ u, exec .dconv (idleWithOneCoreTurn s) = .next u ∧ u.status.done = true) ∧
    (let s := { ready .pack 0b011111#6 with status := { Status.zero with busy := true }, turns := [], opq := [.pack] }
     s.status.busy = true ∧ s.turns = [] ∧ s.opq = .pack :: [] ∧
     ∃ u, exec .pack (idleWithOneCoreTurn s) = .next u ∧ u.status.done = true) ∧
    (let s := demoBusy [.filt, .decim, .sync, .demap, .pack]
     s.status.busy = true ∧ s.turns = [] ∧ s.opq = .filt :: [.decim, .sync, .demap, .pack] ∧
     stageError .filt s = some ⟨.sequence, 0#64⟩) ∧
    (let s := { demoBusy [.dconv] with mem := [] }
     s.status.busy = true ∧ s.turns = [] ∧ s.opq = .dconv :: [] ∧
     exec .dconv (idleWithOneCoreTurn s) = .fault (.unwrittenEntry .sample)) ∧
    (demoBusy []).status.busy = true ∧ (demoBusy []).turns = [] ∧ (demoBusy []).opq = [] :=
  ⟨⟨rfl, rfl, rfl, by decide, _, after_eq _ (by decide +kernel), by decide +kernel⟩,
    ⟨rfl, rfl, rfl, _, after_eq _ (by decide +kernel), by decide +kernel⟩, by decide +kernel, ⟨rfl, rfl, rfl, by rfl⟩,
    rfl, rfl, rfl⟩

theorem test_witness_RunReportsATooLongPreamble :
    let s := { demo (List.replicate 4 Turn.core ++ []) 0b000000#6 with
      cfg := { ConfigRegs.default with n := 1#64, m := 2#64 } }
    s.status.busy = false ∧ s.turns = List.replicate 4 Turn.core ++ [] ∧ 1 ≤ s.cfg.n.toNat ∧ s.cfg.n.toNat ≤ 4096 ∧
    s.cfg.fsHz ≠ 0#64 ∧ s.cfg.decim ≠ 0#64 ∧ s.cfg.m.toNat ≤ 4096 ∧
    (s.cfg.n.toNat + s.cfg.decim.toNat - 1) / s.cfg.decim.toNat < s.cfg.m.toNat ∧
    realsWritten s.mem .sample s.cfg.n.toNat := by decide +kernel

/-- For DCONV a waveform of none written; for SYNC a preamble of none written under a stream of one written symbol. -/
theorem test_witness_UnwrittenInputStopsTheStage :
    (let s := { demo [.core] 0b000000#6 with mem := [] }
     s.status.busy = false ∧ s.turns = .core :: [] ∧ 1 ≤ s.cfg.n.toNat ∧ s.cfg.n.toNat ≤ 4096 ∧ s.cfg.fsHz ≠ 0#64 ∧
     ∃ n < s.cfg.n.toNat, realEntry s.mem .sample n = none) ∧
    (let s := { demo [.core] 0b000100#6 with
       res := { State.reset.res with lLen := 1#64 }
       mem := storeComplex [] .dec [⟨0#64, 0#64⟩] }
     s.status.busy = false ∧ s.turns = .core :: [] ∧ 1 ≤ s.cfg.m.toNat ∧ s.cfg.m.toNat ≤ 4096 ∧
     stageValid s.valid .decim = true ∧ s.cfg.m.toNat ≤ s.res.lLen.toNat ∧
     complexesWritten s.mem .dec s.res.lLen.toNat ∧ ∃ m < s.cfg.m.toNat, complexEntry s.mem .pre m = none) :=
  ⟨⟨rfl, rfl, by decide +kernel, by decide +kernel, by decide +kernel, 0, by decide +kernel, by decide +kernel⟩,
    ⟨rfl, rfl, by decide +kernel, by decide +kernel, by decide +kernel, by decide +kernel, by decide +kernel, 0,
      by decide +kernel, by decide +kernel⟩⟩

theorem test_witness_NopFrame : ∃ t, exec .nop (ready .nop 0b111111#6) = .next t ∧ t.status.done = true :=
  ⟨_, after_eq _ (by decide +kernel), by decide +kernel⟩

theorem test_witness_DconvFrame : ∃ t, exec .dconv (ready .dconv 0b111111#6) = .next t ∧ t.status.done = true :=
  ⟨_, after_eq _ (by decide +kernel), by decide +kernel⟩

theorem test_witness_FiltFrame : ∃ t, exec .filt (ready .filt 0b111111#6) = .next t ∧ t.status.done = true :=
  ⟨_, after_eq _ (by decide +kernel), by decide +kernel⟩

theorem test_witness_DecimFrame : ∃ t, exec .decim (ready .decim 0b111111#6) = .next t ∧ t.status.done = true :=
  ⟨_, after_eq _ (by decide +kernel), by decide +kernel⟩

theorem test_witness_SyncFrame : ∃ t, exec .sync (ready .sync 0b111111#6) = .next t ∧ t.status.done = true :=
  ⟨_, after_eq _ (by decide +kernel), by decide +kernel⟩

theorem test_witness_DemapFrame : ∃ t, exec .demap (ready .demap 0b111111#6) = .next t ∧ t.status.done = true :=
  ⟨_, after_eq _ (by decide +kernel), by decide +kernel⟩

theorem test_witness_PackFrame : ∃ t, exec .pack (ready .pack 0b111111#6) = .next t ∧ t.status.done = true :=
  ⟨_, after_eq _ (by decide +kernel), by decide +kernel⟩

theorem test_witness_RunFrame :
    ∃ t, exec .run (demo (List.replicate 6 .core) 0b111111#6) = .next t ∧ t.status.done = true :=
  ⟨_, after_eq _ (by decide +kernel), by decide +kernel⟩

/-- The read of ID, and that of the last constellation entry's code. -/
theorem test_witness_RegisterReadsReturnTheRegister :
    (demo [.read 0x00000#20] 0#6).turns = .read 0x00000#20 :: [] ∧
    (demo [.read 0x00278#20] 0#6).turns = .read (BitVec.ofNat 20 (0x100 + 0x18 * (15 : Fin 16).val + 0x10)) :: [] := by
  decide +kernel

theorem test_witness_StatusReadHasEachFieldAtItsBits :
    (demo [.read 0x00010#20] 0#6).turns = .read 0x00010#20 :: [] := by decide +kernel

/-- Misaligned and unmapped addresses at the edges of the windows. -/
theorem test_witness_MisalignedAndUnmappedAccessesAreRefused :
    (∀ i : Fin 9, let a := ([0x00001#20, 0x000A8#20, 0x000F8#20, 0x00280#20, 0x0FFF8#20, 0x18000#20, 0x38000#20,
        0xA8000#20, 0xFFFF8#20] : List Addr).get i;
      a.toNat % 8 ≠ 0 ∨
      (∀ w ∈ [(0x00000, 0x000A7), (0x00100, 0x0027F), (0x10000, 0x17FFF), (0x20000, 0x2FFFF), (0x30000, 0x37FFF),
        (0x40000, 0x47FFF), (0x50000, 0x57FFF), (0x60000, 0x67FFF), (0x70000, 0x7FFFF), (0x80000, 0x87FFF),
        (0x90000, 0x97FFF), (0xA0000, 0xA7FFF)], a.toNat < w.1 ∨ w.2 < a.toNat)) ∧
    (demo [.read 0x00001#20] 0#6).turns = .read 0x00001#20 :: [] ∧
    (demo [.write 0x000A8#20 1#64] 0#6).turns = .write 0x000A8#20 1#64 :: [] := by decide +kernel

/-- A read-only register, and the first and last words of read-only windows. -/
theorem test_witness_ReadOnlyWritesAreRefused :
    (demo [.write 0x000A0#20 1#64] 0#6).turns = .write 0x000A0#20 1#64 :: [] ∧
    (∀ i : Fin 5, let a := ([0x000A0#20, 0x30000#20, 0xA7FF8#20, 0x70000#20, 0x7FFF8#20] : List Addr).get i; a.toNat % 8 = 0 ∧
      (a.toNat ∈ [0x000, 0x010, 0x018, 0x028, 0x070, 0x078, 0x080, 0x088, 0x090, 0x098, 0x0A0] ∨
      (∃ base ∈ [0x30000, 0x40000, 0x50000, 0x60000, 0x80000, 0x90000, 0xA0000],
        base ≤ a.toNat ∧ a.toNat < base + 0x8000) ∨ (0x70000 ≤ a.toNat ∧ a.toNat < 0x80000))) := by decide +kernel

theorem test_witness_ConfigurationWritesAreStored :
    let s := demo [.write 0x00060#20 4#64] 0b111111#6
    s.turns = .write 0x00060#20 4#64 :: [] ∧ s.status.busy = false := by decide +kernel

theorem test_witness_ConstellationWritesAreStored :
    let s := demo [.write 0x00278#20 0x17#64] 0b111111#6
    s.status.busy = false ∧
    s.turns = .write (BitVec.ofNat 20 (0x100 + 0x18 * (15 : Fin 16).val + 0x10)) 0x17#64 :: [] := by decide +kernel

/-- The first SAMPLE word and the last PRE word. -/
theorem test_witness_BufferWritesAreStored :
    (∀ i : Fin 2, let a := ([0x10000#20, 0x2FFF8#20] : List Addr).get i; a.toNat % 8 = 0 ∧
      ((0x10000 ≤ a.toNat ∧ a.toNat < 0x18000) ∨ (0x20000 ≤ a.toNat ∧ a.toNat < 0x30000))) ∧
    (demo [.write 0x10000#20 7#64] 0#6).turns = .write 0x10000#20 7#64 :: [] ∧
    (demo [.write 0x10000#20 7#64] 0#6).status.busy = false := by decide +kernel

/-- A CODE word of an idle core, and a SAMPLE word of a busy one. -/
theorem test_witness_WrittenBufferWordsReadBack :
    (let s := { ready .pack 0#6 with turns := [.read 0x90008#20] }
     s.turns = .read 0x90008#20 :: [] ∧ s.status.busy = false ∧ (0x90008#20).toNat % 8 = 0 ∧
     Buffer.code.base ≤ (0x90008#20).toNat ∧ (0x90008#20).toNat < Buffer.code.base + Buffer.code.span ∧
     readWord s.mem (0x90008#20).toNat = some 0x8#64) ∧
    (let s := { demoBusy [.sync] with mem := pokes [(0x10000, 7#64)], turns := [.read 0x10000#20] }
     s.turns = .read 0x10000#20 :: [] ∧ s.status.busy = true ∧ Buffer.sample.hostWritable = true ∧
     Buffer.sample.base ≤ (0x10000#20).toNat ∧ (0x10000#20).toNat < Buffer.sample.base + Buffer.sample.span ∧
     readWord s.mem (0x10000#20).toNat = some 7#64) := by decide +kernel

/-- An address at each end of the four ranges, and a busy core. -/
theorem test_witness_BusyCoreRefusesInputWrites :
    let s := { demoBusy [.sync] with turns := [.write 0x00030#20 5#64] }
    s.turns = .write 0x00030#20 5#64 :: [] ∧ s.status.busy = true ∧
    ∀ i : Fin 8, let a := ([0x00030#20, 0x00068#20, 0x00100#20, 0x00278#20, 0x10000#20, 0x17FF8#20, 0x20000#20,
        0x2FFF8#20] : List Addr).get i;
      a.toNat % 8 = 0 ∧
      ((0x30 ≤ a.toNat ∧ a.toNat ≤ 0x68) ∨ (0x100 ≤ a.toNat ∧ a.toNat < 0x280) ∨
        (0x10000 ≤ a.toNat ∧ a.toNat < 0x18000) ∨ (0x20000 ≤ a.toNat ∧ a.toNat < 0x30000)) := by decide +kernel

/-- A read-only buffer while BUSY, and a SAMPLE word nothing has written. -/
theorem test_witness_UnspecifiedBufferReadsDraw :
    (let s := { demoBusy [.sync] with turns := [.read 0x90000#20] }
     s.turns = .read 0x90000#20 :: [] ∧ s.status.busy = true ∧ Buffer.code.hostWritable = false ∧
     Buffer.code.base ≤ (0x90000#20).toNat ∧ (0x90000#20).toNat < Buffer.code.base + Buffer.code.span) ∧
    (let s := demo [.read 0x17FF8#20] 0#6
     s.turns = .read 0x17FF8#20 :: [] ∧ (0x17FF8#20).toNat % 8 = 0 ∧ Buffer.sample.base ≤ (0x17FF8#20).toNat ∧
     (0x17FF8#20).toNat < Buffer.sample.base + Buffer.sample.span ∧ readWord s.mem (0x17FF8#20).toNat = none) := by
  decide +kernel

theorem test_witness_IntrWriteSetsEnAndAcknowledges :
    (demo [.write 0x00020#20 3#64] 0#6).turns = .write 0x00020#20 3#64 :: [] := by decide +kernel

/-- Both ways: a core step of a busy core, and a CTRL write of an illegal word. -/
theorem test_witness_PendRisesOnlyAtACompletion :
    (∃ t, step (demoBusy []) = .next t ∧ (demoBusy []).intr.pend = false ∧ t.intr.pend = true) ∧
    (∃ t, step (demo [.write 0x00008#20 0x10#64] 0#6) = .next t ∧
      (demo [.write 0x00008#20 0x10#64] 0#6).intr.pend = false ∧ t.intr.pend = true) :=
  ⟨⟨_, after_eq _ (by decide +kernel), by decide +kernel, by decide +kernel⟩,
    ⟨_, after_eq _ (by decide +kernel), by decide +kernel, by decide +kernel⟩⟩

theorem test_witness_PlatformResetForgetsTheBuffers : (demo [.reset] 0b111111#6).turns = .reset :: [] := by decide +kernel

theorem test_witness_IdleCoreStaysStill :
    (demo [] 0b111111#6).status.busy = false ∧ (demo [] 0b111111#6).turns = [] ∧
    (demo [.core] 0b111111#6).turns = .core :: [] := by decide +kernel

theorem test_witness_StickyBitsStaySet :
    let s := { demo [.write 0x00008#20 0x00#64] 0#6 with status := ⟨false, false, true, true, true, true, 1#8, 0#8, 0#8⟩ }
    step s = .next (after (step s)) ∧
    (∀ ts, s.turns ≠ .write 0x00008#20 0x0F#64 :: ts ∧ s.turns ≠ .reset :: ts) ∧
    s.status.errSticky = true ∧ s.status.busErr = true ∧ s.status.hostConflict = true :=
  ⟨after_eq _ (by decide +kernel), fun ts =>
      ⟨fun h => absurd (show [Turn.write 0x00008#20 0x00#64] = .write 0x00008#20 0x0F#64 :: ts from h) (by simp),
        fun h => absurd (show [Turn.write 0x00008#20 0x00#64] = .reset :: ts from h) (by simp)⟩, rfl, rfl, rfl⟩

/-- A run with a core turn left in the schedule, and one that has ended with a core turn and a reset left. -/
theorem test_witness_AcceptedCommandsComplete :
    (let s := { demoBusy [.sync] with turns := [.core] }
     (∀ x ∈ s.turns, x = .core) ∧ s.status.busy = true ∧
     Sys2Proof.core.run (max 1 s.opq.length) s = .next (after (step s))) ∧
    (let s := demo [.core, .reset] 0#6
     runEnded s = true ∧ step s = .next (after (step s)) ∧ ∀ ts, s.turns ≠ .reset :: ts) :=
  ⟨⟨by decide, rfl, after_eq (step { demoBusy [.sync] with turns := [.core] }) (by decide +kernel)⟩,
    rfl, after_eq _ (by decide +kernel),
    fun ts h => absurd (show [Turn.core, .reset] = .reset :: ts from h) (by simp)⟩

/-- Reset with a RUN about to be written. -/
def runPending : State := { State.reset with turns := [.write 0x00008#20 0x07#64] }

theorem test_witness_EveryStepKeepsControlInv :
    ControlInv runPending ∧ step runPending = .next (after (step runPending)) := by
  refine ⟨⟨fun _ => rfl, .inr (by decide), by decide, by decide, by decide, by decide, by decide, ?_⟩,
    after_eq _ (by decide +kernel)⟩
  intro st st' _ h
  cases st <;> cases h

theorem test_witness_EveryStepKeepsMemoryInv :
    MemoryInv runPending ∧ step runPending = .next (after (step runPending)) :=
  ⟨⟨by decide +kernel, fun c hc => by cases hc⟩, after_eq _ (by decide +kernel)⟩

/-- One sample downconverted at phase 0, so that V_IQ is set over its products, and a FILT about to be written. -/
def mixedPending : State :=
  { demo [.write 0x00008#20 0x02#64] 0b000001#6 with
    mem := pokes [(0x10000, 0x4000000000000000#64), (0x30000, 0x4000000000000000#64), (0x40000, 0#64)] }

theorem test_witness_EveryStepKeepsCoverageInv :
    CoverageInv mixedPending ∧ step mixedPending = .next (after (step mixedPending)) := by
  refine ⟨⟨?_, fun _ => ?_, ?_, ?_, ?_, ?_, ?_⟩, after_eq _ (by decide +kernel)⟩
  · intro st h
    cases st
    · exact fun n hn => ⟨0x4000000000000000#64, by
        obtain rfl : n = 0 := by have : n < 1 := hn; omega
        decide +kernel⟩
    all_goals cases h
  · decide +kernel
  all_goals exact fun h => by cases h

/-- A DCONV with no sample written: the state keeps the invariants and the step faults. -/
theorem test_witness_OnlyHostFilledEntriesFault :
    let s := { demo [.write 0x00008#20 0x01#64, .core] 0b000000#6 with mem := [] }
    ControlInv s ∧ CoverageInv s ∧ step s = .fault (.unwrittenEntry .sample) := by
  refine ⟨⟨fun _ => rfl, .inr (by decide +kernel), by decide +kernel, by decide +kernel, by decide +kernel, by decide +kernel, by decide +kernel, ?_⟩,
    ⟨?_, ?_, ?_, ?_, ?_, ?_, ?_⟩, by rfl⟩
  · intro st st' _ h
    cases st <;> cases h
  · intro st h
    cases st <;> cases h
  all_goals exact fun h => by cases h

/-- A NaN; and two masks that agree below N and keep no bin, so that any two sequences agree on the kept bins. -/
theorem test_witness_HardwareNumericsMeetR14 :
    F64.isNaN 0x7FF8000000000000#64 = true ∧
    (∀ k < 1, (fun k => decide (1 ≤ k)) k = (fun _ => false) k) ∧
    (∀ k < 1, (fun k => decide (1 ≤ k)) k = true →
      hardware.parts.spectrumBin 1 [0#64] k = hardware.parts.spectrumBin 1 [0x3FF0000000000000#64] k) :=
  ⟨by decide +kernel, by decide, fun k hk h => absurd (of_decide_eq_true h) (by omega)⟩

theorem test_witness_IntegerPhaseIsExact : ConfigRegs.default.fsHz ≠ 0#64 := by decide +kernel

theorem test_witness_MaskIsSymmetricAndKeepsTheCutoffBin :
    1 ≤ 153 ∧ 153 < ConfigRegs.default.n.toNat ∧ 153 < 3000 := by decide +kernel

theorem test_witness_StartIndexIsTheFirstMaximum :
    [0x3FF0000000000000#64, 0x4000000000000000#64] ≠ [] ∧
    (∀ w ∈ [0x3FF0000000000000#64, 0x4000000000000000#64], F64.isNaN w = false) ∧
    F64.isNaN ([0x7FF8000000000000#64, 0x4000000000000000#64].getD 0 0#64) = true ∧
    F64.isNaN (argmaxFirst [0x7FF8000000000000#64, 0x4000000000000000#64]).2 = true :=
  ⟨by decide, List.forall_mem_cons.2 ⟨by decide, List.forall_mem_singleton.2 (by decide)⟩, by decide, by decide⟩

theorem test_witness_NearestIsTheFirstMinimum :
    C64.isFinite ⟨0x4008000000000000#64, 0#64⟩ = true ∧ ∀ k : Fin 16, C64.isFinite resetTable[k].point = true := by
  decide +kernel

/-- The reset table is finite and its points are pairwise distinct. -/
theorem test_witness_EachPointMapsToItself :
    (∀ k : Fin 16, C64.isFinite resetTable[k].point = true) ∧
    (∀ k l : Fin 16, k ≠ l → C64.toComplex resetTable[k].point ≠ C64.toComplex resetTable[l].point) := by
  refine ⟨by decide +kernel, fun k l h e => ?_⟩
  have key : ∀ k l : Fin 16, k ≠ l → (F64.val resetTable[k].point.re, F64.val resetTable[k].point.im) ≠
      (F64.val resetTable[l].point.re, F64.val resetTable[l].point.im) := by decide +kernel
  refine key k l h ?_
  have hr := congrArg Complex.re e
  have hi := congrArg Complex.im e
  simp only [C64.toComplex, Rat.cast_inj] at hr hi
  rw [hr, hi]

end Sys2Proof.Tests
end

section
/-! The machine's numerics meet R14 (b) to (e) and R94 (spec/00_scope.md, log 9 to log 12, log 26). Each requirement is
one lemma about every implementation R14 allows; the machine's own is one of them. -/

namespace Sys2Proof.Machine

/-- R14 (b), for every sample word (log 10): as `q` is positive, the four phases exclude one another. -/
theorem hwRecord_quarterTurnsExact (h : HardwareParts) : quarterTurnsExact (hwRecord h) fun _ => True := by
  intro s _ q hq
  refine ⟨by simp [hwRecord, hwMix], fun p hp => ?_, fun p hp => ?_, fun p hp => ?_⟩
  · have h0 : p ≠ 0 := by omega
    simp [hwRecord, hwMix, h0, hp]
  · have h0 : p ≠ 0 := by omega
    have h1 : 4 * p ≠ q := by omega
    simp [hwRecord, hwMix, h0, h1, hp]
  · have h0 : p ≠ 0 := by omega
    have h1 : 4 * p ≠ q := by omega
    have h2 : 2 * p ≠ q := by omega
    simp only [hwRecord, hwMix, if_neg h0, if_neg h1, if_neg h2, if_pos hp]

/-- R14 (d). -/
theorem hwRecord_closerIrreflexive (h : HardwareParts) : closerIrreflexive (hwRecord h) := by
  intro z a
  simp [hwRecord, hwCloser]

/-- R94: no point is nearer when a value has a NaN coordinate. -/
theorem hwCloser_of_hasNaN (h : HardwareParts) (z a b : C64)
    (hn : (C64.hasNaN z || C64.hasNaN a || C64.hasNaN b) = true) : hwCloser h z a b = false := by
  rw [hwCloser, if_pos hn]

/-- R14 (e): the bins passed on depend only on the mask's answers below `N` and on the bins it keeps. -/
theorem keptBins_congr (h : HardwareParts) (N : Nat) (x y : List F64) (keep keep' : Nat → Bool)
    (hmask : ∀ k < N, keep k = keep' k)
    (hbins : ∀ k < N, keep k = true → h.spectrumBin N x k = h.spectrumBin N y k) :
    keptBins h N x keep = keptBins h N y keep' := by
  have hkept : (List.range N).filter keep = (List.range N).filter keep' :=
    List.filter_congr fun k hk => hmask k (List.mem_range.1 hk)
  rw [keptBins, keptBins, ← hkept]
  refine List.map_congr_left fun k hk => ?_
  obtain ⟨hlt, hkeep⟩ := List.mem_filter.1 hk
  rw [hbins k (List.mem_range.1 hlt) hkeep]

/-- Settles O54: R14 (b), (d), (e) and R94 hold of every implementation's record by its definition, and R14 (c) is what
an implementation carries. -/
theorem hardwareNumericsMeetR14 : Obligations.HardwareNumericsMeetR14 := by
  refine ⟨hwRecord_quarterTurnsExact _, hardware.near, hwRecord_closerIrreflexive _, fun z a b hn => ?_,
    fun N x y keep keep' g n hmask hbins => ?_⟩
  · refine hwCloser_of_hasNaN _ z a b ?_
    simpa [C64.hasNaN, or_assoc] using hn
  · exact congrArg (hardware.parts.synthesize N · g n) (keptBins_congr _ N x y keep keep' hmask hbins)

end Sys2Proof.Machine
end

section
/-! `rnd` gives back every finite word from its number, `-0.0` as `+0.0`, and commutes with negation (spec/00_scope.md
R9); so `NUM_REF` gives the values R14 (b) asks for. -/

namespace Sys2Proof.Machine

/-! ### Rounding a number that is representable -/

section
variable {K : Type} [Field K] [LinearOrder K] [FloorRing K]

/-- Magnitude bits leave the sign bit clear. -/
theorem roundedBits_lt (x : K) : roundedBits x < 2 ^ 63 :=
  (min_le_right _ _).trans_lt (by norm_num)

variable [IsStrictOrderedRing K]

/-- An integer is its own rounding. -/
@[simp] theorem roundTiesEven_natCast (m : ℕ) : roundTiesEven (m : K) = m := by
  simp [roundTiesEven]

/-- The rounding's exponent for a significand `m` at biased exponent `e` is that exponent's own: the significand is
either normal, or subnormal at the least exponent. -/
theorem leadingExponent_scaled (m : ℕ) (e : ℤ) (hm : m < 2 ^ 53)
    (he : e = 1 ∨ 1 ≤ e ∧ 2 ^ 52 ≤ m) : leadingExponent ((m : K) * 2 ^ (e - 1075)) = e - 1023 := by
  have h2 : (0 : K) < 2 ^ (e - 1075) := by positivity
  have hsplit (j : ℕ) : (2 : K) ^ (e - 1075 + j) = (2 : K) ^ j * 2 ^ (e - 1075) := by
    rw [zpow_add₀ two_ne_zero, zpow_natCast, mul_comm]
  by_cases h0 : m = 0
  · have : e = 1 := by omega
    simp [leadingExponent, h0, this]
  have hx : (0 : K) < m * 2 ^ (e - 1075) := by positivity
  have hupper : Int.log 2 ((m : K) * 2 ^ (e - 1075)) < e - 1075 + (53 : ℕ) := by
    rw [← Int.lt_zpow_iff_log_lt one_lt_two hx, Nat.cast_ofNat, hsplit]
    exact mul_lt_mul_of_pos_right (by exact_mod_cast hm) h2
  rw [leadingExponent, if_neg hx.ne']
  obtain rfl | ⟨h1, hnormal⟩ := he
  · omega
  · have hlower : e - 1075 + (52 : ℕ) ≤ Int.log 2 ((m : K) * 2 ^ (e - 1075)) := by
      rw [← Int.zpow_le_iff_le_log one_lt_two hx, Nat.cast_ofNat, hsplit]
      exact mul_le_mul_of_nonneg_right (by exact_mod_cast hnormal) h2.le
    omega

/-- The magnitude bits of a significand `m` at biased exponent `e`, below infinity. -/
theorem roundedBits_scaled (m e : ℕ) (hm : m < 2 ^ 53)
    (he : e = 1 ∨ 1 ≤ e ∧ 2 ^ 52 ≤ m) (hfin : e < 0x7FF) :
    roundedBits ((m : K) * 2 ^ ((e : ℤ) - 1075)) = (e - 1) * 2 ^ 52 + m := by
  have hexp : ((e : ℤ) - 1023 + 1022).toNat = e - 1 := by omega
  have hulp : (e : ℤ) - 1023 - 52 = e - 1075 := by ring
  rw [roundedBits, leadingExponent_scaled m e hm (by omega)]
  simp only [hexp, hulp]
  rw [mul_div_cancel_right₀ _ (by positivity), roundTiesEven_natCast]
  omega

@[simp] theorem roundedBits_zero : roundedBits (0 : K) = 0 := by
  simp [roundedBits, leadingExponent, roundTiesEven]

/-! ### The sign of a rounded number -/

@[simp] theorem rnd_zero : rnd (0 : K) = 0#64 := by simp [rnd]

/-- The sign word `-0.0` has bit 63 set and no other. -/
theorem getLsbD_signBit (i : ℕ) : (0x8000000000000000#64).getLsbD i = decide (i = 63) := by
  rw [show 0x8000000000000000#64 = BitVec.twoPow 64 63 by decide, BitVec.getLsbD_twoPow]
  simp [eq_comm]

/-- Setting a clear sign bit flips it. -/
theorem signBit_or_ofNat (b : ℕ) (hb : b < 2 ^ 63) :
    0x8000000000000000#64 ||| BitVec.ofNat 64 b = BitVec.ofNat 64 b ^^^ 0x8000000000000000#64 := by
  have hclear : b.testBit 63 = false := Nat.testBit_lt_two_pow hb
  refine BitVec.eq_of_getLsbD_eq fun i _ => ?_
  rw [BitVec.getLsbD_or, BitVec.getLsbD_xor, getLsbD_signBit, BitVec.getLsbD_ofNat]
  by_cases hi : i = 63
  · simp [hi, hclear]
  · simp [hi]

/-- Numbers below the words' bound are told apart by their words. -/
theorem ofNat_eq_ofNat_iff (b c : ℕ) (hb : b < 2 ^ 64) (hc : c < 2 ^ 64) :
    BitVec.ofNat 64 b = BitVec.ofNat 64 c ↔ b = c := by
  rw [← BitVec.toNat_inj, BitVec.toNat_ofNat, BitVec.toNat_ofNat, Nat.mod_eq_of_lt hb, Nat.mod_eq_of_lt hc]

/-- R9: rounding to nearest, ties to even, treats the two signs alike. -/
theorem rnd_neg (v : K) : rnd (-v) = negated (rnd v) := by
  have hlt := roundedBits_lt |v|
  have hor := signBit_or_ofNat _ hlt
  by_cases hb : roundedBits |v| = 0
  · simp [rnd, negated, hb]
  have hzero : BitVec.ofNat 64 (roundedBits |v|) ≠ 0#64 := by
    rw [Ne, ofNat_eq_ofNat_iff _ _ (by omega) (by omega)]
    exact hb
  have hsign : BitVec.ofNat 64 (roundedBits |v|) ≠ 0x8000000000000000#64 := by
    rw [Ne, ofNat_eq_ofNat_iff _ _ (by omega) (by omega)]
    omega
  obtain hneg | rfl | hpos := lt_trichotomy v 0
  · simp [rnd, negated, hb, hneg, hneg.not_gt, hor, hsign]
  · simp at hb
  · simp [rnd, negated, hb, hpos, hpos.not_gt, hor, hzero]

end

/-! ### The number of a word -/

/-- A word's number by a significand `m` and a biased exponent `e`, the least one taken for zeros and subnormals too
(R9). -/
theorem F64.val_eq_scaled (w : F64) : ∃ m e : ℕ, m < 2 ^ 53 ∧ (e = 1 ∨ 1 ≤ e ∧ 2 ^ 52 ≤ m) ∧
    (F64.isFinite w = true → e < 0x7FF) ∧ F64.magnitude w = (e - 1) * 2 ^ 52 + m ∧
    F64.val w = if w.getLsbD 63 then -((m : ℚ) * 2 ^ ((e : ℤ) - 1075)) else (m : ℚ) * 2 ^ ((e : ℤ) - 1075) := by
  have hf : (w.extractLsb' 0 52).toNat < 2 ^ 52 := BitVec.isLt _
  have hmag : F64.magnitude w = (w.extractLsb' 52 11).toNat * 2 ^ 52 + (w.extractLsb' 0 52).toNat := by
    simp only [F64.magnitude, BitVec.extractLsb'_toNat, Nat.shiftRight_eq_div_pow]
    omega
  have hfinite : F64.isFinite w = true → (w.extractLsb' 52 11).toNat < 0x7FF := by
    have hlt : (w.extractLsb' 52 11).toNat < 2 ^ 11 := BitVec.isLt _
    have hne : F64.isFinite w = true → (w.extractLsb' 52 11).toNat ≠ 0x7FF := by
      simp [F64.isFinite, F64.special, ← BitVec.toNat_inj]
    intro h
    have := hne h
    omega
  rw [hmag, F64.val]
  generalize (w.extractLsb' 52 11).toNat = E at hfinite
  generalize (w.extractLsb' 0 52).toNat = f at hf
  by_cases he : E = 0
  · refine ⟨f, 1, by omega, .inl rfl, fun _ => by norm_num, by omega, ?_⟩
    simp only [he, if_true]
    norm_num
  · refine ⟨2 ^ 52 + f, E, by omega, .inr (by omega), hfinite, by omega, ?_⟩
    simp only [he, if_false]
    push_cast
    rfl

/-- A word is its magnitude bits under its sign bit. -/
theorem F64.eq_sign_magnitude (w : F64) :
    w = if w.getLsbD 63 then 0x8000000000000000#64 ||| BitVec.ofNat 64 (F64.magnitude w)
      else BitVec.ofNat 64 (F64.magnitude w) := by
  have hbits (i : ℕ) : (BitVec.ofNat 64 (F64.magnitude w)).getLsbD i = (decide (i < 63) && w.getLsbD i) := by
    rw [F64.magnitude, BitVec.ofNat_toNat, BitVec.getLsbD_setWidth, BitVec.getLsbD_extractLsb']
    by_cases hi : i < 63
    · simp [hi, show i < 64 by omega]
    · simp [hi]
  refine BitVec.eq_of_getLsbD_eq fun i hi => ?_
  have hi' : i < 63 ↔ i ≠ 63 := by omega
  by_cases h63 : i = 63
  · subst h63
    split <;> simp_all [-BitVec.getLsbD_eq_getElem, getLsbD_signBit]
  · split <;> simp [-BitVec.getLsbD_eq_getElem, hbits, getLsbD_signBit, h63, hi']

/-- A word's number is negative when its sign bit is set and it is not `-0.0`. -/
theorem F64.val_lt_zero_iff (w : F64) : F64.val w < 0 ↔ w.getLsbD 63 = true ∧ F64.magnitude w ≠ 0 := by
  obtain ⟨m, e, -, he, -, hmag, hval⟩ := F64.val_eq_scaled w
  have hm : F64.magnitude w = 0 ↔ m = 0 := by omega
  have h2 : (0 : ℚ) < 2 ^ ((e : ℤ) - 1075) := by positivity
  rw [hval, Ne, hm]
  cases hs : w.getLsbD 63
  · simpa using by positivity
  · simp [h2, Nat.pos_iff_ne_zero]

section
variable {K : Type} [Field K] [LinearOrder K] [FloorRing K] [IsStrictOrderedRing K]

/-- A finite word's number rounds to the word's own magnitude bits. -/
theorem roundedBits_abs_val (w : F64) (hfin : F64.isFinite w = true) :
    roundedBits |(F64.val w : K)| = F64.magnitude w := by
  obtain ⟨m, e, hm, he, hlt, hmag, hval⟩ := F64.val_eq_scaled w
  have habs : |(F64.val w : K)| = (m : K) * 2 ^ ((e : ℤ) - 1075) := by
    have h0 : (0 : K) ≤ (m : K) * 2 ^ ((e : ℤ) - 1075) := by positivity
    cases hs : w[63] <;> simp [hval, hs, abs_of_nonneg h0]
  rw [habs, roundedBits_scaled m e hm he (hlt hfin), hmag]

/-- R9, R14 (b): the word nearest to a finite word's number is that word, a zero being `+0.0`. -/
theorem rnd_val (w : F64) (hfin : F64.isFinite w = true) : rnd (F64.val w : K) = noNegZero w := by
  have hword := F64.eq_sign_magnitude w
  have hneg : (F64.val w : K) < 0 ↔ w.getLsbD 63 = true ∧ F64.magnitude w ≠ 0 := by
    rw [← F64.val_lt_zero_iff]
    exact_mod_cast Iff.rfl
  rw [rnd, roundedBits_abs_val w hfin]
  by_cases h0 : F64.magnitude w = 0
  · have hzero : noNegZero w = 0#64 := by
      rw [h0] at hword
      rw [noNegZero, hword]
      split <;> rfl
    simp [h0, hzero]
  · have hw : w ≠ 0x8000000000000000#64 := by
      rintro rfl
      exact h0 (by decide)
    simp only [h0, hneg, noNegZero, hw, if_false, ne_eq, not_false_eq_true, and_true]
    exact hword.symm

end

/-! ### `NUM_REF` at the quarter turns -/

/-- The angle of a phase `p` over `q` that equals `a` over `b` of a turn. -/
theorem turn_eq (p q a b : ℕ) (hq : 0 < q) (hb : 0 < b) (h : b * p = a * q) :
    2 * Real.pi * p / q = 2 * Real.pi * (a / b : ℝ) := by
  have h' : (b : ℝ) * p = a * q := by exact_mod_cast h
  field_simp
  linarith

/-- R14 (b), its last sentence. -/
theorem numRef_quarterTurnsExact : quarterTurnsExact numRef fun s => F64.isFinite s = true := by
  intro s hs q hq
  have hpos : rnd (F64.val s : ℝ) = noNegZero s := rnd_val s hs
  have hneg : rnd (-(F64.val s : ℝ)) = negated (noNegZero s) := by rw [rnd_neg, hpos]
  refine ⟨by simp [numRef, refMix, hpos], fun p hp => ?_, fun p hp => ?_, fun p hp => ?_⟩
  · have hturn : 2 * Real.pi * p / q = Real.pi / 2 := by
      rw [turn_eq p q 1 4 hq (by norm_num) (by omega)]
      push_cast
      ring
    simp [numRef, refMix, hturn, hpos]
  · have hturn : 2 * Real.pi * p / q = Real.pi := by
      rw [turn_eq p q 1 2 hq (by norm_num) (by omega)]
      push_cast
      ring
    simp [numRef, refMix, hturn, hneg]
  · have hturn : 2 * Real.pi * p / q = Real.pi / 2 + Real.pi := by
      rw [turn_eq p q 3 4 hq (by norm_num) hp]
      push_cast
      ring
    simp [numRef, refMix, hturn, hneg, Real.cos_add_pi, Real.sin_add_pi]

/-- R14 (d): a distance is not less than itself. -/
theorem numRef_closerIrreflexive : closerIrreflexive numRef := fun _ _ =>
  decide_eq_false (lt_irrefl _)

/-- Settles O55: at a quarter turn one of cosine and sine is 0 and the other 1 or -1, so `NUM_REF` rounds the sample's
number, its negation or 0. -/
theorem referenceNumericsMeetR14 : Obligations.ReferenceNumericsMeetR14 :=
  ⟨numRef_quarterTurnsExact, numRef_closerIrreflexive⟩

end Sys2Proof.Machine
end

section
/-! The host port, access by access: what a bus read or write of a register, a CONST word or a read-only word does to an
otherwise arbitrary state (spec/10_state.md R17 to R40; spec/20_memory.md R48, R49, R51, R56). -/

namespace Sys2Proof.Machine

/-! ### Reads -/

/-- R48: a read of a register returns its word and changes nothing else. -/
theorem step_read_reg (s : State) (a : Addr) (r : Reg) (ts : List Turn) (ht : s.turns = .read a :: ts)
    (ha : a.toNat = r.offset) : step s = .next { s with turns := ts, readData := readReg s r } := by
  rw [step_of_cons s _ ts ht, takeTurn, hostRead, memRead, busTarget_offset a r ha]
  cases r <;> rfl

/-- R40, R48: a read of a CONST word returns it and changes nothing else. -/
theorem step_read_const (s : State) (j : Fin 16) (f : ConstField) (ts : List Turn)
    (ht : s.turns = .read (BitVec.ofNat 20 (0x100 + 0x18 * j.val + f.offset)) :: ts) :
    step s = .next { s with turns := ts, readData := readConst s.table[j] f } := by
  rw [step_of_cons s _ ts ht, takeTurn, hostRead, memRead, busTarget_const j f]

theorem Reg.toNat_offset (r : Reg) : (BitVec.ofNat 20 r.offset).toNat = r.offset := by
  cases r <;> rfl

/-- Settles O33: the words listed are what the registers at those addresses, and the fields at those offsets,
read as. -/
theorem registerReadsReturnTheRegister : Obligations.RegisterReadsReturnTheRegister := by
  refine ⟨fun s a v ts ht hav => ?_, fun s j off v ts ht hov => ?_⟩
  · obtain ⟨r, -, hr⟩ := List.mem_map.1 (show (a, v) ∈
      [Reg.id, .ctrl, .valid, .intr, .errInfo, .n, .fsHz, .fcMhz, .cutoffMhz, .decim, .guard, .m, .gain, .lLen,
        .startIndex, .peakPower, .payloadStart, .payloadLen, .bitCount, .charCount].map
        fun r => (BitVec.ofNat 20 r.offset, readReg s r) from hav)
    obtain ⟨rfl, rfl⟩ := Prod.mk.inj hr
    exact step_read_reg s _ r ts ht r.toNat_offset
  · have hcode : 0#60 ++ s.table[j].code = readConst s.table[j] .code :=
      (BitVec.setWidth_eq_append (by decide)).symm
    rw [hcode] at hov
    obtain ⟨f, -, hf⟩ := List.mem_map.1 (show (off, v) ∈
      [ConstField.re, .im, .code].map fun f => (f.offset, readConst s.table[j] f) from hov)
    obtain ⟨rfl, rfl⟩ := Prod.mk.inj hf
    exact step_read_const s j f ts ht

/-- R21: the flags of STATUS at bits 5:0. -/
theorem Status.word_flags (s : Status) :
    s.word.getLsbD 0 = s.busy ∧ s.word.getLsbD 1 = s.done ∧ s.word.getLsbD 2 = s.err ∧
      s.word.getLsbD 3 = s.errSticky ∧ s.word.getLsbD 4 = s.busErr ∧ s.word.getLsbD 5 = s.hostConflict := by
  simp [Status.word, flagBit, BitVec.getLsbD_append, -BitVec.getLsbD_eq_getElem, -Nat.reduceAdd]

/-- R21: the fields of STATUS above its flags, the res0 bits among them. -/
theorem Status.word_fields (s : Status) :
    s.word.extractLsb' 6 2 = 0#2 ∧ s.word.extractLsb' 8 8 = s.errCode ∧ s.word.extractLsb' 16 8 = s.lastOpc ∧
      s.word.extractLsb' 24 8 = s.failOpc ∧ s.word.extractLsb' 32 32 = 0#32 := by
  simp [Status.word, BitVec.extractLsb'_append_eq_of_le, BitVec.extractLsb'_append_eq_of_add_le, -Nat.reduceAdd]

/-- Settles O34. -/
theorem statusReadHasEachFieldAtItsBits : Obligations.StatusReadHasEachFieldAtItsBits := by
  intro s ts ht
  obtain ⟨h0, h1, h2, h3, h4, h5⟩ := s.status.word_flags
  exact ⟨s.status.word, step_read_reg s _ .status ts ht rfl, h0, h1, h2, h3, h4, h5, s.status.word_fields⟩

/-! ### Writes -/

/-- R49: a write to a register other than CTRL. -/
theorem step_write_reg (s : State) (a : Addr) (v : Word) (r : Reg) (ts : List Turn) (ht : s.turns = .write a v :: ts)
    (ha : a.toNat = r.offset) (hr : r ≠ .ctrl) : step s = .next (regWrite r v { s with turns := ts }) := by
  rw [step_of_cons s _ ts ht, takeTurn, memWrite, busTarget_offset a r ha]
  cases r <;> first | rfl | exact absurd rfl hr

theorem regWrite_readOnly (r : Reg) (v : Word) (s : State) (h : r.readOnly = true) : regWrite r v s = busError s := by
  rw [regWrite, if_pos h]

theorem bufferWrite_readOnly (b : Buffer) (k : Nat) (v : Word) (s : State) (h : b.hostWritable = false) :
    bufferWrite b k v s = busError s := by
  simp [bufferWrite, h]

/-- R51: a write to a read-only register sets BUS_ERR. -/
theorem step_write_readOnly_reg (s : State) (a : Addr) (v : Word) (r : Reg) (ts : List Turn)
    (ht : s.turns = .write a v :: ts) (ha : a.toNat = r.offset) (hr : r.readOnly = true) :
    step s = .next (busError { s with turns := ts }) := by
  rw [step_write_reg s a v r ts ht ha (by rintro rfl; cases hr), regWrite_readOnly r v _ hr]

/-- R51: a write to a word of a read-only buffer sets BUS_ERR. -/
theorem step_write_readOnly_buffer (s : State) (a : Addr) (v : Word) (b : Buffer) (ts : List Turn)
    (ht : s.turns = .write a v :: ts) (h8 : a.toNat % 8 = 0) (hb : b.hostWritable = false)
    (hlo : b.base ≤ a.toNat) (hhi : a.toNat < b.base + b.span) :
    step s = .next (busError { s with turns := ts }) := by
  rw [step_of_cons s _ ts ht, takeTurn, memWrite, (busTarget_buffer a b h8 hlo hhi).1]
  exact congrArg _ (bufferWrite_readOnly b _ v _ hb)

/-- Settles O36: each address of the list is a read-only register's offset, each range a read-only buffer's window. -/
theorem readOnlyWritesAreRefused : Obligations.ReadOnlyWritesAreRefused := by
  intro s a v ts ht h8 ha
  have hbuf : ∀ b : Buffer, b.hostWritable = false → b.base ≤ a.toNat → a.toNat < b.base + b.span →
      step s = .next (busError { s with turns := ts }) :=
    fun b hb hlo hhi => step_write_readOnly_buffer s a v b ts ht h8 hb hlo hhi
  rcases ha with ha | ⟨base, hbase, hlo, hhi⟩ | ⟨hlo, hhi⟩
  · obtain ⟨r, hr, hoff⟩ := List.mem_map.1 (show a.toNat ∈
      [Reg.id, .status, .valid, .errInfo, .lLen, .startIndex, .peakPower, .payloadStart, .payloadLen, .bitCount,
        .charCount].map Reg.offset from ha)
    have hro : r.readOnly = true := by clear hoff; revert r; decide
    exact step_write_readOnly_reg s a v r ts ht hoff.symm hro
  · obtain ⟨b, hb, rfl⟩ := List.mem_map.1 (show base ∈
      [Buffer.i, .q, .iF, .qF, .corr, .code, .text].map Buffer.base from hbase)
    have hro : b.hostWritable = false ∧ b.span = 0x8000 := by clear hbase hlo hhi; revert b; decide
    exact hbuf b hro.1 hlo (by rw [hro.2]; exact hhi)
  · exact hbuf .dec rfl hlo hhi

/-- R40, R49, R56: an idle core stores a write to a CONST word and clears VALID. -/
theorem step_write_const (s : State) (j : Fin 16) (f : ConstField) (v : Word) (ts : List Turn)
    (hb : s.status.busy = false)
    (ht : s.turns = .write (BitVec.ofNat 20 (0x100 + 0x18 * j.val + f.offset)) v :: ts) :
    step s = .next { s with table := s.table.set j (writeConst s.table[j] v f), valid := 0#6, turns := ts } := by
  rw [step_of_cons s _ ts ht, takeTurn, memWrite, busTarget_const j f]
  exact congrArg Host.Outcome.next (inputWrite_idle _ { s with turns := ts } hb)

/-- Settles O38: each offset is that of a CONST field, each entry the old one with that field written. -/
theorem constellationWritesAreStored : Obligations.ConstellationWritesAreStored := by
  intro s j v ts hb entry old off p hop ht
  have hcode : v.extractLsb' 0 4 = v.setWidth 4 := BitVec.setWidth_eq_extractLsb' (by decide) |>.symm
  rw [hcode] at hop
  obtain ⟨f, -, hf⟩ := List.mem_map.1 (show (off, p) ∈
    [ConstField.re, .im, .code].map fun f => (f.offset, writeConst s.table[j] v f) from hop)
  obtain ⟨rfl, rfl⟩ := Prod.mk.inj hf
  refine ⟨_, step_write_const s j f v ts hb ht, Vector.getElem_set_self j.isLt, fun k hk => ?_⟩
  exact Vector.getElem_set_ne j.isLt k.isLt fun e => hk (Fin.ext e.symm)

/-- Settles O43: INTR is no read-only register and no input, so its write is never refused. -/
theorem intrWriteSetsEnAndAcknowledges : Obligations.IntrWriteSetsEnAndAcknowledges := by
  intro s v ts ht
  have hpend : (if v.getLsbD 1 = true then false else s.intr.pend) = (s.intr.pend && !v.getLsbD 1) := by
    cases v.getLsbD 1 <;> simp
  rw [step_write_reg s _ v .intr ts ht rfl (by decide), hpend]
  rfl

end Sys2Proof.Machine
end

section
/-! When each stage passes its checks (spec/60_exceptions.md R113), and what VALID then says of the stages before it. -/

namespace Sys2Proof.Machine

/-! ### The checks of each stage -/

theorem stageError_dconv_eq_none (s : State) : stageError .dconv s = none ↔
    (1 ≤ s.cfg.n.toNat ∧ s.cfg.n.toNat ≤ Config.nMax) ∧ s.cfg.fsHz ≠ 0#64 := by
  simp [stageError, firstFailure_eq_none, stageChecks, checkN, checkFs, outOfRange_eq_false]

theorem stageError_filt_eq_none (s : State) : stageError .filt s = none ↔
    (1 ≤ s.cfg.n.toNat ∧ s.cfg.n.toNat ≤ Config.nMax) ∧ s.cfg.fsHz ≠ 0#64 ∧ stageValid s.valid .dconv = true := by
  simp [stageError, firstFailure_eq_none, stageChecks, checkN, checkFs, checkValid, outOfRange_eq_false]

theorem stageError_decim_eq_none (s : State) : stageError .decim s = none ↔
    (1 ≤ s.cfg.n.toNat ∧ s.cfg.n.toNat ≤ Config.nMax) ∧ s.cfg.decim ≠ 0#64 ∧ stageValid s.valid .filt = true := by
  simp [stageError, firstFailure_eq_none, stageChecks, checkN, checkDecim, checkValid, outOfRange_eq_false]

theorem stageError_sync_eq_none (s : State) : stageError .sync s = none ↔
    (1 ≤ s.cfg.m.toNat ∧ s.cfg.m.toNat ≤ Config.nMax) ∧ stageValid s.valid .decim = true ∧
      s.cfg.m.toNat ≤ s.res.lLen.toNat := by
  simp [stageError, firstFailure_eq_none, stageChecks, checkM, checkValid, checkPreamble, outOfRange_eq_false]

theorem stageError_demap_eq_none (s : State) : stageError .demap s = none ↔ stageValid s.valid .sync = true := by
  simp [stageError, firstFailure_eq_none, stageChecks, checkValid]

theorem stageError_pack_eq_none (s : State) : stageError .pack s = none ↔ stageValid s.valid .demap = true := by
  simp [stageError, firstFailure_eq_none, stageChecks, checkValid]

/-! ### VALID covers the first stages of the pipeline -/

/-- The stages whose VALID bit is set are the first ones of the pipeline (R22). -/
def ValidDownClosed (v : BitVec 6) : Prop :=
  ∀ st st' : Stage, st'.index ≤ st.index → stageValid v st = true → stageValid v st' = true

theorem validDownClosed_zero : ValidDownClosed 0#6 := by
  intro st st' _ h
  rw [stageValid_zero] at h
  cases h

/-- A failing stage leaves only the valid stages before it (R112). -/
theorem ValidDownClosed.after_clearFrom {v : BitVec 6} (hv : ValidDownClosed v) (st : Stage) :
    ValidDownClosed (clearFrom st v) := by
  intro st₁ st₂ hle h
  simp only [stageValid_clearFrom, Bool.and_eq_true, decide_eq_true_eq] at h ⊢
  exact ⟨hle.trans_lt h.1, hv st₁ st₂ hle h.2⟩

/-- A stage that succeeds is the last valid one, when all the stages before it are valid (R22). -/
theorem validDownClosed_validAfter {v : BitVec 6} (st : Stage)
    (hbelow : ∀ st' : Stage, st'.index < st.index → stageValid v st' = true) : ValidDownClosed (validAfter st v) := by
  intro st₁ st₂ hle h
  have hle₁ : st₁.index ≤ st.index := by
    simp only [stageValid_validAfter, Bool.or_eq_true, Bool.and_eq_true, decide_eq_true_eq] at h
    rcases h with rfl | ⟨hlt, -⟩
    · exact le_rfl
    · exact hlt.le
  rcases (hle.trans hle₁).eq_or_lt with heq | hlt
  · have : st₂ = st := by revert heq; cases st₂ <;> cases st <;> decide
    simp [stageValid_validAfter, this]
  · simp [stageValid_validAfter, hlt, hbelow st₂ hlt]

/-- A stage that passes its checks stands right after the valid ones (R109, R113). -/
theorem ValidDownClosed.below_of_checked {s : State} (hv : ValidDownClosed s.valid) {st : Stage}
    (he : stageError st s = none) (st' : Stage) (hlt : st'.index < st.index) : stageValid s.valid st' = true := by
  cases st with
  | dconv => exact absurd hlt (Nat.not_lt_zero _)
  | filt => exact hv .dconv st' (Nat.lt_succ_iff.1 hlt) ((stageError_filt_eq_none s).1 he).2.2
  | decim => exact hv .filt st' (Nat.lt_succ_iff.1 hlt) ((stageError_decim_eq_none s).1 he).2.2
  | sync => exact hv .decim st' (Nat.lt_succ_iff.1 hlt) ((stageError_sync_eq_none s).1 he).2.1
  | demap => exact hv .sync st' (Nat.lt_succ_iff.1 hlt) ((stageError_demap_eq_none s).1 he)
  | pack => exact hv .demap st' (Nat.lt_succ_iff.1 hlt) ((stageError_pack_eq_none s).1 he)

end Sys2Proof.Machine
end

section
/-! Every step keeps the control invariant (spec/10_state.md R21, R22, R24, R43; spec/60_exceptions.md R109): one lemma
for each kind of change of STATUS, VALID, ERR_INFO and OPQ. -/

namespace Sys2Proof.Machine

/-- The invariant looks at STATUS but for BUS_ERR and HOST_CONFLICT, at ERR_INFO and OPQ, and at
which stages VALID covers. -/
theorem ControlInv.congr {s t : State} (hs : ControlInv s)
    (hstatus : { t.status with busErr := s.status.busErr, hostConflict := s.status.hostConflict } = s.status)
    (hinfo : t.errInfo = s.errInfo) (hopq : t.opq = s.opq) (hvalid : ValidDownClosed t.valid) : ControlInv t := by
  have hbusy : t.status.busy = s.status.busy := (congrArg Status.busy hstatus :)
  have hdone : t.status.done = s.status.done := (congrArg Status.done hstatus :)
  have herr : t.status.err = s.status.err := (congrArg Status.err hstatus :)
  have hsticky : t.status.errSticky = s.status.errSticky := (congrArg Status.errSticky hstatus :)
  have hcode : t.status.errCode = s.status.errCode := (congrArg Status.errCode hstatus :)
  have hfail : t.status.failOpc = s.status.failOpc := (congrArg Status.failOpc hstatus :)
  constructor
  · rw [hbusy, hopq]; exact hs.idle_opq
  · rw [hopq]; exact hs.opq_shape
  · rw [hbusy, hdone, herr]; exact hs.busy_clear
  · rw [hdone, herr]; exact hs.done_or_err
  · rw [herr, hsticky]; exact hs.sticky
  · rw [herr, hcode, hfail, hinfo]; exact hs.no_report
  · rw [herr, hcode]; exact hs.code_range
  · exact hvalid

/-- The invariant of a state whose registers are those of a reset (R126). -/
theorem controlInv_of_reset {t : State} (hstatus : t.status = Status.zero) (hvalid : t.valid = 0#6)
    (hinfo : t.errInfo = 0#64) (hopq : t.opq = []) : ControlInv t where
  idle_opq _ := hopq
  opq_shape := .inr (by rw [hopq]; exact List.nil_suffix)
  busy_clear h := by rw [hstatus] at h; cases h
  done_or_err h := by rw [hstatus] at h; cases h.1
  sticky h := by rw [hstatus] at h; cases h
  no_report _ := by rw [hstatus]; exact ⟨rfl, rfl, hinfo⟩
  code_range h := by rw [hstatus] at h; cases h
  valid_prefix := by rw [hvalid]; exact validDownClosed_zero

theorem commandStages_shape (i : Instr) : (∃ st, commandStages i = [st]) ∨ commandStages i <:+ pipeline := by
  cases i <;> first | exact .inl ⟨_, rfl⟩ | exact .inr List.nil_suffix | exact .inr (List.suffix_refl _)

/-- R101: an acceptance clears the report and sets BUSY. -/
theorem ControlInv.after_accept {s : State} (hs : ControlInv s) (opc : BitVec 8) (i : Instr) :
    ControlInv (accept opc (commandStages i) s) where
  idle_opq h := by cases h
  opq_shape := commandStages_shape i
  busy_clear _ := ⟨rfl, rfl⟩
  done_or_err h := by cases h.1
  sticky h := by cases h
  no_report _ := ⟨rfl, rfl, rfl⟩
  code_range h := by cases h
  valid_prefix := hs.valid_prefix

/-- R101: an illegal word is reported while the core stays idle. -/
theorem ControlInv.after_illegalCommand {s : State} (hs : ControlInv s) (hb : s.status.busy = false) (w : Word) :
    ControlInv (illegalCommand w s) where
  idle_opq _ := hs.idle_opq hb
  opq_shape := hs.opq_shape
  busy_clear h := by
    have : s.status.busy = true := h
    rw [hb] at this
    cases this
  done_or_err h := by cases h.1
  sticky _ := rfl
  no_report h := by cases h
  code_range _ := by simp
  valid_prefix := hs.valid_prefix

/-- R103: a running command has no report, so a successful completion has none either. -/
theorem ControlInv.after_completeOk {s : State} (hs : ControlInv s) (hb : s.status.busy = true) :
    ControlInv (completeOk s) where
  idle_opq _ := rfl
  opq_shape := .inr List.nil_suffix
  busy_clear h := by cases h
  done_or_err h := by cases h.2
  sticky h := by cases h
  no_report _ := hs.no_report (hs.busy_clear hb).2
  code_range h := by cases h
  valid_prefix := hs.valid_prefix

theorem ErrCode.value_range (c : ErrCode) : 1 ≤ c.value.toNat ∧ c.value.toNat ≤ 4 := by
  cases c <;> decide

/-- R102, R103, R112: a stage that raised ends the command with its report. -/
theorem ControlInv.after_failStage {s : State} (hs : ControlInv s) (st : Stage) (e : CmdError) :
    ControlInv (failStage st e s) where
  idle_opq _ := rfl
  opq_shape := .inr List.nil_suffix
  busy_clear h := by cases h
  done_or_err h := by cases h.1
  sticky _ := rfl
  no_report h := by cases h
  code_range _ := e.code.value_range
  valid_prefix := ValidDownClosed.after_clearFrom hs.valid_prefix st

/-- R102: what is left of the stage list of a running command after its head has gone. -/
theorem ControlInv.popStage {s : State} (hs : ControlInv s) (hb : s.status.busy = true) {st : Stage}
    {rest : List Stage} (hq : s.opq = st :: rest) : ControlInv { s with opq := rest } where
  idle_opq h := by
    have : s.status.busy = false := h
    rw [hb] at this
    cases this
  opq_shape := by
    rcases hs.opq_shape with ⟨st', h⟩ | h
    · rw [hq] at h
      cases h
      exact .inr List.nil_suffix
    · rw [hq] at h
      exact .inr ((List.suffix_cons st rest).trans h)
  busy_clear := hs.busy_clear
  done_or_err := hs.done_or_err
  sticky := hs.sticky
  no_report := hs.no_report
  code_range := hs.code_range
  valid_prefix := hs.valid_prefix

/-- A stage that ends keeps the invariant, its VALID bit set (R22). -/
theorem ControlInv.after_runStage {num : NumRecord} {st : Stage} {s s' : State} (hs : ControlInv s)
    (h : runStage num st s = .done s') : ControlInv s' := by
  obtain ⟨he, hv, hstatus, -, hinfo, -, -, hopq, -⟩ := runStage_done_frame num st s s' h
  refine hs.congr (by rw [hstatus]) hinfo hopq ?_
  rw [hv]
  exact validDownClosed_validAfter st (ValidDownClosed.below_of_checked hs.valid_prefix he)

/-- Every core step keeps the invariant (R102). -/
theorem ControlInv.after_coreStep {num : NumRecord} {s t : State} (hs : ControlInv s) (hb : s.status.busy = true)
    (h : coreStep num s = .next t) : ControlInv t := by
  rcases coreStep_next num s t h with ⟨-, rfl⟩ | ⟨st, rest, s', hq, hrun, rfl⟩ | ⟨st, rest, e, -, -, rfl⟩
  · exact hs.after_completeOk hb
  · obtain ⟨-, -, hstatus, -, -, -, -, hopq, -⟩ := runStage_done_frame num st s s' hrun
    have hb' : s'.status.busy = true := by rw [hstatus]; exact hb
    cases rest with
    | nil => exact (hs.after_runStage hrun).after_completeOk hb'
    | cons st' more => exact (hs.after_runStage hrun).popStage hb' (hopq.trans hq)
  · exact hs.after_failStage st e

/-- What a bus read does to STATUS (R48). -/
theorem hostRead_status (a : Addr) (s : State) :
    (hostRead a s).status = s.status ∨ (hostRead a s).status = { s.status with busErr := true } := by
  unfold hostRead
  rcases memRead_state a s with h | ⟨h, -⟩ | h <;> simp [h]

theorem ControlInv.after_hostRead {s : State} (hs : ControlInv s) (a : Addr) : ControlInv (hostRead a s) := by
  obtain ⟨hvalid, -, hinfo, -, -, -, -, hopq, -⟩ := hostRead_frame a s
  refine hs.congr ?_ hinfo hopq (hvalid ▸ hs.valid_prefix)
  rcases hostRead_status a s with h | h <;> rw [h]

/-- Settles O49. -/
theorem everyStepKeepsControlInv : Obligations.EveryStepKeepsControlInv := by
  intro s t hs h
  refine step_induct ControlInv (hturns := fun s ts hs => hs.congr rfl rfl rfl hs.valid_prefix)
    (hcore := fun s t hs hb h => hs.after_coreStep hb h) (hread := fun a s hs => hs.after_hostRead a)
    (hbus := fun s hs => hs.congr rfl rfl rfl hs.valid_prefix)
    (hconf := fun s hs => hs.congr rfl rfl rfl hs.valid_prefix)
    (hacc := fun i s _ hs _ => hs.after_accept _ i) (hill := fun w s hs hb => hs.after_illegalCommand hb w)
    (hsreset := fun s _ => controlInv_of_reset rfl rfl rfl rfl)
    (hintr := fun v s hs => hs.congr rfl rfl rfl hs.valid_prefix)
    (hcfg := fun r v s hs _ => hs.congr rfl rfl rfl validDownClosed_zero)
    (hconst := fun j f v s hs _ => hs.congr rfl rfl rfl validDownClosed_zero)
    (hbuf := fun a b k v s _ _ hs _ => hs.congr rfl rfl rfl validDownClosed_zero)
    (hreset := fun s _ => controlInv_of_reset rfl rfl rfl rfl) s t hs h

end Sys2Proof.Machine
end

section
/-! ERR_STICKY, BUS_ERR and HOST_CONFLICT only ever rise, but at SRESET and reset (spec/10_state.md R21;
spec/60_exceptions.md R114). -/

namespace Sys2Proof.Machine

/-- Each sticky bit of the first STATUS is set in the second. -/
structure StickyKept (a b : Status) : Prop where
  errSticky : a.errSticky = true → b.errSticky = true
  busErr : a.busErr = true → b.busErr = true
  hostConflict : a.hostConflict = true → b.hostConflict = true

theorem StickyKept.refl (a : Status) : StickyKept a a := ⟨id, id, id⟩

theorem StickyKept.trans {a b c : Status} (h : StickyKept a b) (h' : StickyKept b c) : StickyKept a c :=
  ⟨h'.errSticky ∘ h.errSticky, h'.busErr ∘ h.busErr, h'.hostConflict ∘ h.hostConflict⟩

theorem stickyKept_of_eq {a b : Status} (h : b = a) : StickyKept a b := h ▸ .refl a

/-! ### The changes of STATUS -/

theorem stickyKept_busErr (a : Status) : StickyKept a { a with busErr := true } := ⟨id, fun _ => rfl, id⟩

theorem stickyKept_hostConflict (a : Status) : StickyKept a { a with hostConflict := true } := ⟨id, id, fun _ => rfl⟩

theorem stickyKept_accepted (opc : BitVec 8) (a : Status) : StickyKept a (a.accepted opc) := ⟨id, id, id⟩

theorem stickyKept_illegal (opc : BitVec 8) (a : Status) : StickyKept a (a.illegal opc) := ⟨fun _ => rfl, id, id⟩

theorem stickyKept_completedOk (a : Status) : StickyKept a a.completedOk := ⟨id, id, id⟩

theorem stickyKept_completedErr (c o : BitVec 8) (a : Status) : StickyKept a (a.completedErr c o) :=
  ⟨fun _ => rfl, id, id⟩

/-! ### The core -/

theorem coreStep_stickyKept {num : NumRecord} {s t : State} (h : coreStep num s = .next t) :
    StickyKept s.status t.status := by
  rcases coreStep_next num s t h with ⟨-, rfl⟩ | ⟨st, rest, s', -, hrun, rfl⟩ | ⟨st, rest, e, -, -, rfl⟩
  · exact stickyKept_completedOk _
  · obtain ⟨-, -, hstatus, -⟩ := runStage_done_frame num st s s' hrun
    rw [← hstatus]
    cases rest with
    | nil => exact stickyKept_completedOk _
    | cons st' more => exact .refl _
  · exact stickyKept_completedErr _ _ _

theorem coreTurn_stickyKept {num : NumRecord} {s t : State} (h : coreTurn num s = .next t) :
    StickyKept s.status t.status := by
  cases hb : s.status.busy with
  | true => exact coreStep_stickyKept (by rwa [coreTurn_busy _ _ hb] at h)
  | false =>
    rw [coreTurn_idle _ _ hb] at h
    cases h
    exact .refl _

theorem exec_stickyKept {i : Instr} (hi : i ≠ .sreset) {s t : State} (h : exec i s = .next t) :
    StickyKept s.status t.status := by
  rw [exec_eq_issue i hi] at h
  exact issue_induct numHw (fun u => StickyKept s.status u.status) (fun _ _ hu => hu)
    (fun u t hu _ h => hu.trans (coreStep_stickyKept h)) _ _ s t (stickyKept_hostConflict _)
    (fun _ => stickyKept_accepted _ _) h

/-! ### The bus -/

theorem hostRead_stickyKept (a : Addr) (s : State) : StickyKept s.status (hostRead a s).status := by
  rcases hostRead_status a s with h | h
  · exact stickyKept_of_eq h
  · rw [h]
    exact stickyKept_busErr _

/-- R65: the only word that decodes to SRESET. -/
theorem eq_of_decodeWord_sreset (w : Word) (h : decodeWord w = .ok .sreset) : w = 0x0F#64 := by
  unfold decodeWord at h
  dsimp only at h
  split at h
  · rename_i hres
    have hopc : w.extractLsb' 0 8 = 0x0F#8 := by
      unfold decodeOpcode at h
      repeat' split at h
      all_goals first | assumption | cases h
    have hhigh := congrArg BitVec.toNat (beq_iff_eq.1 hres)
    have hlow := congrArg BitVec.toNat hopc
    simp only [cmdFields, BitVec.extractLsb'_toNat, Nat.shiftRight_eq_div_pow, BitVec.toNat_ofNat] at hhigh hlow
    apply BitVec.eq_of_toNat_eq
    rw [BitVec.toNat_ofNat]
    omega
  · cases h

/-- R18: the only address that names CTRL. -/
theorem eq_of_busTarget_ctrl (a : Addr) (h : busTarget a = some (.reg .ctrl)) : a = 0x00008#20 := by
  unfold busTarget at h
  dsimp only at h
  split at h
  · cases h
  · split at h
    · obtain ⟨r, hr, hctrl⟩ := Option.map_eq_some_iff.1 h
      cases hctrl
      apply BitVec.eq_of_toNat_eq
      unfold Reg.ofOffset at hr
      split at hr
      all_goals first | assumption | cases hr
    · split at h
      · cases h
      · split at h
        · cases h
        · split at h <;> cases h

theorem ctrlWrite_stickyKept {w : Word} (hw : w ≠ 0x0F#64) {s t : State} (h : ctrlWrite w s = .next t) :
    StickyKept s.status t.status := by
  rcases ctrlWrite_next w s t h with ⟨i, hi, h⟩ | ⟨e, -, rfl⟩
  · refine exec_stickyKept ?_ h
    rintro rfl
    exact hw (eq_of_decodeWord_sreset w hi)
  · unfold issueIllegal
    split
    · exact stickyKept_hostConflict _
    · exact stickyKept_illegal _ _

/-- A write to an input whose store leaves STATUS alone. -/
theorem inputWrite_stickyKept {f : State → State} {s : State} (hf : (f s).status = s.status) :
    StickyKept s.status (inputWrite f s).status := by
  unfold inputWrite
  split
  · exact stickyKept_hostConflict _
  · exact stickyKept_of_eq hf

theorem memWrite_stickyKept {a : Addr} {v : Word} (hav : ¬ (a = 0x00008#20 ∧ v = 0x0F#64)) {s t : State}
    (h : memWrite a v s = .next t) : StickyKept s.status t.status := by
  rcases memWrite_next a v s t h with
    ⟨-, rfl⟩ | ⟨ha, h⟩ | ⟨r, -, -, rfl⟩ | ⟨j, f, -, rfl⟩ | ⟨b, k, -, rfl⟩
  · exact stickyKept_busErr _
  · exact ctrlWrite_stickyKept (fun hv => hav ⟨eq_of_busTarget_ctrl a ha, hv⟩) h
  · unfold regWrite
    split
    · exact stickyKept_busErr _
    · split
      · exact .refl _
      · exact inputWrite_stickyKept rfl
  · exact inputWrite_stickyKept rfl
  · unfold bufferWrite
    split
    · exact inputWrite_stickyKept rfl
    · exact stickyKept_busErr _

/-- Settles O47: every turn but a reset, and but the CTRL write of SRESET, keeps the three bits. -/
theorem stickyBitsStaySet : Obligations.StickyBitsStaySet := by
  intro s t h hno
  have kept : StickyKept s.status t.status := by
    cases hts : s.turns with
    | nil => exact coreTurn_stickyKept (by rwa [step_of_nil s hts] at h)
    | cons x ts =>
      rw [step_of_cons s x ts hts] at h
      show StickyKept ({ s with turns := ts } : State).status t.status
      rcases takeTurn_next x _ t h with ⟨-, h⟩ | ⟨a, -, rfl⟩ | ⟨a, v, rfl, h⟩ | ⟨rfl, -⟩
      · exact coreTurn_stickyKept h
      · exact hostRead_stickyKept a _
      · refine memWrite_stickyKept ?_ h
        rintro ⟨rfl, rfl⟩
        exact (hno ts).1 hts
      · exact absurd hts (hno ts).2
  exact ⟨kept.errSticky, kept.busErr, kept.hostConflict⟩

end Sys2Proof.Machine
end

section
/-! Every step keeps memory canonical and inside the buffer windows (spec/10_state.md R42; spec/20_memory.md R47;
log 6). -/

namespace Sys2Proof.Machine

/-! ### Which addresses a write lists -/

/-- An address in a buffer's window (R47). -/
def InSomeWindow (x : Nat) : Prop := ∃ b : Buffer, b.base ≤ x ∧ x < b.base + b.span

/-- The invariant, of the memory alone. -/
theorem memoryInv_iff (s : State) :
    MemoryInv s ↔ Memory.wf s.mem ∧ ∀ x ∈ s.mem.map Prod.fst, InSomeWindow x := by
  simp only [List.forall_mem_map]
  exact ⟨fun h => ⟨h.wf, h.mapped⟩, fun h => ⟨h.1, h.2⟩⟩

theorem writeBytes_addrs (m : Memory) (a : Nat) (bs : List Byte) (x : Nat) (h : x ∈ (writeBytes m a bs).map Prod.fst) :
    (a ≤ x ∧ x < a + bs.length) ∨ x ∈ m.map Prod.fst := by
  induction bs generalizing m a with
  | nil => exact .inr h
  | cons b bs ih =>
    rw [List.length_cons]
    rcases ih _ _ h with hx | hx
    · exact .inl (by omega)
    · rcases writeByte_addrs m a b x hx with rfl | hx
      · exact .inl (by omega)
      · exact .inr hx

/-- A run of words lists the bytes of those words and no other new ones. -/
theorem writeWords_addrs (m : Memory) (a : Nat) (ws : List Word) (x : Nat) (h : x ∈ (writeWords m a ws).map Prod.fst) :
    (a ≤ x ∧ x < a + 8 * ws.length) ∨ x ∈ m.map Prod.fst := by
  simpa only [flatMap_wordBytes_length] using writeBytes_addrs m a _ x h

theorem forgetOutputs_sublist (m : Memory) (opq : List Stage) : (forgetOutputs m opq).Sublist m := by
  cases opq with
  | nil => exact List.Sublist.refl m
  | cons st rest =>
    have key : ∀ (bs : List Buffer) (m : Memory),
        (bs.foldl (fun m b => forgetRange m b.base b.span) m).Sublist m := by
      intro bs
      induction bs with
      | nil => exact List.Sublist.refl
      | cons b bs ih => exact fun m => (ih _).trans List.filter_sublist
    exact key st.outputs m

/-! ### The changes of memory -/

theorem MemoryInv.congr {s t : State} (hs : MemoryInv s) (hmem : t.mem = s.mem) : MemoryInv t := by
  rw [memoryInv_iff] at hs ⊢
  rwa [hmem]

/-- Forgetting bytes keeps the invariant. -/
theorem MemoryInv.sublist {s t : State} (hs : MemoryInv s) (hmem : t.mem.Sublist s.mem) : MemoryInv t :=
  ⟨List.Pairwise.sublist (hmem.map Prod.fst) hs.wf, fun c hc => hs.mapped c (hmem.subset hc)⟩

/-- A run of words inside a buffer's window keeps the invariant. -/
theorem MemoryInv.after_writeWords {s t : State} (hs : MemoryInv s) (b : Buffer) (a : Nat) (ws : List Word)
    (hlo : b.base ≤ a) (hhi : a + 8 * ws.length ≤ b.base + b.span) (hmem : t.mem = writeWords s.mem a ws) :
    MemoryInv t := by
  rw [memoryInv_iff] at hs ⊢
  rw [hmem]
  refine ⟨writeWords_wf _ _ _ hs.1, fun x hx => ?_⟩
  rcases writeWords_addrs _ _ _ _ hx with ⟨h1, h2⟩ | hx
  · exact ⟨b, by omega, by omega⟩
  · exact hs.2 x hx

/-- R42, R69: what a stage writes lies in the windows of its output buffers. -/
theorem MemoryInv.after_runStage {num : NumRecord} {st : Stage} {s s' : State} (hs : MemoryInv s)
    (h : runStage num st s = .done s') : MemoryInv s' := by
  obtain ⟨runs, hruns, hmem⟩ := runStage_writes num st s s' h
  clear h
  induction runs generalizing s with
  | nil => exact hs.congr hmem
  | cons x runs ih =>
    obtain ⟨-, hfit⟩ := hruns x (by simp)
    have hx : MemoryInv { s with mem := writeWords s.mem x.1.base x.2 } :=
      hs.after_writeWords x.1 x.1.base x.2 le_rfl (by omega) rfl
    exact ih hx (fun y hy => hruns y (by simp [hy])) hmem

theorem MemoryInv.after_coreStep {num : NumRecord} {s t : State} (hs : MemoryInv s) (h : coreStep num s = .next t) :
    MemoryInv t := by
  rcases coreStep_next num s t h with ⟨-, rfl⟩ | ⟨st, rest, s', -, hrun, rfl⟩ | ⟨st, rest, e, -, -, rfl⟩
  · exact hs.congr rfl
  · refine (hs.after_runStage hrun).congr ?_
    cases rest <;> rfl
  · exact hs.congr rfl

/-- The word of a buffer that a bus address names lies in the buffer's window (R47, R52). -/
theorem busTarget_buf_fits (a : Addr) (b : Buffer) (k : Nat) (h : busTarget a = some (.buf b k)) :
    8 * k + 8 ≤ b.span := by
  unfold busTarget at h
  dsimp only at h
  split at h
  · cases h
  · split at h
    · obtain ⟨r, -, hr⟩ := Option.map_eq_some_iff.1 h
      cases hr
    · split at h
      · cases h
      · split at h
        · cases h
        · rename_i b' _
          split at h
          · rename_i hlt
            cases h
            have h8 : b.span % 8 = 0 := by cases b <;> rfl
            omega
          · cases h

/-- Settles O50: the host writes one word of a window, a stage runs of words in its output windows, and a reset only
forgets. -/
theorem everyStepKeepsMemoryInv : Obligations.EveryStepKeepsMemoryInv := by
  intro s t hs h
  refine step_induct MemoryInv (hturns := fun s ts hs => hs.congr rfl)
    (hcore := fun s t hs _ h => hs.after_coreStep h) (hread := fun a s hs => ?_)
    (hbus := fun s hs => hs.congr rfl) (hconf := fun s hs => hs.congr rfl)
    (hacc := fun i s _ hs _ => hs.congr rfl) (hill := fun w s hs _ => hs.congr rfl)
    (hsreset := fun s hs => hs.sublist ?_) (hintr := fun v s hs => hs.congr rfl)
    (hcfg := fun r v s hs _ => hs.congr rfl) (hconst := fun j f v s hs _ => hs.congr rfl)
    (hbuf := fun a b k v s ha _ hs _ => ?_) (hreset := fun s hs => hs.sublist (List.nil_sublist _)) s t hs h
  · obtain ⟨-, -, -, -, -, -, hmem, -⟩ := hostRead_frame a s
    exact hs.congr hmem
  · rw [softReset_mem]
    split
    · exact forgetOutputs_sublist _ _
    · exact List.Sublist.refl _
  · have hfits := busTarget_buf_fits a b k ha
    exact hs.after_writeWords b (b.base + 8 * k) [v] (by omega) (by simpa [add_assoc] using hfits) rfl

end Sys2Proof.Machine
end

section
/-! Where a step can stop: only in a core step, at an entry that has no value (spec/10_state.md R42; log 15). -/

namespace Sys2Proof.Machine

/-! ### Unwritten operands of a stage -/

theorem readReals_eq_none (m : Memory) (b : Buffer) (n : Nat) :
    readReals m b n = none ↔ ∃ k < n, realEntry m b k = none := by
  rw [← Option.not_isSome_iff_eq_none, Option.isSome_iff_exists, readReals_isSome]
  simp

theorem readComplexes_eq_none (m : Memory) (b : Buffer) (n : Nat) :
    readComplexes m b n = none ↔ ∃ k < n, complexEntry m b k = none := by
  rw [← Option.not_isSome_iff_eq_none, Option.isSome_iff_exists, readComplexes_isSome]
  simp

theorem stageDconv_unwritten (num : NumRecord) (s : State) (he : stageError .dconv s = none)
    (hx : readReals s.mem .sample s.cfg.n.toNat = none) :
    stageDconv num s = .fault (.unwrittenEntry .sample) := by
  rw [stageDconv, afterChecks_of_none _ _ _ he]
  dsimp only
  rw [hx]

theorem stageSync_unwritten_pre (num : NumRecord) (s : State) (he : stageError .sync s = none) (d : List C64)
    (hd : readComplexes s.mem .dec s.res.lLen.toNat = some d)
    (hr : readComplexes s.mem .pre s.cfg.m.toNat = none) :
    stageSync num s = .fault (.unwrittenEntry .pre) := by
  rw [stageSync, afterChecks_of_none _ _ _ he]
  dsimp only
  rw [hd, hr]

/-- A one-stage command given one core turn stops when its stage does (log 2). -/
theorem issue_single_fault (num : NumRecord) (opc : BitVec 8) (st : Stage) (s : State) (ts : List Turn)
    (hb : s.status.busy = false) (ht : s.turns = .core :: ts) (f : Fault)
    (hf : runStage num st (accept opc [st] s) = .fault f) : issue num opc [st] s = .fault f := by
  rw [issue_single num opc st s ts hb ht, hf]

/-- Settles O24: an acceptance leaves alone what the checks and the operands are read from. -/
theorem unwrittenInputStopsTheStage : Obligations.UnwrittenInputStopsTheStage := by
  refine fun s ts hb ht => ⟨fun hn hN hfs hx => ?_, fun hm hM hdec hlen hd hr => ?_⟩
  · refine issue_single_fault numHw 0x01#8 .dconv s ts hb ht _ (stageDconv_unwritten numHw _ ?_ ?_)
    · exact (stageError_dconv_eq_none _).2 ⟨⟨hn, hN⟩, hfs⟩
    · exact (readReals_eq_none _ _ _).2 hx
  · obtain ⟨d, hd⟩ := (readComplexes_isSome _ _ _).2 hd
    refine issue_single_fault numHw 0x04#8 .sync s ts hb ht _ (stageSync_unwritten_pre numHw _ ?_ d hd ?_)
    · exact (stageError_sync_eq_none _).2 ⟨⟨hm, hM⟩, hdec, hlen⟩
    · exact (readComplexes_eq_none _ _ _).2 hr

/-! ### A step that stops, stops in a core step -/

/-- A stage that stops passed its checks (R110). -/
theorem afterChecks_fault (st : Stage) (s : State) (body : State → StageResult) (f : Fault)
    (h : afterChecks st s body = .fault f) : stageError st s = none ∧ body s = .fault f := by
  unfold afterChecks at h
  split at h
  · cases h
  · rename_i he
    exact ⟨he, h⟩

/-- The core step in which granted steps stop, in a state that keeps what every core step keeps. -/
theorem grantedSteps_fault {num : NumRecord} {P : State → Prop} (hstep : ∀ s t, P s → coreStep num s = .next t → P t)
    {f : Fault} {ts : List Turn} {s : State} (hs : P s) (h : grantedSteps num ts s = .fault f) :
    ∃ u, P u ∧ coreStep num u = .fault f := by
  induction ts generalizing s with
  | nil => cases h
  | cons x ts ih =>
    cases hb : s.status.busy with
    | false =>
      rw [grantedSteps_idle num _ s hb] at h
      cases h
    | true =>
      by_cases hx : x = .core
      · subst hx
        rw [grantedSteps_core num ts s hb] at h
        cases hc : coreStep num s with
        | next t =>
          rw [hc] at h
          exact ih (hstep s t hs hc) h
        | fault f' =>
          rw [hc] at h
          cases h
          exact ⟨s, hs, hc⟩
        | refused r => exact absurd hc (coreStep_not_refused num s r)
      · rw [grantedSteps_access num x ts s hx] at h
        cases h

theorem coreTurn_fault {num : NumRecord} {s : State} {f : Fault} (h : coreTurn num s = .fault f) :
    coreStep num s = .fault f := by
  cases hb : s.status.busy with
  | true => rwa [coreTurn_busy num s hb] at h
  | false =>
    rw [coreTurn_idle num s hb] at h
    cases h

/-- A bus write that stops is the CTRL write of a command other than SRESET. -/
theorem memWrite_fault {a : Addr} {v : Word} {s : State} {f : Fault} (h : memWrite a v s = .fault f) :
    ∃ i, i ≠ .sreset ∧ exec i s = .fault f := by
  unfold memWrite at h
  split at h
  case h_2 =>
    unfold ctrlWrite at h
    split at h
    · rename_i i _
      refine ⟨i, ?_, h⟩
      rintro rfl
      cases h
    · cases h
  all_goals cases h

/-- The core step in which a step stops, in a state that keeps what every acceptance and every core step keep. -/
theorem step_fault {P : State → Prop} (hturns : ∀ s ts, P s → P { s with turns := ts })
    (hacc : ∀ opc stages s, P s → P (accept opc stages s))
    (hcore : ∀ s t, P s → coreStep numHw s = .next t → P t)
    {s : State} {f : Fault} (hs : P s) (h : step s = .fault f) : ∃ u, P u ∧ coreStep numHw u = .fault f := by
  cases hts : s.turns with
  | nil =>
    rw [step_of_nil s hts] at h
    exact ⟨s, hs, coreTurn_fault h⟩
  | cons x ts =>
    rw [step_of_cons s x ts hts] at h
    have hs' := hturns s ts hs
    cases x with
    | core => exact ⟨_, hs', coreTurn_fault h⟩
    | read a => cases h
    | reset => cases h
    | write a v =>
      obtain ⟨i, hi, h⟩ := memWrite_fault h
      rw [exec_eq_issue i hi, issue] at h
      split at h
      · cases h
      · exact grantedSteps_fault hcore (hacc _ _ _ hs') h

end Sys2Proof.Machine
end

section
/-! The loops of the stages, on indices: the start index, the nearest table entry and the characters of the text
(spec/44_synchronizer.md R87; spec/45_demapper.md R93; spec/46_bit_packer.md R97, R98). -/

namespace Sys2Proof.Machine

/-! ### The start index (R87) -/

/-- One turn of the loop of R87. -/
def laterIfGreater (series : List F64) (best o : Nat) : Nat :=
  if F64.gt (series.getD o 0#64) (series.getD best 0#64) then o else best

theorem firstMaxIndex_eq (series : List F64) :
    firstMaxIndex series = (List.range' 1 (series.length - 1)).foldl (laterIfGreater series) 0 := by
  rw [firstMaxIndex, List.range_eq_range', List.tail_range']
  rfl

/-- The scan over the words from index `o` on is the loop over their indices, and reports the word at its index. -/
theorem argmaxScan_eq (series cs : List F64) (o best : Nat) (h : series.drop o = cs) :
    argmaxScan cs o best (series.getD best 0#64) =
      ((List.range' o cs.length).foldl (laterIfGreater series) best,
        series.getD ((List.range' o cs.length).foldl (laterIfGreater series) best) 0#64) := by
  induction cs generalizing o best with
  | nil => rfl
  | cons c cs ih =>
    have hc : series.getD o 0#64 = c := by
      have : series[o]? = some c := by rw [← List.head?_drop, h]; rfl
      rw [List.getD_eq_getElem?_getD, this]
      rfl
    have hcs : series.drop (o + 1) = cs := by rw [← List.tail_drop, h]; rfl
    rw [List.length_cons, List.range'_succ, List.foldl_cons, ← ih (o + 1) _ hcs, argmaxScan]
    unfold laterIfGreater
    rw [hc]
    split
    · rw [hc]
    · rfl

/-- R87: the scan finds the index of the rule's loop, and its word. -/
theorem argmaxFirst_eq (series : List F64) (h : series ≠ []) :
    argmaxFirst series = (firstMaxIndex series, series.getD (firstMaxIndex series) 0#64) := by
  cases series with
  | nil => exact absurd rfl h
  | cons c cs =>
    rw [firstMaxIndex_eq]
    exact argmaxScan_eq (c :: cs) cs 1 0 rfl

/-- R87: the index is one of the series. -/
theorem firstMaxIndex_lt (series : List F64) (h : series ≠ []) : firstMaxIndex series < series.length := by
  have hpos : 0 < series.length := List.length_pos_iff.2 h
  rw [firstMaxIndex_eq]
  refine List.foldlRecOn (motive := (· < series.length)) _ _ hpos fun best hbest o ho => ?_
  have ho := List.mem_range'_1.1 ho
  unfold laterIfGreater
  split <;> omega

/-! ### The nearest table entry (R93) -/

/-- The scan over table entries is the loop over their indices. -/
theorem nearestScan_map_get (num : NumRecord) (table : Vector ConstPoint 16) (z : C64) (js : List (Fin 16))
    (best : Fin 16) :
    nearestScan num z (table.get best) (js.map table.get) =
      table.get (js.foldl (fun best j => if num.closer z table[j].point table[best].point then j else best) best) := by
  induction js generalizing best with
  | nil => rfl
  | cons j js ih =>
    rw [List.map_cons, nearestScan, List.foldl_cons, ← ih]
    congr 1
    exact (apply_ite table.get _ j best).symm

theorem toList_eq_map_get (table : Vector ConstPoint 16) : table.toList = (List.finRange 16).map table.get := by
  refine List.ext_getElem (by simp) fun i h1 h2 => ?_
  simp [Vector.get]

/-- R93: the entry found is that of the rule's loop. -/
theorem nearest_eq_get_nearestIndex (num : NumRecord) (table : Vector ConstPoint 16) (z : C64) :
    nearest num table z = table.get (nearestIndex num table z) := by
  rw [nearest, toList_eq_map_get, ← List.map_tail]
  exact nearestScan_map_get num table z _ 0

/-! ### The characters (R97, R98) -/

@[simp] theorem bitSequence_length (codes : List Word) : (bitSequence codes).length = 4 * codes.length := by
  induction codes with
  | nil => rfl
  | cons w codes ih =>
    rw [bitSequence] at ih ⊢
    rw [List.flatMap_cons, List.length_append, ih, List.length_cons]
    simp only [codeBits, List.length_cons, List.length_nil]
    omega

/-- R97: bit `k` of the bit sequence is bit `3 - k mod 4` of code `k div 4`. -/
theorem bitSequence_getElem? (codes : List Word) (k : Nat) (hk : k < 4 * codes.length) :
    (bitSequence codes)[k]? = some (sequenceBit codes k) := by
  induction codes generalizing k with
  | nil => simp at hk
  | cons w codes ih =>
    have happ : bitSequence (w :: codes) = codeBits w ++ bitSequence codes := rfl
    rw [happ]
    by_cases h4 : k < 4
    · interval_cases k <;> rfl
    · obtain ⟨j, rfl⟩ : ∃ j, k = j + 4 := ⟨k - 4, by omega⟩
      have hbit : sequenceBit (w :: codes) (j + 4) = sequenceBit codes j := by
        rw [sequenceBit, sequenceBit, Nat.add_mod_right, Nat.add_div_right j (by decide)]
        rfl
      have hj : j < 4 * codes.length := by simp only [List.length_cons] at hk; omega
      rw [hbit, ← ih j hj]
      rfl

/-- A complete group of eight bits (R98). -/
theorem bitSequence_group (codes : List Word) (t : Nat) (ht : 8 * t + 8 ≤ 4 * codes.length) :
    ((bitSequence codes).drop (8 * t)).take 8 = (List.range 8).map fun i => sequenceBit codes (8 * t + i) := by
  refine List.ext_getElem? fun i => ?_
  by_cases hi : i < 8
  · rw [List.getElem?_take_of_lt hi, List.getElem?_drop, bitSequence_getElem? codes _ (by omega)]
    simp [hi]
  · rw [List.getElem?_eq_none (by simp; omega), List.getElem?_eq_none (by simp; omega)]

/-- R98: the character of a complete group is its bits' value, the first bit the most significant. -/
theorem groupChar_bitSequence (codes : List Word) (t : Nat) (ht : 8 * t + 8 ≤ 4 * codes.length) :
    groupChar (bitSequence codes) t = BitVec.ofNat 64 (characterValue codes t) := by
  rw [groupChar, bitSequence_group codes t ht, characterValue]
  congr 1
  simp only [List.range_succ, List.range_zero, List.nil_append, List.cons_append, List.map_cons, List.map_nil,
    binaryValue, Finset.sum_range_succ, Finset.sum_range_zero]
  omega

theorem characterValue_lt (codes : List Word) (t : Nat) : characterValue codes t < 256 := by
  have hbit : ∀ i, (sequenceBit codes (8 * t + i)).toNat ≤ 1 := fun i => Bool.toNat_le _
  calc characterValue codes t ≤ ∑ i ∈ Finset.range 8, 1 * 2 ^ (7 - i) :=
        Finset.sum_le_sum fun i _ => Nat.mul_le_mul_right _ (hbit i)
    _ < 256 := by decide

end Sys2Proof.Machine
end

section
/-! Every step keeps what the VALID bits promise (spec/10_state.md R22, R33 to R39, R42, R56): the promise of a stage is
established by the stage itself, and stands while the configuration, the table, and the buffers and result registers of
the stages up to it do. -/

namespace Sys2Proof.Machine

/-! ### The promise of one stage -/

/-- What the VALID bit of a stage promises of the buffers and result registers, beside the stage's results. -/
def promise : Stage → State → Prop
  | .dconv, s => 1 ≤ s.cfg.n.toNat ∧ s.cfg.n.toNat ≤ Config.nMax ∧ s.cfg.fsHz ≠ 0#64 ∧
      realsWritten s.mem .i s.cfg.n.toNat ∧ realsWritten s.mem .q s.cfg.n.toNat
  | .filt, s => realsWritten s.mem .iF s.cfg.n.toNat ∧ realsWritten s.mem .qF s.cfg.n.toNat
  | .decim, s => s.cfg.decim ≠ 0#64 ∧ s.res.lLen.toNat = decimatedLength s.cfg ∧
      complexesWritten s.mem .dec s.res.lLen.toNat
  | .sync, s => 1 ≤ s.cfg.m.toNat ∧ s.cfg.m.toNat ≤ s.res.lLen.toNat ∧
      realsWritten s.mem .corr (s.res.lLen.toNat - s.cfg.m.toNat + 1) ∧
      s.res.startIndex.toNat ≤ s.res.lLen.toNat - s.cfg.m.toNat ∧
      realEntry s.mem .corr s.res.startIndex.toNat = some s.res.peakPower ∧
      s.res.payloadStart.toNat = min (s.res.startIndex.toNat + s.cfg.guard.toNat) s.res.lLen.toNat ∧
      s.res.payloadLen.toNat = s.res.lLen.toNat - s.res.payloadStart.toNat
  | .demap, s => s.res.bitCount.toNat = 4 * s.res.payloadLen.toNat ∧
      ∀ p < s.res.payloadLen.toNat, ∃ w, realEntry s.mem .code p = some w ∧ w.toNat < 16
  | .pack, s => s.res.charCount.toNat = s.res.bitCount.toNat / 8 ∧
      ∀ t < s.res.charCount.toNat, ∃ w, realEntry s.mem .text t = some w ∧ w.toNat < 256

/-- The invariant, stage by stage. -/
theorem coverageInv_iff (s : State) :
    CoverageInv s ↔ ∀ st, stageValid s.valid st = true → resultsHold st s ∧ promise st s := by
  constructor
  · intro h st hv
    refine ⟨h.results st hv, ?_⟩
    cases st with
    | dconv => exact h.iq hv
    | filt => exact h.filt hv
    | decim => exact h.dec hv
    | sync => exact h.sync hv
    | demap => exact h.code hv
    | pack => exact h.text hv
  · intro h
    exact ⟨fun st hv => (h st hv).1, fun hv => (h .dconv hv).2, fun hv => (h .filt hv).2, fun hv => (h .decim hv).2,
      fun hv => (h .sync hv).2, fun hv => (h .demap hv).2, fun hv => (h .pack hv).2⟩

/-! ### When a promise stands -/

/-- The buffers a stage reads or writes (R69). -/
def Stage.buffers : Stage → List Buffer
  | .dconv => [.sample, .i, .q]
  | .filt => [.i, .q, .iF, .qF]
  | .decim => [.iF, .qF, .dec]
  | .sync => [.dec, .pre, .corr]
  | .demap => [.dec, .code]
  | .pack => [.code, .text]

/-- The result registers of the stages up to `st` are the same (R33 to R39). -/
structure SameResultsUpTo (st : Stage) (r r' : ResultRegs) : Prop where
  decim : 2 ≤ st.index → r'.lLen = r.lLen
  sync : 3 ≤ st.index → r'.startIndex = r.startIndex ∧ r'.peakPower = r.peakPower ∧
    r'.payloadStart = r.payloadStart ∧ r'.payloadLen = r.payloadLen
  demap : 4 ≤ st.index → r'.bitCount = r.bitCount
  pack : 5 ≤ st.index → r'.charCount = r.charCount

theorem SameResultsUpTo.refl (st : Stage) (r : ResultRegs) : SameResultsUpTo st r r :=
  ⟨fun _ => rfl, fun _ => ⟨rfl, rfl, rfl, rfl⟩, fun _ => rfl, fun _ => rfl⟩

/-- Two states in which a stage's VALID bit promises the same. -/
structure SameUpTo (st : Stage) (s t : State) : Prop where
  cfg : t.cfg = s.cfg
  table : t.table = s.table
  res : SameResultsUpTo st s.res t.res
  real : ∀ b ∈ st.buffers, ∀ k, realEntry t.mem b k = realEntry s.mem b k
  complex : ∀ b ∈ st.buffers, b.isComplex = true → ∀ k, complexEntry t.mem b k = complexEntry s.mem b k

theorem SameUpTo.promised {st : Stage} {s t : State} (h : SameUpTo st s t) (hs : resultsHold st s ∧ promise st s) :
    resultsHold st t ∧ promise st t := by
  obtain ⟨hcfg, htable, hres, hreal, hcomplex⟩ := h
  cases st with
  | dconv =>
    simpa only [resultsHold, promise, realsWritten, hcfg, hreal .sample (by decide), hreal .i (by decide),
      hreal .q (by decide)] using hs
  | filt =>
    simpa only [resultsHold, promise, realsWritten, hcfg, hreal .i (by decide), hreal .q (by decide),
      hreal .iF (by decide), hreal .qF (by decide)] using hs
  | decim =>
    simpa only [resultsHold, promise, complexesWritten, hcfg, hres.decim (by decide), hreal .iF (by decide),
      hreal .qF (by decide), hcomplex .dec (by decide) rfl] using hs
  | sync =>
    obtain ⟨hstart, hpeak, hfrom, hlen⟩ := hres.sync (by decide)
    simpa only [resultsHold, promise, realsWritten, hcfg, hres.decim (by decide), hstart, hpeak, hfrom, hlen,
      hcomplex .dec (by decide) rfl, hcomplex .pre (by decide) rfl, hreal .corr (by decide)] using hs
  | demap =>
    obtain ⟨-, -, hfrom, hlen⟩ := hres.sync (by decide)
    simpa only [resultsHold, promise, htable, hfrom, hlen, hres.demap (by decide), hcomplex .dec (by decide) rfl,
      hreal .code (by decide)] using hs
  | pack =>
    simpa only [resultsHold, promise, hres.demap (by decide), hres.pack (by decide), hreal .code (by decide),
      hreal .text (by decide)] using hs

/-- Fewer VALID bits over the same contents promise no more. -/
theorem CoverageInv.mono {s t : State} (hs : CoverageInv s)
    (hvalid : ∀ st, stageValid t.valid st = true → stageValid s.valid st = true) (hcfg : t.cfg = s.cfg)
    (hres : t.res = s.res) (htable : t.table = s.table) (hmem : t.mem = s.mem) : CoverageInv t := by
  rw [coverageInv_iff] at hs ⊢
  intro st hv
  refine SameUpTo.promised ⟨hcfg, htable, hres ▸ .refl st _, fun b _ k => ?_, fun b _ _ k => ?_⟩ (hs st (hvalid st hv))
  · rw [hmem]
  · rw [hmem]

theorem CoverageInv.congr {s t : State} (hs : CoverageInv s) (hvalid : t.valid = s.valid) (hcfg : t.cfg = s.cfg)
    (hres : t.res = s.res) (htable : t.table = s.table) (hmem : t.mem = s.mem) : CoverageInv t :=
  hs.mono (fun st h => by rwa [hvalid] at h) hcfg hres htable hmem

/-- With no VALID bit set nothing is promised (R56). -/
theorem coverageInv_of_valid_zero {t : State} (h : t.valid = 0#6) : CoverageInv t := by
  rw [coverageInv_iff]
  intro st hv
  rw [h, stageValid_zero] at hv
  cases hv

/-! ### A stage keeps the promises of the stages before it -/

theorem Stage.buffers_not_outputs {st₁ st : Stage} (hlt : st₁.index < st.index) :
    ∀ b ∈ st₁.buffers, b ∉ st.outputs := by
  revert hlt
  cases st₁ <;> cases st <;> decide

/-- A stage writes its own result registers and no earlier ones (R69). -/
theorem runStage_sameResultsUpTo {num : NumRecord} {st st₁ : Stage} {s s' : State} (h : runStage num st s = .done s')
    (hlt : st₁.index < st.index) : SameResultsUpTo st₁ s.res s'.res := by
  cases st with
  | dconv => exact absurd hlt (Nat.not_lt_zero _)
  | filt =>
    obtain ⟨-, xi, xq, -, -, rfl⟩ := stageFilt_done num s s' h
    exact .refl _ _
  | decim =>
    obtain ⟨-, xi, xq, -, -, rfl⟩ := stageDecim_done s s' h
    exact ⟨fun hle => absurd hlt hle.not_gt, fun _ => ⟨rfl, rfl, rfl, rfl⟩, fun _ => rfl, fun _ => rfl⟩
  | sync =>
    obtain ⟨-, d, r, -, -, rfl⟩ := stageSync_done num s s' h
    exact ⟨fun _ => rfl, fun hle => absurd hlt hle.not_gt, fun _ => rfl, fun _ => rfl⟩
  | demap =>
    obtain ⟨-, zs, -, rfl⟩ := stageDemap_done num s s' h
    exact ⟨fun _ => rfl, fun _ => ⟨rfl, rfl, rfl, rfl⟩, fun hle => absurd hlt hle.not_gt, fun _ => rfl⟩
  | pack =>
    obtain ⟨-, codes, -, rfl⟩ := stagePack_done s s' h
    exact ⟨fun _ => rfl, fun _ => ⟨rfl, rfl, rfl, rfl⟩, fun _ => rfl, fun hle => absurd hlt hle.not_gt⟩

theorem runStage_sameUpTo {num : NumRecord} {st st₁ : Stage} {s s' : State} (h : runStage num st s = .done s')
    (hlt : st₁.index < st.index) : SameUpTo st₁ s s' := by
  obtain ⟨-, -, -, -, -, hcfg, htable, -⟩ := runStage_done_frame num st s s' h
  have hother := fun b hb => runStage_entries_other num st s s' h b (Stage.buffers_not_outputs hlt b hb)
  exact ⟨hcfg, htable, runStage_sameResultsUpTo h hlt, fun b hb => (hother b hb).1, fun b hb => (hother b hb).2⟩

end Sys2Proof.Machine
end

section
/-! Each stage establishes its own promise (spec/10_state.md R33 to R39; R76 to R98), so every step keeps what the VALID
bits promise, and a step stops at an entry the host has not written only (R42). -/

namespace Sys2Proof.Machine

/-! ### Entries after a store -/

/-- Two real buffers stored one after the other: both read as stored. -/
theorem realEntry_storeReals_pair {m m' : Memory} {b b' : Buffer} {ws ws' : List Word}
    (hm : m' = storeReals (storeReals m b ws) b' ws') (hb : b.isComplex = false) (hb' : b'.isComplex = false)
    (hne : b ≠ b') (hlen : ws.length ≤ Config.nMax) (hlen' : ws'.length ≤ Config.nMax) :
    (∀ k < ws.length, realEntry m' b k = ws[k]?) ∧ (∀ k < ws'.length, realEntry m' b' k = ws'[k]?) := by
  subst hm
  refine ⟨fun k hk => ?_, fun k hk => realEntry_storeReals _ b' hb' ws' k hk (hk.trans_le hlen')⟩
  have hspan : 8 * ws'.length ≤ b'.span := by
    rw [Buffer.span_real b' hb']
    exact Nat.mul_le_mul_left 8 hlen'
  rw [storeReals, realEntry_writeWords_other _ b b' hne ws' hspan k]
  exact realEntry_storeReals m b hb ws k hk (hk.trans_le hlen)

theorem isSome_of_eq_some {α : Type} {o : Option α} {x : α} (h : o = some x) : o.isSome = true :=
  Option.isSome_iff_exists.2 ⟨x, h⟩

/-- A length or index that fits a register is stored unchanged (log 21). -/
theorem toNat_ofNat_word {n : Nat} (h : n < 2 ^ 64) : (BitVec.ofNat 64 n).toNat = n := Nat.mod_eq_of_lt h

/-! ### Each stage's own promise -/

/-- R76. -/
theorem stageDconv_promised {s s' : State} (h : stageDconv numHw s = .done s') :
    resultsHold .dconv s' ∧ promise .dconv s' := by
  have hsample := (runStage_entries_other numHw .dconv s s' h .sample (by decide)).1
  obtain ⟨-, -, -, -, -, hcfg, -⟩ := runStage_done_frame numHw .dconv s s' h
  obtain ⟨he, xs, hx, hs'⟩ := stageDconv_done numHw s s' h
  obtain ⟨⟨hpos, hmax⟩, hfs⟩ := (stageError_dconv_eq_none s).1 he
  obtain ⟨hlen, hread⟩ := (readReals_eq_some _ _ _ _).1 hx
  obtain ⟨hi, hq⟩ := realEntry_storeReals_pair (congrArg State.mem hs') rfl rfl (by decide)
    (by simpa [hlen] using hmax) (by simpa [hlen] using hmax)
  simp only [List.length_map, mixFrom_length, hlen, List.getElem?_map, mixFrom_getElem?, Nat.zero_add] at hi hq
  have hmix : resultsHold .dconv s' := by
    simp only [resultsHold, hcfg, hsample]
    intro n hn
    obtain ⟨x, hxn⟩ : ∃ x, xs[n]? = some x := ⟨_, List.getElem?_eq_getElem (hlen.symm ▸ hn)⟩
    rw [hread n hn, hi n hn, hq n hn, hxn]
    exact ⟨x, rfl, rfl, rfl⟩
  refine ⟨hmix, hcfg ▸ hpos, hcfg ▸ hmax, hcfg ▸ hfs, fun n hn => ?_, fun n hn => ?_⟩
  · obtain ⟨x, -, hin, -⟩ := hmix n hn
    exact isSome_of_eq_some hin
  · obtain ⟨x, -, -, hqn⟩ := hmix n hn
    exact isSome_of_eq_some hqn

/-- R80. -/
theorem stageFilt_promised {s s' : State} (h : stageFilt numHw s = .done s') :
    resultsHold .filt s' ∧ promise .filt s' := by
  have hini := (runStage_entries_other numHw .filt s s' h .i (by decide)).1
  have hinq := (runStage_entries_other numHw .filt s s' h .q (by decide)).1
  obtain ⟨-, -, -, -, -, hcfg, -⟩ := runStage_done_frame numHw .filt s s' h
  obtain ⟨he, xi, xq, hxi, hxq, hs'⟩ := stageFilt_done numHw s s' h
  obtain ⟨⟨-, hmax⟩, -⟩ := (stageError_filt_eq_none s).1 he
  obtain ⟨hleni, hreadi⟩ := (readReals_eq_some _ _ _ _).1 hxi
  obtain ⟨hlenq, hreadq⟩ := (readReals_eq_some _ _ _ _).1 hxq
  obtain ⟨hi, hq⟩ := realEntry_storeReals_pair (congrArg State.mem hs') rfl rfl (by decide)
    (by simpa using hmax) (by simpa using hmax)
  have hlow : ∀ xs, ∀ n < s.cfg.n.toNat,
      (lowpass numHw s.cfg xs)[n]? = some (numHw.lpf s.cfg.n.toNat xs (keepBin s.cfg) s.cfg.gain n) :=
    fun xs n hn => by simp [lowpass, hn]
  simp only [lowpass_length] at hi hq
  simp only [resultsHold, promise, realsWritten, hcfg, hini, hinq]
  refine ⟨⟨xi, xq, hleni, hlenq, fun n hn => ⟨hreadi n hn, hreadq n hn, ?_, ?_⟩⟩, fun n hn => ?_, fun n hn => ?_⟩
  · rw [hi n hn, hlow xi n hn]
  · rw [hq n hn, hlow xq n hn]
  · rw [hi n hn, hlow xi n hn, Option.isSome_some]
  · rw [hq n hn, hlow xq n hn, Option.isSome_some]

/-- R84. -/
theorem stageDecim_promised {s s' : State} (h : stageDecim s = .done s') :
    resultsHold .decim s' ∧ promise .decim s' := by
  have hini := (runStage_entries_other numHw .decim s s' h .iF (by decide)).1
  have hinq := (runStage_entries_other numHw .decim s s' h .qF (by decide)).1
  obtain ⟨-, -, -, -, -, hcfg, -⟩ := runStage_done_frame numHw .decim s s' h
  obtain ⟨he, xi, xq, hxi, hxq, hs'⟩ := stageDecim_done s s' h
  obtain ⟨⟨-, hmax⟩, hdecim, -⟩ := (stageError_decim_eq_none s).1 he
  have hle := decimatedLength_le s.cfg hdecim
  have hleni := (readEach_length _ _ _ hxi).trans (keptIndices_length _)
  have hlenq := (readEach_length _ _ _ hxq).trans (keptIndices_length _)
  have hlen : s'.res.lLen.toNat = decimatedLength s.cfg := by
    rw [hs']
    exact toNat_ofNat_word (hle.trans_lt s.cfg.n.isLt)
  have hdec : ∀ k < decimatedLength s.cfg, complexEntry s'.mem .dec k = (List.zipWith C64.mk xi xq)[k]? := by
    rw [hs']
    exact fun k hk => complexEntry_storeComplex _ _ rfl _ _ (by simp [hleni, hlenq, hk]) (by omega)
  have hcopy : resultsHold .decim s' := by
    simp only [resultsHold, hcfg, hlen, hini, hinq]
    intro k hk
    have hi := readEach_getElem? _ _ _ hxi k (by simpa using hk)
    have hq := readEach_getElem? _ _ _ hxq k (by simpa using hk)
    simp only [keptIndices, List.getElem_map, List.getElem_range] at hi hq
    rw [List.getElem?_eq_getElem (by omega)] at hi hq
    exact ⟨_, _, hi, hq, by simp [hdec k hk, hleni, hlenq, hk]⟩
  refine ⟨hcopy, hcfg ▸ hdecim, hcfg ▸ hlen, fun k hk => ?_⟩
  obtain ⟨re, im, -, -, hz⟩ := hcopy k hk
  exact isSome_of_eq_some hz

/-- The result registers of SYNC, when the series is not empty and its lengths fit their registers (R87, R88, R91). -/
theorem syncResults_registers (c : ConfigRegs) (L : Nat) (series : List F64) (r : ResultRegs) (hne : series ≠ [])
    (hL : L < 2 ^ 64) (hlen : series.length ≤ L) :
    (syncResults c L series r).startIndex.toNat = firstMaxIndex series ∧
    some (syncResults c L series r).peakPower = series[firstMaxIndex series]? ∧
    (syncResults c L series r).payloadStart.toNat = min (firstMaxIndex series + c.guard.toNat) L ∧
    (syncResults c L series r).payloadLen.toNat = L - min (firstMaxIndex series + c.guard.toNat) L := by
  have hbest := firstMaxIndex_lt series hne
  have hmin : min (firstMaxIndex series + c.guard.toNat) L ≤ L := min_le_right _ _
  simp only [syncResults, argmaxFirst_eq series hne, payloadStart]
  refine ⟨toNat_ofNat_word (by omega), ?_, toNat_ofNat_word (by omega), toNat_ofNat_word (by omega)⟩
  rw [List.getElem?_eq_getElem hbest, List.getD_eq_getElem _ _ hbest]

/-- R91. -/
theorem stageSync_promised {s s' : State} (h : stageSync numHw s = .done s') :
    resultsHold .sync s' ∧ promise .sync s' := by
  have hdec := (runStage_entries_other numHw .sync s s' h .dec (by decide)).2 rfl
  have hpre := (runStage_entries_other numHw .sync s s' h .pre (by decide)).2 rfl
  obtain ⟨-, -, -, -, -, hcfg, -⟩ := runStage_done_frame numHw .sync s s' h
  obtain ⟨he, d, r, hd, hr, hs'⟩ := stageSync_done numHw s s' h
  have hmem : s'.mem = _ := congrArg State.mem hs'
  have hres : s'.res = _ := congrArg State.res hs'
  obtain ⟨⟨hpos, -⟩, -, hle⟩ := (stageError_sync_eq_none s).1 he
  have hmax := readComplexes_length_le _ _ _ _ hd
  obtain ⟨hlend, hreadd⟩ := (readComplexes_eq_some _ _ _ _).1 hd
  obtain ⟨hlenr, hreadr⟩ := (readComplexes_eq_some _ _ _ _).1 hr
  have hpower : ∀ o < s.res.lLen.toNat - s.cfg.m.toNat + 1,
      (correlation numHw s.res.lLen.toNat s.cfg.m.toNat d r)[o]? =
        some (numHw.corrPower s.cfg.m.toNat ((d.drop o).take s.cfg.m.toNat) r) :=
    fun o ho => by simp [correlation, lagWindow, ho]
  have hlen := correlation_length numHw s.res.lLen.toNat s.cfg.m.toNat d r
  generalize correlation numHw s.res.lLen.toNat s.cfg.m.toNat d r = series at *
  have hne : series ≠ [] := List.ne_nil_of_length_pos (by omega)
  have hcorr : ∀ o < series.length, realEntry s'.mem .corr o = series[o]? := fun o ho => by
    rw [hmem]
    exact realEntry_storeReals _ _ rfl _ _ ho (by omega)
  have hL : s'.res.lLen = s.res.lLen := by rw [hres]; rfl
  obtain ⟨hstart, hpeak, hfrom, hpay⟩ :=
    syncResults_registers s.cfg s.res.lLen.toNat series s.res hne s.res.lLen.isLt (by omega)
  have hbest := firstMaxIndex_lt series hne
  simp only [resultsHold, promise, realsWritten, hcfg, hL, hdec, hpre]
  refine ⟨⟨d, r, series, hlend, hlenr, hlen, fun k hk => hreadd k (hlend ▸ hk), fun k hk => hreadr k (hlenr ▸ hk),
    fun o ho => ⟨hcorr o ho, hpower o (hlen ▸ ho)⟩, ?_⟩, hpos, hle, fun o ho => ?_, ?_, ?_, ?_, ?_⟩
  · rw [hres]
    exact hstart
  · rw [hcorr o (hlen.symm ▸ ho), hpower o ho, Option.isSome_some]
  · rw [hres]
    exact hstart.trans_le (by omega)
  · rw [hres]
    exact ((congrArg _ hstart).trans (hcorr _ hbest)).trans hpeak.symm
  · rw [hres]
    exact hfrom.trans (by rw [← hstart]; rfl)
  · rw [hres]
    exact hpay.trans (by rw [← hfrom]; rfl)

/-- R95. -/
theorem stageDemap_promised {s s' : State} (h : stageDemap numHw s = .done s') :
    resultsHold .demap s' ∧ promise .demap s' := by
  have hdec := (runStage_entries_other numHw .demap s s' h .dec (by decide)).2 rfl
  obtain ⟨-, -, -, -, -, -, htable, -⟩ := runStage_done_frame numHw .demap s s' h
  obtain ⟨-, zs, hz, hs'⟩ := stageDemap_done numHw s s' h
  have hmem : s'.mem = _ := congrArg State.mem hs'
  have hres : s'.res = _ := congrArg State.res hs'
  have hmax := payloadLen_le s zs hz
  have hlen := (readEach_length _ _ _ hz).trans (payloadIndices_length _)
  have hcodes : resultsHold .demap s' := by
    simp only [resultsHold, hres, htable, hdec, markValid_res]
    intro p hp
    have hzp := readEach_getElem? _ _ _ hz p (by simpa using hp)
    simp only [payloadIndices, List.getElem_map, List.getElem_range] at hzp
    rw [List.getElem?_eq_getElem (by omega)] at hzp
    refine ⟨_, hzp, ?_⟩
    rw [hmem, markValid_mem, realEntry_storeReals _ .code rfl _ p (by rw [List.length_map]; omega) (by omega),
      List.getElem?_map, List.getElem?_eq_getElem (by omega), ← nearest_eq_get_nearestIndex]
    rfl
  refine ⟨hcodes, ?_, fun p hp => ?_⟩
  · rw [hres]
    exact toNat_ofNat_word (by simp only [Config.nMax] at hmax; omega)
  · obtain ⟨z, -, hcode⟩ := hcodes p hp
    refine ⟨_, hcode, ?_⟩
    have := (s'.table.get (nearestIndex numHw s'.table z)).code.isLt
    rw [BitVec.toNat_setWidth]
    omega

/-- R98. -/
theorem stagePack_promised {s s' : State} (h : stagePack s = .done s') :
    resultsHold .pack s' ∧ promise .pack s' := by
  have hcode := (runStage_entries_other numHw .pack s s' h .code (by decide)).1
  obtain ⟨-, codes, hc, hs'⟩ := stagePack_done s s' h
  have hmem : s'.mem = _ := congrArg State.mem hs'
  have hres : s'.res = _ := congrArg State.res hs'
  have hmax := readReals_length_le _ _ _ _ hc
  obtain ⟨hlen, hread⟩ := (readReals_eq_some _ _ _ _).1 hc
  have hbits : s'.res.bitCount = s.res.bitCount := by rw [hres]; rfl
  have hcount : s'.res.charCount.toNat = s.res.bitCount.toNat / 8 := by
    rw [hres]
    exact toNat_ofNat_word ((Nat.div_le_self _ _).trans_lt s.res.bitCount.isLt)
  have hchars : ∀ t < s.res.bitCount.toNat / 8,
      realEntry s'.mem .text t = some (BitVec.ofNat 64 (characterValue codes t)) := fun t ht => by
    rw [hmem, markValid_mem, realEntry_storeReals _ .text rfl _ t (by rwa [packChars_length]) (by omega),
      ← groupChar_bitSequence codes t (by omega)]
    simp [packChars, charCount, ht]
  simp only [resultsHold, promise, hbits, hcount, hcode]
  refine ⟨⟨codes, hlen, fun p hp => hread p (hlen ▸ hp), hchars⟩, trivial, fun t ht => ⟨_, hchars t ht, ?_⟩⟩
  have hlt := characterValue_lt codes t
  rw [toNat_ofNat_word (by omega)]
  exact hlt

/-- A stage that ends sets its VALID bit on what it has just written (R22). -/
theorem runStage_promised {st : Stage} {s s' : State} (h : runStage numHw st s = .done s') :
    resultsHold st s' ∧ promise st s' := by
  cases st with
  | dconv => exact stageDconv_promised h
  | filt => exact stageFilt_promised h
  | decim => exact stageDecim_promised h
  | sync => exact stageSync_promised h
  | demap => exact stageDemap_promised h
  | pack => exact stagePack_promised h

end Sys2Proof.Machine
end

section
/-! The coverage invariant over whole steps, and the faults it leaves (spec/10_state.md R22, R42, R56). -/

namespace Sys2Proof.Machine

/-! ### Every step keeps the coverage invariant -/

/-- A stage that ends keeps the promises of the stages before it and its own; the later bits are cleared (R22). -/
theorem CoverageInv.after_runStage {st : Stage} {s s' : State} (hs : CoverageInv s)
    (h : runStage numHw st s = .done s') : CoverageInv s' := by
  obtain ⟨-, hvalid, -⟩ := runStage_done_frame numHw st s s' h
  rw [coverageInv_iff] at hs ⊢
  intro st₁ hv
  rw [hvalid, stageValid_validAfter, Bool.or_eq_true, Bool.and_eq_true, decide_eq_true_eq, decide_eq_true_eq] at hv
  rcases hv with rfl | ⟨hlt, hv⟩
  · exact runStage_promised h
  · exact (runStage_sameUpTo h hlt).promised (hs st₁ hv)

theorem CoverageInv.after_coreStep {s t : State} (hs : CoverageInv s) (h : coreStep numHw s = .next t) :
    CoverageInv t := by
  rcases coreStep_next numHw s t h with ⟨-, rfl⟩ | ⟨st, rest, s', -, hrun, rfl⟩ | ⟨st, rest, e, -, -, rfl⟩
  · exact hs.congr rfl rfl rfl rfl rfl
  · cases rest <;> exact (hs.after_runStage hrun).congr rfl rfl rfl rfl rfl
  · refine hs.mono (fun st' hv => ?_) rfl rfl rfl rfl
    rw [failStage_valid, stageValid_clearFrom, Bool.and_eq_true] at hv
    exact hv.2

/-- Settles O52: an accepted write to an input and a reset leave no VALID bit set, and of the other changes only a
stage's touches what a VALID bit covers. -/
theorem everyStepKeepsCoverageInv : Obligations.EveryStepKeepsCoverageInv := by
  intro s t hs h
  refine step_induct CoverageInv (hturns := fun s ts hs => hs.congr rfl rfl rfl rfl rfl)
    (hcore := fun s t hs _ h => hs.after_coreStep h) (hread := fun a s hs => ?_)
    (hbus := fun s hs => hs.congr rfl rfl rfl rfl rfl) (hconf := fun s hs => hs.congr rfl rfl rfl rfl rfl)
    (hacc := fun i s _ hs _ => hs.congr rfl rfl rfl rfl rfl) (hill := fun w s hs _ => hs.congr rfl rfl rfl rfl rfl)
    (hsreset := fun s _ => coverageInv_of_valid_zero rfl) (hintr := fun v s hs => hs.congr rfl rfl rfl rfl rfl)
    (hcfg := fun r v s _ _ => coverageInv_of_valid_zero rfl)
    (hconst := fun j f v s _ _ => coverageInv_of_valid_zero rfl)
    (hbuf := fun a b k v s _ _ _ _ => coverageInv_of_valid_zero rfl)
    (hreset := fun s _ => coverageInv_of_valid_zero rfl) s t hs h
  obtain ⟨hvalid, -, -, hcfg, hres, htable, hmem, -⟩ := hostRead_frame a s
  exact hs.congr hvalid hcfg hres htable hmem

/-! ### Only SAMPLE and PRE fault -/

/-- With V_IQ set, FILT finds I and Q written. -/
theorem CoverageInv.filt_not_fault {s : State} (hs : CoverageInv s) (f : Fault) : stageFilt numHw s ≠ .fault f := by
  intro h
  obtain ⟨he, hbody⟩ := afterChecks_fault _ _ _ _ h
  obtain ⟨-, -, hv⟩ := (stageError_filt_eq_none s).1 he
  obtain ⟨-, -, -, hi, hq⟩ := hs.iq hv
  obtain ⟨xi, hxi⟩ := (readReals_isSome _ _ _).2 hi
  obtain ⟨xq, hxq⟩ := (readReals_isSome _ _ _).2 hq
  simp only [hxi, hxq] at hbody
  cases hbody

/-- With V_FILT set, DECIM finds every entry it keeps written: its kept indices are below N (R83). -/
theorem CoverageInv.decim_not_fault {s : State} (hs : CoverageInv s) (f : Fault) : stageDecim s ≠ .fault f := by
  intro h
  obtain ⟨he, hbody⟩ := afterChecks_fault _ _ _ _ h
  obtain ⟨-, -, hv⟩ := (stageError_decim_eq_none s).1 he
  obtain ⟨hi, hq⟩ := hs.filt hv
  have hkept : ∀ k ∈ keptIndices s.cfg, k < s.cfg.n.toNat := by
    simp only [keptIndices, List.mem_map, List.mem_range]
    rintro _ ⟨k, hk, rfl⟩
    exact mul_lt_of_lt_decimatedLength s.cfg k hk
  obtain ⟨xi, hxi⟩ := (readEach_isSome _ _).2 fun k hk => hi k (hkept k hk)
  obtain ⟨xq, hxq⟩ := (readEach_isSome _ _).2 fun k hk => hq k (hkept k hk)
  simp only [hxi, hxq] at hbody
  cases hbody

/-- With V_DEC set, SYNC finds the stream written, so only its preamble can stop it. -/
theorem CoverageInv.sync_fault {s : State} (hs : CoverageInv s) {f : Fault} (h : stageSync numHw s = .fault f) :
    f = .unwrittenEntry .pre := by
  obtain ⟨he, hbody⟩ := afterChecks_fault _ _ _ _ h
  obtain ⟨-, hv, -⟩ := (stageError_sync_eq_none s).1 he
  obtain ⟨-, -, hdec⟩ := hs.dec hv
  obtain ⟨d, hd⟩ := (readComplexes_isSome _ _ _).2 hdec
  simp only [hd] at hbody
  split at hbody
  · rename_i hnone
    cases hnone
  · cases hbody
    rfl
  · cases hbody

/-- With V_SYNC set, DEMAP finds the payload written: it ends where the stream that SYNC read ends (R88). -/
theorem CoverageInv.demap_not_fault {s : State} (hs : CoverageInv s) (f : Fault) : stageDemap numHw s ≠ .fault f := by
  intro h
  obtain ⟨he, hbody⟩ := afterChecks_fault _ _ _ _ h
  have hv := (stageError_demap_eq_none s).1 he
  obtain ⟨d, -, -, hlen, -, -, hread, -⟩ := hs.results .sync hv
  obtain ⟨-, -, -, -, -, -, hpay⟩ := hs.sync hv
  have hsymbols : ∀ k ∈ payloadIndices s.res, (complexEntry s.mem .dec k).isSome = true := by
    simp only [payloadIndices, List.mem_map, List.mem_range]
    rintro _ ⟨p, hp, rfl⟩
    have hk : s.res.payloadStart.toNat + p < d.length := by omega
    exact isSome_of_eq_some ((hread _ hk).trans (List.getElem?_eq_getElem hk))
  obtain ⟨zs, hzs⟩ := (readEach_isSome _ _).2 hsymbols
  simp only [hzs] at hbody
  cases hbody

/-- With V_CODE set, PACK finds the codes written: BIT_COUNT is four bits a payload symbol (R95). -/
theorem CoverageInv.pack_not_fault {s : State} (hs : CoverageInv s) (f : Fault) : stagePack s ≠ .fault f := by
  intro h
  obtain ⟨he, hbody⟩ := afterChecks_fault _ _ _ _ h
  obtain ⟨hbits, hcode⟩ := hs.code ((stageError_pack_eq_none s).1 he)
  have hcodes : ∀ p < s.res.bitCount.toNat / 4, (realEntry s.mem .code p).isSome = true := fun p hp => by
    obtain ⟨w, hw, -⟩ := hcode p (by omega)
    exact isSome_of_eq_some hw
  obtain ⟨codes, hcs⟩ := (readReals_isSome _ _ _).2 hcodes
  simp only [hcs] at hbody
  cases hbody

theorem stageDconv_fault {num : NumRecord} {s : State} {f : Fault} (h : stageDconv num s = .fault f) :
    f = .unwrittenEntry .sample := by
  obtain ⟨-, hbody⟩ := afterChecks_fault _ _ _ _ h
  dsimp only at hbody
  split at hbody
  · cases hbody
    rfl
  · cases hbody

/-- R42: DCONV reads the host's SAMPLE, SYNC the host's PRE; what else a stage reads, its VALID bit covers. -/
theorem CoverageInv.runStage_fault {st : Stage} {s : State} {f : Fault} (hs : CoverageInv s)
    (h : runStage numHw st s = .fault f) : f = .unwrittenEntry .sample ∨ f = .unwrittenEntry .pre := by
  cases st with
  | dconv => exact .inl (stageDconv_fault h)
  | filt => exact absurd h (hs.filt_not_fault f)
  | decim => exact absurd h (hs.decim_not_fault f)
  | sync => exact .inr (hs.sync_fault h)
  | demap => exact absurd h (hs.demap_not_fault f)
  | pack => exact absurd h (hs.pack_not_fault f)

/-- Settles O53: the coverage invariant holds in front of each core step of the step, and alone rules out the other
faults. -/
theorem onlyHostFilledEntriesFault : Obligations.OnlyHostFilledEntriesFault := by
  intro s f _ hs h
  obtain ⟨u, hu, hstop⟩ := step_fault (P := CoverageInv) (fun s ts hs => hs.congr rfl rfl rfl rfl rfl)
    (fun _ _ s hs => hs.congr rfl rfl rfl rfl rfl) (fun s t hs h => hs.after_coreStep h) hs h
  obtain ⟨st, rest, -, hrun⟩ := coreStep_fault numHw u f hstop
  exact hu.runStage_fault hrun

end Sys2Proof.Machine
end

section
/-! The host port over the whole address map (spec/20_memory.md R46 to R57; spec/30_encoding.md R62): which addresses
name nothing, and what an access to an input, a buffer word or CTRL does. -/

namespace Sys2Proof.Machine

/-! ### Which addresses are mapped -/

theorem Reg.offset_of_ofOffset {n : Nat} {r : Reg} (h : Reg.ofOffset n = some r) : r.offset = n := by
  unfold Reg.ofOffset at h
  split at h
  all_goals cases h
  all_goals rfl

theorem Reg.offset_lt (r : Reg) : r.offset < 0xA8 := by
  cases r <;> decide

theorem Buffer.base_of_ofSlot {n : Nat} {b : Buffer} (h : Buffer.ofSlot n = some b) : b.base = 0x10000 * n := by
  unfold Buffer.ofSlot at h
  split at h
  all_goals cases h
  all_goals rfl

/-- R47, R50, R52: an address that names something is aligned and lies in the registers, in the CONST words or in a
buffer's window. -/
theorem mapped_of_busTarget {a : Addr} {x : Target} (h : busTarget a = some x) :
    a.toNat % 8 = 0 ∧
      (a.toNat < 0xA8 ∨ (0x100 ≤ a.toNat ∧ a.toNat < 0x280) ∨ InSomeWindow a.toNat) := by
  unfold busTarget at h
  dsimp only at h
  split at h
  · cases h
  · rename_i haligned
    refine ⟨not_not.1 haligned, ?_⟩
    split at h
    · obtain ⟨r, hr, -⟩ := Option.map_eq_some_iff.1 h
      exact .inl (Reg.offset_of_ofOffset hr ▸ r.offset_lt)
    · split at h
      · exact .inr (.inl (by omega))
      · split at h
        · cases h
        · rename_i b hslot
          have hbase := Buffer.base_of_ofSlot hslot
          split at h
          · exact .inr (.inr ⟨b, by omega, by omega⟩)
          · cases h

/-- R47, R52: an aligned address of the CONST words names a field of an entry. -/
theorem busTarget_const_window (a : Addr) (h8 : a.toNat % 8 = 0) (hlo : 0x100 ≤ a.toNat) (hhi : a.toNat < 0x280) :
    ∃ j f, busTarget a = some (.const j f) := by
  unfold busTarget
  dsimp only
  rw [if_neg (by omega), if_neg (by omega), if_pos hhi]
  exact ⟨_, _, rfl⟩

/-! ### An address that names nothing (R50, R51) -/

theorem step_read_unmapped (s : State) (a : Addr) (ts : List Turn) (ht : s.turns = .read a :: ts)
    (ha : busTarget a = none) : step s = .next { busError s with turns := ts, readData := 0#64 } := by
  rw [step_of_cons s _ ts ht, takeTurn, hostRead, memRead, ha]
  rfl

theorem step_write_unmapped (s : State) (a : Addr) (v : Word) (ts : List Turn) (ht : s.turns = .write a v :: ts)
    (ha : busTarget a = none) : step s = .next { busError s with turns := ts } := by
  rw [step_of_cons s _ ts ht, takeTurn, memWrite, ha]
  rfl

/-- Settles O35: an address that names something is aligned and in one of the listed ranges. -/
theorem misalignedAndUnmappedAccessesAreRefused : Obligations.MisalignedAndUnmappedAccessesAreRefused := by
  intro s a ts hbad
  have hnone : busTarget a = none := by
    refine Option.eq_none_iff_forall_not_mem.2 fun x hx => ?_
    obtain ⟨haligned, hmapped⟩ := mapped_of_busTarget hx
    obtain hmisaligned | hout := hbad
    · exact hmisaligned haligned
    · obtain hreg | ⟨hlo, hhi⟩ | ⟨b, hlo, hhi⟩ := hmapped
      · have := hout (0x00000, 0x000A7) (by decide)
        omega
      · have := hout (0x00100, 0x0027F) (by decide)
        omega
      · have := hout (b.base, b.base + b.span - 1) (by cases b <;> decide)
        omega
  exact ⟨fun ht => step_read_unmapped s a ts ht hnone, fun v ht => step_write_unmapped s a v ts ht hnone⟩

/-! ### Writes to inputs (R49, R56, R57) -/

/-- The registers R25 to R32. -/
def configRegisters : List Reg := [.n, .fsHz, .fcMhz, .cutoffMhz, .decim, .guard, .m, .gain]

theorem regWrite_config (r : Reg) (v : Word) (s : State) (hr : r ∈ configRegisters) :
    regWrite r v s = inputWrite (fun s => { s with cfg := writeConfig s.cfg v r }) s := by
  have hkind : r.readOnly = false ∧ r ≠ .intr := by revert r; decide
  obtain ⟨hro, hintr⟩ := hkind
  rw [regWrite, hro, if_neg Bool.false_ne_true, if_neg hintr]

theorem step_write_config (s : State) (a : Addr) (v : Word) (r : Reg) (ts : List Turn)
    (ht : s.turns = .write a v :: ts) (ha : a.toNat = r.offset) (hr : r ∈ configRegisters) :
    step s = .next (inputWrite (fun s => { s with cfg := writeConfig s.cfg v r }) { s with turns := ts }) := by
  rw [step_write_reg s a v r ts ht ha (by rintro rfl; revert hr; decide), regWrite_config r v _ hr]

theorem step_write_const_window (s : State) (a : Addr) (v : Word) (ts : List Turn) (ht : s.turns = .write a v :: ts)
    (h8 : a.toNat % 8 = 0) (hlo : 0x100 ≤ a.toNat) (hhi : a.toNat < 0x280) :
    ∃ j f, step s = .next (constWrite j f v { s with turns := ts }) := by
  obtain ⟨j, f, ha⟩ := busTarget_const_window a h8 hlo hhi
  exact ⟨j, f, by rw [step_of_cons s _ ts ht, takeTurn, memWrite, ha]⟩

theorem step_write_buffer (s : State) (a : Addr) (v : Word) (b : Buffer) (ts : List Turn)
    (ht : s.turns = .write a v :: ts) (hb : b.hostWritable = true) (h8 : a.toNat % 8 = 0) (hlo : b.base ≤ a.toNat)
    (hhi : a.toNat < b.base + b.span) :
    step s = .next (inputWrite (fun s => { s with mem := writeWord s.mem a.toNat v }) { s with turns := ts }) := by
  obtain ⟨htarget, haddr⟩ := busTarget_buffer a b h8 hlo hhi
  rw [step_of_cons s _ ts ht, takeTurn, memWrite, htarget]
  dsimp only
  rw [bufferWrite, if_pos hb, haddr]

/-- R41, R47: the two windows the host may write are those of SAMPLE and PRE. -/
theorem hostWritable_window {n : Nat} (h : (0x10000 ≤ n ∧ n < 0x18000) ∨ (0x20000 ≤ n ∧ n < 0x30000)) :
    ∃ b : Buffer, b.hostWritable = true ∧ b.base ≤ n ∧ n < b.base + b.span := by
  obtain ⟨hlo, hhi⟩ | ⟨hlo, hhi⟩ := h
  · exact ⟨.sample, rfl, hlo, hhi⟩
  · exact ⟨.pre, rfl, hlo, hhi⟩

/-- Settles O37: each pair of the list is a configuration register's address and the registers with it written. -/
theorem configurationWritesAreStored : Obligations.ConfigurationWritesAreStored := by
  intro s a v c ts ht hb hac
  obtain ⟨r, hr, hpair⟩ := List.mem_map.1 (show (a, c) ∈
    configRegisters.map fun r => (BitVec.ofNat 20 r.offset, writeConfig s.cfg v r) from hac)
  obtain ⟨rfl, rfl⟩ := Prod.mk.inj hpair
  rw [step_write_config s _ v r ts ht r.toNat_offset hr, inputWrite_idle _ { s with turns := ts } hb]
  rfl

/-- Settles O39: the word stored is the one at the write's own address. -/
theorem bufferWritesAreStored : Obligations.BufferWritesAreStored := by
  intro s a v ts ht hb h8 hwindow
  obtain ⟨b, hw, hlo, hhi⟩ := hostWritable_window hwindow
  refine ⟨writeWord s.mem a.toNat v, ?_, readWord_writeWord _ _ _, fun x hx => ?_⟩
  · rw [step_write_buffer s a v b ts ht hw h8 hlo hhi, inputWrite_idle _ { s with turns := ts } hb]
    rfl
  · exact readByte_writeWord_outside _ _ _ _ (hx _ (List.mem_singleton_self _))

/-- Settles O41: whatever input the address names, its write is an `inputWrite`, which a busy core refuses. -/
theorem busyCoreRefusesInputWrites : Obligations.BusyCoreRefusesInputWrites := by
  intro s a v ts ht hb h8 ha
  have hrefused : ∀ store, inputWrite store { s with turns := ts } = hostConflict { s with turns := ts } :=
    fun store => inputWrite_busy store _ hb
  obtain ⟨hlo, hhi⟩ | ⟨hlo, hhi⟩ | hwindow := ha
  · have hoffset : a.toNat ∈ configRegisters.map Reg.offset := by
      simp only [configRegisters, List.map, Reg.offset, List.mem_cons, List.not_mem_nil]
      omega
    obtain ⟨r, hr, hoff⟩ := List.mem_map.1 hoffset
    rw [step_write_config s a v r ts ht hoff.symm hr, hrefused]
    rfl
  · obtain ⟨j, f, hstep⟩ := step_write_const_window s a v ts ht h8 hlo hhi
    rw [hstep, constWrite, hrefused]
    rfl
  · obtain ⟨b, hw, hlo, hhi⟩ := hostWritable_window hwindow
    rw [step_write_buffer s a v b ts ht hw h8 hlo hhi, hrefused]
    rfl

/-! ### Reads of buffer words (R48, R52, R57, R127) -/

theorem readBufferWord_written (b : Buffer) (k : Nat) (s : State) (v : Word)
    (hopen : s.status.busy = false ∨ b.hostWritable = true) (hv : readWord s.mem (b.base + 8 * k) = some v) :
    readBufferWord b k s = (v, s) := by
  have hvisible : (s.status.busy && !b.hostWritable) = false := by
    obtain h | h := hopen <;> simp [h]
  rw [readBufferWord, hvisible, if_neg Bool.false_ne_true, hv]

theorem readBufferWord_unspecified (b : Buffer) (k : Nat) (s : State)
    (h : (s.status.busy = true ∧ b.hostWritable = false) ∨ readWord s.mem (b.base + 8 * k) = none) :
    readBufferWord b k s = draw s := by
  unfold readBufferWord
  split
  · rfl
  · rename_i hvisible
    obtain ⟨hb, hw⟩ | hnone := h
    · simp [hb, hw] at hvisible
    · rw [hnone]

/-- R48, R52: a read of an aligned address in a buffer's window is a read of the word that stands there. -/
theorem step_read_buffer (s : State) (a : Addr) (b : Buffer) (ts : List Turn) (ht : s.turns = .read a :: ts)
    (h8 : a.toNat % 8 = 0) (hlo : b.base ≤ a.toNat) (hhi : a.toNat < b.base + b.span) :
    ∃ k, b.base + 8 * k = a.toNat ∧ step s = .next { (readBufferWord b k { s with turns := ts }).2 with
      readData := (readBufferWord b k { s with turns := ts }).1 } := by
  obtain ⟨htarget, haddr⟩ := busTarget_buffer a b h8 hlo hhi
  exact ⟨_, haddr, by rw [step_of_cons s _ ts ht, takeTurn, hostRead, memRead, htarget]⟩

/-- Settles O40. -/
theorem writtenBufferWordsReadBack : Obligations.WrittenBufferWordsReadBack := by
  intro s a v ts b ht hopen h8 hlo hhi hv
  obtain ⟨k, haddr, hstep⟩ := step_read_buffer s a b ts ht h8 hlo hhi
  rw [← haddr] at hv
  rw [hstep, readBufferWord_written b k { s with turns := ts } v hopen hv]

/-- Settles O42. -/
theorem unspecifiedBufferReadsDraw : Obligations.UnspecifiedBufferReadsDraw := by
  intro s a ts b ht h8 hlo hhi hunspecified
  obtain ⟨k, haddr, hstep⟩ := step_read_buffer s a b ts ht h8 hlo hhi
  rw [← haddr] at hunspecified
  rw [hstep, readBufferWord_unspecified b k { s with turns := ts } hunspecified]
  rfl

/-! ### CTRL writes (R62, R100) -/

/-- Settles O5: the CTRL write decodes its word and runs the command's meaning. -/
theorem stepRunsTheCommandWritten : Obligations.StepRunsTheCommandWritten := by
  intro s w i ts ht hi
  calc step s = memWrite ctrlAddr w { s with turns := ts } := step_of_cons s _ ts ht
    _ = ctrlWrite w { s with turns := ts } := memWrite_ctrl w _
    _ = exec i { s with turns := ts } := ctrlWrite_ok w _ i hi

end Sys2Proof.Machine
end

section
/-! The nine commands and their words (spec/30_encoding.md R64 to R68): decoding inverts encoding, and every other word
is none (R66). -/

namespace Sys2Proof

/-! ### A word and its two fields (R64) -/

/-- A word is its two fields, `RES` above `OPC`. -/
theorem res_append_opc (w : Word) : (cmdFields w).res ++ (cmdFields w).opc = w :=
  (BitVec.extractLsb'_append_extractLsb'_eq_extractLsb' rfl).trans BitVec.extractLsb'_eq_self

/-! ### Decoding inverts encoding (R65) -/

/-- The opcode map is the table's opcode column. -/
theorem decodeOpcode_eq_ok_iff (opc : BitVec 8) (i : Instr) :
    decodeOpcode opc = .ok i ↔ opc = (cmdFields (encodeWord i)).opc := by
  constructor
  · intro h
    unfold decodeOpcode at h
    repeat' split at h
    all_goals cases h
    all_goals assumption
  · rintro rfl
    cases i <;> rfl

theorem decodeWord_eq_ok_iff (w : Word) (i : Instr) : decodeWord w = .ok i ↔ w = encodeWord i := by
  constructor
  · intro h
    unfold decodeWord at h
    dsimp only at h
    split at h
    · rename_i hres
      have hopc := (decodeOpcode_eq_ok_iff _ i).1 h
      calc w = (cmdFields w).res ++ (cmdFields w).opc := (res_append_opc w).symm
        _ = 0#56 ++ (cmdFields (encodeWord i)).opc := by rw [beq_iff_eq.1 hres, hopc]
        _ = encodeWord i := by cases i <;> rfl
    · cases h
  · rintro rfl
    cases i <;> rfl

@[simp] theorem decodeWord_encodeWord (i : Instr) : decodeWord (encodeWord i) = .ok i :=
  (decodeWord_eq_ok_iff _ i).2 rfl

/-- R66: a reserved bit set, or an opcode that is not in the table. -/
theorem decodeWord_illegal (w : Word)
    (hw : w.extractLsb' 8 56 ≠ 0#56 ∨ (8 ≤ w.toNat % 256 ∧ w.toNat % 256 ≠ 15)) :
    ∃ e, decodeWord w = .error e := by
  cases h : decodeWord w with
  | error e => exact ⟨e, rfl⟩
  | ok i =>
    obtain rfl := (decodeWord_eq_ok_iff w i).1 h
    exfalso
    revert hw
    cases i <;> decide

theorem decodeTableWord_legal {nbits w : Nat} {i : Instr} (hw : tableWord nbits w = encodeWord i) :
    decodeTableWord nbits w = some i := by
  rw [decodeTableWord_eq, hw, decodeWord_encodeWord]
  rfl

theorem decodeTableWord_illegal {nbits w : Nat}
    (hw : (tableWord nbits w).extractLsb' 8 56 ≠ 0#56 ∨
      (8 ≤ (tableWord nbits w).toNat % 256 ∧ (tableWord nbits w).toNat % 256 ≠ 15)) :
    decodeTableWord nbits w = none := by
  obtain ⟨e, he⟩ := decodeWord_illegal _ hw
  rw [decodeTableWord_eq, he]
  rfl

/-! ### The statements about encoding -/

/-- Settles O2: the table lists each command with its word. -/
theorem legalWordsAreExactlyTheNine : Obligations.LegalWordsAreExactlyTheNine := by
  intro w i
  rw [decodeWord_eq_ok_iff]
  cases i <;> simp [encodeWord]

/-- Settles O3: an encoded command is the bytes of its word, and a word is read back from its bytes. -/
theorem encodedCommandsDecodeBack : Obligations.EncodedCommandsDecodeBack := by
  intro i rest _
  rw [encode, decode_wordBytes, decodeWord_encodeWord]

/-- Settles O4: each word is an encoding, or has an undefined opcode (0x8, 0x10) or a reserved bit set. -/
theorem sampleWordsDecodeAsTheTableSays : Obligations.SampleWordsDecodeAsTheTableSays :=
  ⟨decodeTableWord_legal rfl, decodeTableWord_legal rfl, decodeTableWord_legal rfl, decodeTableWord_legal rfl,
    decodeTableWord_legal rfl, decodeTableWord_illegal (.inr (by decide)), decodeTableWord_illegal (.inr (by decide)),
    decodeTableWord_illegal (.inl (by decide)), decodeTableWord_illegal (.inl (by decide))⟩

end Sys2Proof

namespace Sys2Proof.Machine

/-! ### A CTRL write of an illegal word (R66, R100) -/

theorem step_ctrl_illegal (s : State) (w : Word) (ts : List Turn) (ht : s.turns = .write ctrlAddr w :: ts)
    (e : DecodeError) (he : decodeWord w = .error e) :
    step s = .next (issueIllegal w { s with turns := ts }) :=
  calc step s = memWrite ctrlAddr w { s with turns := ts } := step_of_cons s _ ts ht
    _ = ctrlWrite w { s with turns := ts } := memWrite_ctrl w _
    _ = .next (issueIllegal w { s with turns := ts }) := ctrlWrite_error w _ e he

theorem issueIllegal_busy (w : Word) (s : State) (hb : s.status.busy = true) :
    issueIllegal w s = hostConflict s := by
  simp [issueIllegal, hb]

theorem issueIllegal_idle (w : Word) (s : State) (hb : s.status.busy = false) :
    issueIllegal w s = illegalCommand w s := by
  simp [issueIllegal, hb]

/-- Settles O6. -/
theorem illegalWordCompletesAtOnceOrIsRefused : Obligations.IllegalWordCompletesAtOnceOrIsRefused := by
  intro s w ts ht hw
  obtain ⟨e, he⟩ := decodeWord_illegal w hw
  have hopc : w.extractLsb' 0 8 = w.setWidth 8 := (BitVec.setWidth_eq_extractLsb' (by decide)).symm
  rw [step_ctrl_illegal s w ts ht e he]
  refine ⟨fun hb => ?_, fun hb => ?_⟩
  · rw [issueIllegal_idle w { s with turns := ts } hb, hopc]
    rfl
  · rw [issueIllegal_busy w { s with turns := ts } hb]
    rfl

end Sys2Proof.Machine
end

section
/-! What a command other than SRESET leaves alone (spec/30_encoding.md R69): the frame common to all of them, and the
VALID bits of the stages before the one that ran (spec/10_state.md R22). -/

namespace Sys2Proof.Machine

/-! ### The core's frame -/

/-- What the core never changes while a command runs (R57, R69). -/
structure CoreFrame (s t : State) : Prop where
  cfg : t.cfg = s.cfg
  table : t.table = s.table
  en : t.intr.en = s.intr.en
  busErr : t.status.busErr = s.status.busErr
  hostConflict : t.status.hostConflict = s.status.hostConflict
  readData : t.readData = s.readData
  draws : t.draws = s.draws

theorem CoreFrame.trans {s t u : State} (h : CoreFrame s t) (h' : CoreFrame t u) : CoreFrame s u :=
  ⟨h'.cfg.trans h.cfg, h'.table.trans h.table, h'.en.trans h.en, h'.busErr.trans h.busErr,
    h'.hostConflict.trans h.hostConflict, h'.readData.trans h.readData, h'.draws.trans h.draws⟩

theorem coreFrame_setTurns (s : State) (ts : List Turn) : CoreFrame s { s with turns := ts } :=
  ⟨rfl, rfl, rfl, rfl, rfl, rfl, rfl⟩

theorem coreFrame_accept (opc : BitVec 8) (stages : List Stage) (s : State) : CoreFrame s (accept opc stages s) :=
  ⟨rfl, rfl, rfl, rfl, rfl, rfl, rfl⟩

/-- A core step reports in the other STATUS fields only (R103, R114). -/
theorem coreStep_busFlags {num : NumRecord} {s t : State} (h : coreStep num s = .next t) :
    t.status.busErr = s.status.busErr ∧ t.status.hostConflict = s.status.hostConflict := by
  rcases coreStep_next num s t h with ⟨-, rfl⟩ | ⟨st, rest, s', -, hrun, rfl⟩ | ⟨st, rest, e, -, -, rfl⟩
  · exact ⟨rfl, rfl⟩
  · obtain ⟨-, -, hstatus, -⟩ := runStage_done_frame num st s s' hrun
    rw [← hstatus]
    cases rest <;> exact ⟨rfl, rfl⟩
  · exact ⟨rfl, rfl⟩

theorem coreStep_coreFrame {num : NumRecord} {s t : State} (h : coreStep num s = .next t) : CoreFrame s t := by
  obtain ⟨hcfg, htable, -, hread, hdraws, hen⟩ := coreStep_frame num s t h
  obtain ⟨hbus, hconf⟩ := coreStep_busFlags h
  exact ⟨hcfg, htable, hen, hbus, hconf, hread, hdraws⟩

/-- R57, R69: a refused command leaves HOST_CONFLICT, any other nothing outside the core's frame. -/
theorem issue_commandFrame {num : NumRecord} {opc : BitVec 8} {stages : List Stage} {s t : State}
    (h : issue num opc stages s = .next t) : commandFrame s t := by
  rcases issue_next num opc stages s t h with ⟨hb, rfl⟩ | ⟨hb, hg⟩
  · exact ⟨rfl, rfl, rfl, rfl, rfl, rfl, by simp [hb]⟩
  · have hframe : CoreFrame s t :=
      grantedSteps_induct num (CoreFrame s) (fun u ts hu => hu.trans (coreFrame_setTurns u ts))
        (fun u v hu _ huv => hu.trans (coreStep_coreFrame huv)) _ _ _ (coreFrame_accept opc stages s) hg
    exact ⟨hframe.cfg, hframe.table, hframe.en, hframe.busErr, hframe.readData, hframe.draws,
      by rw [hframe.hostConflict, hb, Bool.or_false]⟩

theorem exec_commandFrame {i : Instr} (hi : i ≠ .sreset) {s t : State} (h : exec i s = .next t) :
    commandFrame s t := by
  rw [exec_eq_issue i hi] at h
  exact issue_commandFrame h

/-! ### The VALID bits below a stage's own -/

theorem clearFrom_getLsbD_of_lt (st : Stage) (v : BitVec 6) {b : Nat} (hb : b < st.index) :
    (clearFrom st v).getLsbD b = v.getLsbD b := by
  have h6 : b < 6 := hb.trans (by cases st <;> decide)
  rw [clearFrom, BitVec.getLsbD_and, BitVec.getLsbD_ofNat, Nat.testBit_two_pow_sub_one]
  simp [hb, h6]

theorem validAfter_getLsbD_of_lt (st : Stage) (v : BitVec 6) {b : Nat} (hb : b < st.index) :
    (validAfter st v).getLsbD b = v.getLsbD b := by
  rw [validAfter, BitVec.getLsbD_or, clearFrom_getLsbD_of_lt st v hb, BitVec.getLsbD_ofNat, Nat.testBit_two_pow]
  simp [hb.ne']

end Sys2Proof.Machine
end

section
/-! The frame of each stage command and of RUN (spec/10_state.md R42; spec/30_encoding.md R69; R76 to R98): which bytes
and which result registers a stage writes. -/

namespace Sys2Proof.Machine

/-! ### Bytes kept outside windows -/

theorem bytesKeptOutside_of_eq (windows : List (Nat × Nat)) {m m' : Memory} (h : m' = m) :
    bytesKeptOutside windows m m' := fun _ _ => by rw [h]

theorem bytesKeptOutside_storeReals (m : Memory) (b : Buffer) (ws : List Word) {n : Nat} (hn : ws.length = n) :
    bytesKeptOutside [(b.base, 8 * n)] m (storeReals m b ws) := by
  subst hn
  exact fun a ha => readByte_storeReals_outside m b ws a (ha _ (List.mem_singleton_self _))

theorem bytesKeptOutside_storeComplex (m : Memory) (b : Buffer) (zs : List C64) {n : Nat} (hn : zs.length = n) :
    bytesKeptOutside [(b.base, 16 * n)] m (storeComplex m b zs) := by
  subst hn
  exact fun a ha => readByte_storeComplex_outside m b zs a (ha _ (List.mem_singleton_self _))

/-- Two changes of memory, one after the other. -/
theorem bytesKeptOutside.append {ws ws' : List (Nat × Nat)} {m m' m'' : Memory} (h : bytesKeptOutside ws m m')
    (h' : bytesKeptOutside ws' m' m'') : bytesKeptOutside (ws ++ ws') m m'' := fun a ha =>
  (h' a fun w hw => ha w (List.mem_append_right ws hw)).trans (h a fun w hw => ha w (List.mem_append_left ws' hw))

/-! ### What each stage writes -/

/-- The bytes a stage may write: the entries of its outputs that its rule names (R76, R80, R84, R91, R95, R98). -/
def Stage.windows : Stage → State → List (Nat × Nat)
  | .dconv, s => [(Buffer.i.base, 8 * s.cfg.n.toNat), (Buffer.q.base, 8 * s.cfg.n.toNat)]
  | .filt, s => [(Buffer.iF.base, 8 * s.cfg.n.toNat), (Buffer.qF.base, 8 * s.cfg.n.toNat)]
  | .decim, s => [(Buffer.dec.base, 16 * decimatedLength s.cfg)]
  | .sync, s => [(Buffer.corr.base, 8 * (s.res.lLen.toNat - s.cfg.m.toNat + 1))]
  | .demap, s => [(Buffer.code.base, 8 * s.res.payloadLen.toNat)]
  | .pack, s => [(Buffer.text.base, 8 * charCount s.res)]

/-- The result registers that are not a stage's own are the same (R33 to R39). -/
def Stage.OtherResultsKept : Stage → ResultRegs → ResultRegs → Prop
  | .dconv, r, r' => r' = r
  | .filt, r, r' => r' = r
  | .decim, r, r' => r' = { r with lLen := r'.lLen }
  | .sync, r, r' => r'.lLen = r.lLen ∧ r'.bitCount = r.bitCount ∧ r'.charCount = r.charCount
  | .demap, r, r' => r' = { r with bitCount := r'.bitCount }
  | .pack, r, r' => r' = { r with charCount := r'.charCount }

theorem Stage.OtherResultsKept.refl (st : Stage) (r : ResultRegs) : st.OtherResultsKept r r := by
  cases st with
  | sync => exact ⟨rfl, rfl, rfl⟩
  | _ => exact rfl

theorem runStage_otherResultsKept {num : NumRecord} {st : Stage} {s s' : State} (h : runStage num st s = .done s') :
    st.OtherResultsKept s.res s'.res := by
  cases st with
  | dconv =>
    obtain ⟨-, xs, -, rfl⟩ := stageDconv_done num s s' h
    exact rfl
  | filt =>
    obtain ⟨-, xi, xq, -, -, rfl⟩ := stageFilt_done num s s' h
    exact rfl
  | decim =>
    obtain ⟨-, xi, xq, -, -, rfl⟩ := stageDecim_done s s' h
    exact rfl
  | sync =>
    obtain ⟨-, d, r, -, -, rfl⟩ := stageSync_done num s s' h
    exact ⟨rfl, rfl, rfl⟩
  | demap =>
    obtain ⟨-, zs, -, rfl⟩ := stageDemap_done num s s' h
    exact rfl
  | pack =>
    obtain ⟨-, codes, -, rfl⟩ := stagePack_done s s' h
    exact rfl

/-- What a stage stores has the length its rule gives. -/
theorem runStage_bytesKept {num : NumRecord} {st : Stage} {s s' : State} (h : runStage num st s = .done s') :
    bytesKeptOutside (st.windows s) s.mem s'.mem := by
  cases st with
  | dconv =>
    obtain ⟨-, xs, hx, rfl⟩ := stageDconv_done num s s' h
    have hlen := ((readReals_eq_some _ _ _ _).1 hx).1
    refine bytesKeptOutside.append (ws := [_]) (bytesKeptOutside_storeReals _ .i _ ?_)
      (bytesKeptOutside_storeReals _ .q _ ?_)
    · rw [List.length_map, mixFrom_length, hlen]
    · rw [List.length_map, mixFrom_length, hlen]
  | filt =>
    obtain ⟨-, xi, xq, -, -, rfl⟩ := stageFilt_done num s s' h
    exact bytesKeptOutside.append (ws := [_]) (bytesKeptOutside_storeReals _ .iF _ (lowpass_length _ _ _))
      (bytesKeptOutside_storeReals _ .qF _ (lowpass_length _ _ _))
  | decim =>
    obtain ⟨-, xi, xq, hi, hq, rfl⟩ := stageDecim_done s s' h
    have hleni := (readEach_length _ _ _ hi).trans (keptIndices_length _)
    have hlenq := (readEach_length _ _ _ hq).trans (keptIndices_length _)
    refine bytesKeptOutside_storeComplex _ .dec _ ?_
    rw [List.length_zipWith, hleni, hlenq, Nat.min_self]
  | sync =>
    obtain ⟨-, d, r, -, -, rfl⟩ := stageSync_done num s s' h
    exact bytesKeptOutside_storeReals _ .corr _ (correlation_length _ _ _ _ _)
  | demap =>
    obtain ⟨-, zs, hz, rfl⟩ := stageDemap_done num s s' h
    refine bytesKeptOutside_storeReals _ .code _ ?_
    rw [List.length_map, readEach_length _ _ _ hz, payloadIndices_length]
  | pack =>
    obtain ⟨-, codes, -, rfl⟩ := stagePack_done s s' h
    exact bytesKeptOutside_storeReals _ .text _ (packChars_length _ _)

/-! ### The command that runs one stage -/

/-- What the command of a stage leaves alone, whether it was refused, only accepted, or its stage raised or succeeded:
the VALID bits of the earlier stages, the other result registers, the bytes outside its windows (R22, R69, R110). -/
structure StageFrame (st : Stage) (s t : State) : Prop where
  valid : ∀ b < st.index, t.valid.getLsbD b = s.valid.getLsbD b
  res : st.OtherResultsKept s.res t.res
  mem : bytesKeptOutside (st.windows s) s.mem t.mem

theorem stageFrame_of_eq {st : Stage} {s t : State} (hvalid : t.valid = s.valid) (hres : t.res = s.res)
    (hmem : t.mem = s.mem) : StageFrame st s t where
  valid b _ := by rw [hvalid]
  res := hres ▸ .refl st _
  mem := bytesKeptOutside_of_eq _ hmem

/-- R102: the one core step of a stage command ends it. -/
theorem coreStep_stageFrame {num : NumRecord} {st : Stage} {s t : State} (hq : s.opq = [st])
    (h : coreStep num s = .next t) : t.status.busy = false ∧ StageFrame st s t := by
  rcases coreStep_next num s t h with ⟨hq', -⟩ | ⟨st', rest, s', hq', hrun, rfl⟩ | ⟨st', rest, e, hq', -, rfl⟩
  · cases hq.symm.trans hq'
  · cases hq.symm.trans hq'
    obtain ⟨-, hvalid, -⟩ := runStage_done_frame num st s s' hrun
    have hres := runStage_otherResultsKept hrun
    have hmem := runStage_bytesKept hrun
    refine ⟨rfl, fun b hb => ?_, hres, hmem⟩
    rw [afterStage_nil, completeOk_valid, hvalid]
    exact validAfter_getLsbD_of_lt st s.valid hb
  · cases hq.symm.trans hq'
    exact ⟨rfl, fun b hb => clearFrom_getLsbD_of_lt st s.valid hb, .refl st _, fun _ _ => rfl⟩

/-- However many core turns the schedule grants, a stage command takes at most one (log 2). -/
theorem grantedSteps_stageFrame {num : NumRecord} {st : Stage} {ts : List Turn} {s t : State}
    (hb : s.status.busy = true) (hq : s.opq = [st]) (h : grantedSteps num ts s = .next t) : StageFrame st s t := by
  cases ts with
  | nil =>
    cases h
    exact stageFrame_of_eq rfl rfl rfl
  | cons x ts =>
    by_cases hx : x = .core
    · subst hx
      rw [grantedSteps_core num ts s hb, andThen_eq_next] at h
      obtain ⟨u, hu, hrest⟩ := h
      obtain ⟨hidle, hframe⟩ := coreStep_stageFrame hq hu
      rw [grantedSteps_idle num ts u hidle] at hrest
      cases hrest
      exact ⟨hframe.valid, hframe.res, hframe.mem⟩
    · rw [grantedSteps_access num x ts s hx] at h
      cases h
      exact stageFrame_of_eq rfl rfl rfl

theorem issue_stageFrame {num : NumRecord} {opc : BitVec 8} {st : Stage} {s t : State}
    (h : issue num opc [st] s = .next t) : StageFrame st s t := by
  rcases issue_next num opc [st] s t h with ⟨-, rfl⟩ | ⟨-, hg⟩
  · exact stageFrame_of_eq rfl rfl rfl
  · obtain ⟨hvalid, hres, hmem⟩ := grantedSteps_stageFrame rfl rfl hg
    exact ⟨hvalid, hres, by cases st <;> exact hmem⟩

theorem exec_stageFrame (st : Stage) {s t : State} (h : exec st.command s = .next t) :
    commandFrame s t ∧ StageFrame st s t := by
  have hi : st.command ≠ .sreset := by cases st <;> decide
  have hstages : commandStages st.command = [st] := by cases st <;> rfl
  refine ⟨exec_commandFrame hi h, ?_⟩
  rw [exec_eq_issue _ hi, hstages] at h
  exact issue_stageFrame h

/-- Settles O26. -/
theorem dconvFrame : Obligations.DconvFrame := by
  intro s t h
  obtain ⟨hframe, -, hres, hmem⟩ := exec_stageFrame .dconv h
  exact ⟨hframe, hres, hmem⟩

/-- Settles O27. -/
theorem filtFrame : Obligations.FiltFrame := by
  intro s t h
  obtain ⟨hframe, hvalid, hres, hmem⟩ := exec_stageFrame .filt h
  exact ⟨hframe, hres, hvalid 0 (by decide), hmem⟩

/-- Settles O28. -/
theorem decimFrame : Obligations.DecimFrame := by
  intro s t h
  obtain ⟨hframe, hvalid, hres, hmem⟩ := exec_stageFrame .decim h
  exact ⟨hframe, hres, hvalid, hmem⟩

/-- Settles O29. -/
theorem syncFrame : Obligations.SyncFrame := by
  intro s t h
  obtain ⟨hframe, hvalid, ⟨hlen, hbits, hchars⟩, hmem⟩ := exec_stageFrame .sync h
  exact ⟨hframe, hlen, hbits, hchars, hvalid, hmem⟩

/-- Settles O30. -/
theorem demapFrame : Obligations.DemapFrame := by
  intro s t h
  obtain ⟨hframe, hvalid, hres, hmem⟩ := exec_stageFrame .demap h
  exact ⟨hframe, hres, hvalid, hmem⟩

/-- Settles O31. -/
theorem packFrame : Obligations.PackFrame := by
  intro s t h
  obtain ⟨hframe, hvalid, hres, hmem⟩ := exec_stageFrame .pack h
  exact ⟨hframe, hres, hvalid, hmem⟩

/-! ### RUN -/

/-- R42, R69: a stage writes in the windows of its output buffers only. -/
theorem runStage_readByte_outside {num : NumRecord} {st : Stage} {s s' : State} (h : runStage num st s = .done s')
    {a : Nat} (ha : ∀ b ∈ st.outputs, a < b.base ∨ b.base + b.span ≤ a) : readByte s'.mem a = readByte s.mem a := by
  obtain ⟨runs, hruns, hmem⟩ := runStage_writes num st s s' h
  rw [hmem]
  generalize s.mem = m
  clear hmem h
  induction runs generalizing m with
  | nil => rfl
  | cons x runs ih =>
    obtain ⟨hout, hfit⟩ := hruns x (by simp)
    have hx := ha x.1 hout
    calc readByte (runs.foldl (fun m x => writeWords m x.1.base x.2) (writeWords m x.1.base x.2)) a
        = readByte (writeWords m x.1.base x.2) a := ih (fun y hy => hruns y (by simp [hy])) _
      _ = readByte m a := readByte_writeWords_outside m x.1.base x.2 a (by omega)

/-- R41: the windows of the stages' outputs lie between the host's two buffers and the end of TEXT. -/
theorem Stage.outputs_window {st : Stage} {b : Buffer} (hb : b ∈ st.outputs) :
    0x30000 ≤ b.base ∧ b.base + b.span ≤ 0xA8000 := by
  revert hb
  cases st <;> cases b <;> decide

theorem coreStep_readByte_outside {num : NumRecord} {s t : State} (h : coreStep num s = .next t) {a : Nat}
    (ha : a < 0x30000 ∨ 0xA8000 ≤ a) : readByte t.mem a = readByte s.mem a := by
  rcases coreStep_next num s t h with ⟨-, rfl⟩ | ⟨st, rest, s', -, hrun, rfl⟩ | ⟨st, rest, e, -, -, rfl⟩
  · rfl
  · have hmem : (afterStage rest s').mem = s'.mem := by cases rest <;> rfl
    rw [hmem]
    refine runStage_readByte_outside hrun fun b hb => ?_
    have hwindow := Stage.outputs_window hb
    omega
  · rfl

/-- Settles O32: a refusal and an acceptance write no byte, a core step none outside the outputs of the stages. -/
theorem runFrame : Obligations.RunFrame := by
  intro s t h
  refine ⟨exec_commandFrame (by decide) h, fun a ha => ?_⟩
  exact issue_induct numHw (fun u => readByte u.mem a = readByte s.mem a) (fun _ _ hu => hu)
    (fun u v hu _ huv => (coreStep_readByte_outside huv ha).trans hu) _ _ s t rfl (fun _ => rfl) h

end Sys2Proof.Machine
end

section
/-! complex_downconverter: the oscillator phase as an integer pair (spec/41_downconverter.md R75), and the DCONV command
from its acceptance to its completion (R76, R103). -/

namespace Sys2Proof.Machine

/-! ### The oscillator phase (R75) -/

theorem thousand_le_phaseDen {c : ConfigRegs} (hfs : c.fsHz ≠ 0#64) : 1000 ≤ phaseDen c :=
  Nat.le_mul_of_pos_right 1000 (Nat.pos_of_ne_zero fun h => hfs (BitVec.eq_of_toNat_eq h))

/-- The oscillator's phase, in turns, is the reduced one and as many whole turns as the reduction takes away. -/
theorem phase_eq_reduced_add_turns {c : ConfigRegs} (hfs : c.fsHz ≠ 0#64) (n : Nat) :
    (c.fcMhz.toNat / 1000 : ℝ) * (n / c.fsHz.toNat : ℝ) =
      (phaseNum c n : ℝ) / phaseDen c + (c.fcMhz.toNat * n / phaseDen c : ℕ) := by
  have hq : (phaseDen c : ℝ) ≠ 0 := Nat.cast_ne_zero.2 (by have := thousand_le_phaseDen hfs; omega)
  have hden : (phaseDen c : ℝ) = 1000 * c.fsHz.toNat := by rw [phaseDen]; push_cast; rfl
  have hdiv : (c.fcMhz.toNat * n : ℝ) = phaseNum c n + phaseDen c * (c.fcMhz.toNat * n / phaseDen c : ℕ) :=
    mod_cast (Nat.mod_add_div (c.fcMhz.toNat * n) (phaseDen c)).symm
  rw [div_mul_div_comm, ← hden, hdiv, add_div, mul_div_cancel_left₀ _ hq]

/-- Settles O56: cosine and sine do not see whole turns. -/
theorem integerPhaseIsExact : Obligations.IntegerPhaseIsExact := by
  intro c n hfs turns reduced
  have hq := thousand_le_phaseDen hfs
  have hturns : 2 * Real.pi * turns =
      2 * Real.pi * reduced + (c.fcMhz.toNat * n / phaseDen c : ℕ) * (2 * Real.pi) := by
    rw [show turns = reduced + (c.fcMhz.toNat * n / phaseDen c : ℕ) from phase_eq_reduced_add_turns hfs n]
    ring
  refine ⟨hq, Nat.mod_lt _ (by omega), rfl, rfl, ?_, ?_⟩
  · rw [hturns, Real.cos_add_nat_mul_two_pi]
  · rw [hturns, Real.sin_add_nat_mul_two_pi]

/-! ### The completion of a one-stage command -/

/-- A one-stage command given one core turn completes when its stage ends: the stage gives VALID, memory and the result
registers (R101 to R103; log 2). -/
theorem issue_single_done {num : NumRecord} {opc : BitVec 8} {st : Stage} {s s' : State} {ts : List Turn}
    (hb : s.status.busy = false) (ht : s.turns = .core :: ts)
    (hrun : runStage num st (accept opc [st] s) = .done s') :
    issue num opc [st] s = .next (commandDone opc (validAfter st s.valid) s'.mem s'.res ts s) := by
  rw [issue_single num opc st s ts hb ht, hrun]
  obtain ⟨-, hvalid, hstatus, hintr, hinfo, hcfg, htable, -, -, hread, hdraws⟩ := runStage_done_frame num st _ s' hrun
  obtain ⟨status, valid, intr, errInfo, cfg, res, table, mem, opq, turns, readData, draws⟩ := s'
  cases hvalid; cases hstatus; cases hintr; cases hinfo; cases hcfg; cases htable; cases hread; cases hdraws
  rfl

/-! ### DCONV (R76) -/

/-- DCONV ends when its checks pass and the host has written the waveform. -/
theorem stageDconv_ends (num : NumRecord) (s : State) (he : stageError .dconv s = none)
    (hx : realsWritten s.mem .sample s.cfg.n.toNat) : ∃ s', stageDconv num s = .done s' := by
  obtain ⟨xs, hxs⟩ := (readReals_isSome _ _ _).2 hx
  rw [stageDconv, afterChecks_of_none _ _ _ he]
  dsimp only
  rw [hxs]
  exact ⟨_, rfl⟩

/-- The first stage of the pipeline keeps no earlier VALID bit (R22). -/
theorem validAfter_dconv (v : BitVec 6) : validAfter .dconv v = 0b000001#6 := by
  simp [validAfter, clearFrom, Stage.index]

/-- Settles O10: the stage ends, its results are those it promises of the samples, and it writes in its windows only. -/
theorem dconvMixesTheWaveform : Obligations.DconvMixesTheWaveform := by
  intro s ts hb ht hpos hmax hfs hx
  have he : stageError .dconv (accept 0x01#8 [.dconv] s) = none :=
    (stageError_dconv_eq_none _).2 ⟨⟨hpos, hmax⟩, hfs⟩
  obtain ⟨s', hrun⟩ : ∃ s', runStage numHw .dconv (accept 0x01#8 [.dconv] s) = .done s' :=
    stageDconv_ends numHw _ he hx
  have hsample := (runStage_entries_other numHw .dconv _ s' hrun .sample (by decide)).1
  obtain ⟨-, -, -, -, -, hcfg, -⟩ := runStage_done_frame numHw .dconv _ s' hrun
  have hres : s'.res = s.res := (runStage_otherResultsKept hrun :)
  refine ⟨s'.mem, ?_, fun n x hn hxn => ?_, runStage_bytesKept hrun⟩
  · rw [← validAfter_dconv s.valid, ← hres]
    exact issue_single_done hb ht hrun
  · obtain ⟨y, hy, hi, hq⟩ := (stageDconv_promised hrun).1 n (hcfg ▸ hn)
    obtain rfl : x = y := Option.some.inj (hxn.symm.trans ((hsample n).symm.trans hy))
    rw [hcfg] at hi hq
    exact ⟨hi, hq⟩

end Sys2Proof.Machine
end

section
/-! spectral_mask and fft_engine: the laws of the mask (spec/42_spectral_filter.md R78, R81), and the FILT command from
its acceptance to its completion (R80, R103). -/

namespace Sys2Proof.Machine

/-! ### The mask (R78, R81) -/

/-- The mask sees a bin through `min(k, N - k)` only, and `k` and `N - k` share it. -/
theorem keepBin_sub (c : ConfigRegs) {k : Nat} (hk : k ≤ c.n.toNat) : keepBin c (c.n.toNat - k) = keepBin c k := by
  rw [keepBin, keepBin, Nat.sub_sub_self hk, min_comm]

theorem keepBin_zero (c : ConfigRegs) : keepBin c 0 = true :=
  decide_eq_true (by simp)

/-- At the reset configuration `1000 · 153 · 100 = 5100 · 3000`: bin 153 lies exactly at the cutoff. -/
theorem keepBin_default_iff (k : Nat) : keepBin ConfigRegs.default k = true ↔ min k (3000 - k) ≤ 153 := by
  have hmask : keepBin ConfigRegs.default k = true ↔ 1000 * min k (3000 - k) * 100 ≤ 5100 * 3000 := decide_eq_true_iff
  rw [hmask]
  omega

/-- Settles O57: the three laws of the mask. -/
theorem maskIsSymmetricAndKeepsTheCutoffBin : Obligations.MaskIsSymmetricAndKeepsTheCutoffBin :=
  ⟨fun c _ _ hk => (keepBin_sub c hk.le).symm, keepBin_zero, fun k _ => keepBin_default_iff k⟩

/-! ### FILT (R80) -/

/-- FILT ends when its checks pass and I and Q are written. -/
theorem stageFilt_ends {num : NumRecord} {s : State} {xi xq : List F64} (he : stageError .filt s = none)
    (hi : readReals s.mem .i s.cfg.n.toNat = some xi) (hq : readReals s.mem .q s.cfg.n.toNat = some xq) :
    ∃ s', stageFilt num s = .done s' := by
  rw [stageFilt, afterChecks_of_none _ _ _ he]
  dsimp only
  rw [hi, hq]
  exact ⟨_, rfl⟩

/-- What FILT leaves, in terms of the sequences it read: its own inputs are still in place, so they are the sequences
its results are promised of. -/
theorem stageFilt_results {s s' : State} {xi xq : List F64} (h : stageFilt numHw s = .done s')
    (hi : readReals s.mem .i s.cfg.n.toNat = some xi) (hq : readReals s.mem .q s.cfg.n.toNat = some xq) :
    ∀ n < s.cfg.n.toNat,
      realEntry s'.mem .iF n = some (numHw.lpf s.cfg.n.toNat xi (keepBin s.cfg) s.cfg.gain n) ∧
      realEntry s'.mem .qF n = some (numHw.lpf s.cfg.n.toNat xq (keepBin s.cfg) s.cfg.gain n) := by
  have hini := (runStage_entries_other numHw .filt s s' h .i (by decide)).1
  have hinq := (runStage_entries_other numHw .filt s s' h .q (by decide)).1
  obtain ⟨-, -, -, -, -, hcfg, -⟩ := runStage_done_frame numHw .filt s s' h
  obtain ⟨yi, yq, hleni, hlenq, hentries⟩ := (stageFilt_promised h).1
  rw [hcfg] at hleni hlenq hentries
  have hyi : readReals s.mem .i s.cfg.n.toNat = some yi :=
    (readReals_eq_some _ _ _ _).2 ⟨hleni, fun n hn => (hini n).symm.trans (hentries n hn).1⟩
  have hyq : readReals s.mem .q s.cfg.n.toNat = some yq :=
    (readReals_eq_some _ _ _ _).2 ⟨hlenq, fun n hn => (hinq n).symm.trans (hentries n hn).2.1⟩
  obtain rfl : yi = xi := Option.some.inj (hyi.symm.trans hi)
  obtain rfl : yq = xq := Option.some.inj (hyq.symm.trans hq)
  exact fun n hn => (hentries n hn).2.2

/-- The second stage keeps bit V_IQ and no later VALID bit (R22). -/
theorem validAfter_filt {v : BitVec 6} (hv : stageValid v .dconv = true) : validAfter .filt v = 0b000011#6 := by
  revert v
  decide

/-- Settles O11: the stage ends, its results are the lowpass of the sequences it read, and it writes in its windows
only. -/
theorem filtFiltersIAndQ : Obligations.FiltFiltersIAndQ := by
  intro s ts xi xq hb ht hpos hmax hfs hv hleni hlenq hx N keep
  have he : stageError .filt (accept 0x02#8 [.filt] s) = none :=
    (stageError_filt_eq_none _).2 ⟨⟨hpos, hmax⟩, hfs, hv⟩
  have hi : readReals s.mem .i N = some xi := (readReals_eq_some _ _ _ _).2 ⟨hleni, fun n hn => (hx n hn).1⟩
  have hq : readReals s.mem .q N = some xq := (readReals_eq_some _ _ _ _).2 ⟨hlenq, fun n hn => (hx n hn).2⟩
  obtain ⟨s', hrun⟩ : ∃ s', runStage numHw .filt (accept 0x02#8 [.filt] s) = .done s' := stageFilt_ends he hi hq
  have hres : s'.res = s.res := (runStage_otherResultsKept hrun :)
  refine ⟨s'.mem, ?_, stageFilt_results (s := accept 0x02#8 [.filt] s) hrun hi hq, runStage_bytesKept hrun⟩
  rw [← validAfter_filt hv, ← hres]
  exact issue_single_done hb ht hrun

end Sys2Proof.Machine
end

section
/-! fixed_decimator: the DECIM command from its acceptance to its completion (spec/43_decimator.md R83, R84; R103). -/

namespace Sys2Proof.Machine

/-- The entries DECIM reads are among the N its inputs have (R83). -/
theorem lt_n_of_mem_keptIndices {c : ConfigRegs} {k : Nat} (hk : k ∈ keptIndices c) : k < c.n.toNat := by
  obtain ⟨j, hj, rfl⟩ := List.mem_map.1 hk
  exact mul_lt_of_lt_decimatedLength c j (List.mem_range.1 hj)

/-- DECIM ends when its checks pass and IF and QF are written up to N. -/
theorem stageDecim_ends {s : State} (he : stageError .decim s = none) (hi : realsWritten s.mem .iF s.cfg.n.toNat)
    (hq : realsWritten s.mem .qF s.cfg.n.toNat) : ∃ s', stageDecim s = .done s' := by
  obtain ⟨xi, hxi⟩ := (readEach_isSome _ _).2 fun k hk => hi k (lt_n_of_mem_keptIndices hk)
  obtain ⟨xq, hxq⟩ := (readEach_isSome _ _).2 fun k hk => hq k (lt_n_of_mem_keptIndices hk)
  rw [stageDecim, afterChecks_of_none _ _ _ he]
  dsimp only
  rw [hxi, hxq]
  exact ⟨_, rfl⟩

/-- The only result register DECIM writes is L_LEN (R33). -/
theorem stageDecim_res {s s' : State} (h : stageDecim s = .done s') :
    s'.res = { s.res with lLen := BitVec.ofNat 64 (decimatedLength s.cfg) } := by
  obtain ⟨-, xi, xq, -, -, rfl⟩ := stageDecim_done s s' h
  rfl

/-- What DECIM leaves, in terms of the entries it found: IF and QF are still in place, so its promise is about them. -/
theorem stageDecim_copies {s s' : State} (h : stageDecim s = .done s') {k : Nat} {re im : F64}
    (hk : k < decimatedLength s.cfg) (hre : realEntry s.mem .iF (k * s.cfg.decim.toNat) = some re)
    (him : realEntry s.mem .qF (k * s.cfg.decim.toNat) = some im) : complexEntry s'.mem .dec k = some ⟨re, im⟩ := by
  have hiF := (runStage_entries_other numHw .decim s s' h .iF (by decide)).1
  have hqF := (runStage_entries_other numHw .decim s s' h .qF (by decide)).1
  obtain ⟨-, -, -, -, -, hcfg, -⟩ := runStage_done_frame numHw .decim s s' h
  obtain ⟨hcopy, -, hlen, -⟩ := stageDecim_promised h
  rw [hcfg] at hlen
  obtain ⟨re', im', hre', him', hdec⟩ := hcopy k (hlen ▸ hk)
  rw [hcfg] at hre' him'
  obtain rfl : re = re' := Option.some.inj (hre.symm.trans ((hiF _).symm.trans hre'))
  obtain rfl : im = im' := Option.some.inj (him.symm.trans ((hqF _).symm.trans him'))
  exact hdec

/-- The third stage keeps the two VALID bits before its own and no later one (R22). -/
theorem validAfter_decim (v : BitVec 6) : validAfter .decim v = (v &&& 0b000011#6) ||| 0b000100#6 := rfl

/-- Settles O12: the stage ends, copies the kept entries, and writes L_LEN and in its window only. -/
theorem decimKeepsEveryDthEntry : Obligations.DecimKeepsEveryDthEntry := by
  intro s ts hb ht hpos hmax hdecim hv hi hq D L
  have he : stageError .decim (accept 0x03#8 [.decim] s) = none :=
    (stageError_decim_eq_none _).2 ⟨⟨hpos, hmax⟩, hdecim, hv⟩
  obtain ⟨s', hrun⟩ : ∃ s', runStage numHw .decim (accept 0x03#8 [.decim] s) = .done s' := stageDecim_ends he hi hq
  have hres : s'.res = { s.res with lLen := BitVec.ofNat 64 L } :=
    stageDecim_res (s := accept 0x03#8 [.decim] s) hrun
  refine ⟨s'.mem, ?_, fun k re im hk hre him => stageDecim_copies hrun hk hre him, runStage_bytesKept hrun⟩
  rw [← validAfter_decim, ← hres]
  exact issue_single_done hb ht hrun

end Sys2Proof.Machine
end

section
/-! complex_correlator: what the loop of R87 finds, and the SYNC command from its acceptance to its completion
(spec/44_synchronizer.md R85 to R88, R91; spec/47_control.md R103). -/

namespace Sys2Proof.Machine

/-! ### What the loop of R87 finds -/

theorem F64.gt_eq_true_iff (a b : F64) :
    F64.gt a b = true ↔ F64.isNaN a = false ∧ F64.isNaN b = false ∧ F64.rank b < F64.rank a := by
  simp only [F64.gt, F64.lt, Bool.and_eq_true, Bool.not_eq_true', decide_eq_true_eq, and_assoc]
  exact and_left_comm

/-- Between words that are no NaN the comparison is that of their ranks (R9). -/
theorem F64.gt_eq_decide_rank {a b : F64} (ha : F64.isNaN a = false) (hb : F64.isNaN b = false) :
    F64.gt a b = decide (F64.rank b < F64.rank a) := by
  simp [F64.gt, F64.lt, ha, hb]

theorem F64.gt_self (a : F64) : F64.gt a a = false := by simp [F64.gt, F64.lt]

/-- What holds of the candidate at offset 1 and is kept by each turn of the loop, holds of the start index. `P o best`
speaks of the candidate `best` before offset `o` is looked at. -/
theorem firstMaxIndex_induct {series : List F64} (P : Nat → Nat → Prop) (hne : series ≠ []) (h0 : P 1 0)
    (hstep : ∀ o best, P o best → P (o + 1) (laterIfGreater series best o)) :
    P series.length (firstMaxIndex series) := by
  have hfold : ∀ n, P (1 + n) ((List.range' 1 n).foldl (laterIfGreater series) 0) := by
    intro n
    induction n with
    | zero => exact h0
    | succ n ih =>
      rw [List.range'_1_concat, List.foldl_concat]
      exact hstep (1 + n) _ ih
  have hlen : 1 + (series.length - 1) = series.length := by
    have := List.length_pos_iff.2 hne
    omega
  rw [firstMaxIndex_eq]
  simpa only [hlen] using hfold (series.length - 1)

/-- R87: no word is greater than a NaN, so a NaN at index 0 stays the candidate. -/
theorem firstMaxIndex_of_isNaN {series : List F64} (hne : series ≠ [])
    (h : F64.isNaN (series.getD 0 0#64) = true) : firstMaxIndex series = 0 := by
  refine firstMaxIndex_induct (fun _ best => best = 0) hne rfl fun o best hbest => ?_
  subst hbest
  refine if_neg fun hgt => ?_
  obtain ⟨-, hnan, -⟩ := (F64.gt_eq_true_iff _ _).1 hgt
  exact Bool.false_ne_true (hnan.symm.trans h)

/-- R87: a NaN is greater than no word, so none replaces the candidate. -/
theorem firstMaxIndex_eq_zero_of_isNaN {series : List F64} (hne : series ≠ []) :
    F64.isNaN (series.getD (firstMaxIndex series) 0#64) = true → firstMaxIndex series = 0 := by
  refine firstMaxIndex_induct (fun _ best => F64.isNaN (series.getD best 0#64) = true → best = 0) hne (fun _ => rfl)
    fun o best hbest => ?_
  unfold laterIfGreater
  split
  · rename_i hgt
    obtain ⟨hnan, -⟩ := (F64.gt_eq_true_iff _ _).1 hgt
    exact fun h => absurd (hnan.symm.trans h) Bool.false_ne_true
  · exact hbest

/-- Index `best` holds a greatest word of the first `n`, and every word before it is smaller (R87). -/
structure IsFirstMax (series : List F64) (n best : Nat) : Prop where
  none_greater : ∀ k < n, F64.gt (series.getD k 0#64) (series.getD best 0#64) = false
  earlier_smaller : ∀ k < best, F64.gt (series.getD best 0#64) (series.getD k 0#64) = true

/-- One more word of a series with no NaN: it becomes the candidate exactly when it is greater. -/
theorem IsFirstMax.after_laterIfGreater {series : List F64} (hnan : ∀ k, F64.isNaN (series.getD k 0#64) = false)
    {o best : Nat} (h : IsFirstMax series o best) : IsFirstMax series (o + 1) (laterIfGreater series best o) := by
  have hrank : ∀ j k, F64.gt (series.getD j 0#64) (series.getD k 0#64) =
      decide (F64.rank (series.getD k 0#64) < F64.rank (series.getD j 0#64)) :=
    fun j k => F64.gt_eq_decide_rank (hnan j) (hnan k)
  obtain ⟨hmax, hfirst⟩ := h
  unfold laterIfGreater
  split
  · rename_i hgt
    simp only [hrank, decide_eq_true_eq, decide_eq_false_iff_not, not_lt] at hmax hgt
    have hsmaller : ∀ k < o, F64.rank (series.getD k 0#64) < F64.rank (series.getD o 0#64) :=
      fun k hk => (hmax k hk).trans_lt hgt
    refine ⟨fun k hk => ?_, fun k hk => ?_⟩
    · rw [hrank, decide_eq_false_iff_not, not_lt]
      rcases Nat.lt_succ_iff_lt_or_eq.1 hk with hk | rfl
      · exact (hsmaller k hk).le
      · exact le_rfl
    · rw [hrank, decide_eq_true_eq]
      exact hsmaller k hk
  · rename_i hgt
    refine ⟨fun k hk => ?_, hfirst⟩
    rcases Nat.lt_succ_iff_lt_or_eq.1 hk with hk | rfl
    · exact hmax k hk
    · exact Bool.eq_false_iff.2 hgt

/-- R87: in a series with no NaN the loop finds the first index of maximum power. -/
theorem firstMaxIndex_isFirstMax {series : List F64} (hne : series ≠ [])
    (hnan : ∀ w ∈ series, F64.isNaN w = false) : IsFirstMax series series.length (firstMaxIndex series) := by
  have hnan' : ∀ k, F64.isNaN (series.getD k 0#64) = false := by
    intro k
    rw [List.getD_eq_getElem?_getD]
    cases hk : series[k]? with
    | none => exact F64.isNaN_zero
    | some w => exact hnan w (List.mem_of_getElem? hk)
  refine firstMaxIndex_induct (IsFirstMax series) hne ⟨fun k hk => ?_, fun k hk => absurd hk (Nat.not_lt_zero k)⟩
    fun o best h => h.after_laterIfGreater hnan'
  obtain rfl : k = 0 := by omega
  exact F64.gt_self _

/-- R87: the word at the start index. -/
theorem getElem?_firstMaxIndex {series : List F64} (hne : series ≠ []) :
    series[firstMaxIndex series]? = some (series.getD (firstMaxIndex series) 0#64) := by
  have hbest := firstMaxIndex_lt series hne
  rw [List.getElem?_eq_getElem hbest, List.getD_eq_getElem _ _ hbest]

/-- Settles O58: the scan is the loop of R87 on indices, and each law is an induction over that loop. -/
theorem startIndexIsTheFirstMaximum : Obligations.StartIndexIsTheFirstMaximum := by
  intro series hne
  rw [argmaxFirst_eq series hne]
  refine ⟨rfl, getElem?_firstMaxIndex hne, firstMaxIndex_of_isNaN hne, firstMaxIndex_eq_zero_of_isNaN hne,
    fun hnan => ?_⟩
  obtain ⟨hmax, hfirst⟩ := firstMaxIndex_isFirstMax hne hnan
  refine ⟨fun w hw => ?_, hfirst⟩
  obtain ⟨k, hk, rfl⟩ := List.getElem_of_mem hw
  rw [← List.getD_eq_getElem series 0#64 hk]
  exact hmax k hk

/-! ### SYNC (R91) -/

/-- The power word of lag `o` (R85, R86). -/
theorem correlation_getElem? (num : NumRecord) {L M o : Nat} (d r : List C64) (ho : o ≤ L - M) :
    (correlation num L M d r)[o]? = some (num.corrPower M ((d.drop o).take M) r) := by
  simp [correlation, lagWindow, Nat.lt_succ_of_le ho]

theorem correlation_ne_nil (num : NumRecord) (L M : Nat) (d r : List C64) : correlation num L M d r ≠ [] :=
  List.ne_nil_of_length_pos (by rw [correlation_length]; exact Nat.succ_pos _)

/-- The result registers SYNC writes, by the loop of R87. -/
theorem syncResults_eq (c : ConfigRegs) (L : Nat) {series : List F64} (r : ResultRegs) (hne : series ≠ []) :
    syncResults c L series r = { r with
      startIndex := BitVec.ofNat 64 (firstMaxIndex series)
      peakPower := series.getD (firstMaxIndex series) 0#64
      payloadStart := BitVec.ofNat 64 (min (firstMaxIndex series + c.guard.toNat) L)
      payloadLen := BitVec.ofNat 64 (L - min (firstMaxIndex series + c.guard.toNat) L) } := by
  rw [syncResults, argmaxFirst_eq series hne]
  rfl

/-- SYNC ends when its checks pass and the stream and the preamble are written. -/
theorem stageSync_ends {num : NumRecord} {s : State} {d r : List C64} (he : stageError .sync s = none)
    (hd : readComplexes s.mem .dec s.res.lLen.toNat = some d) (hr : readComplexes s.mem .pre s.cfg.m.toNat = some r) :
    stageSync num s = .done (markValid .sync { s with
      mem := storeReals s.mem .corr (correlation num s.res.lLen.toNat s.cfg.m.toNat d r)
      res := syncResults s.cfg s.res.lLen.toNat (correlation num s.res.lLen.toNat s.cfg.m.toNat d r) s.res }) := by
  rw [stageSync, afterChecks_of_none _ _ _ he]
  dsimp only
  rw [hd, hr]

/-- The fourth stage keeps the three VALID bits before its own and no later one (R22). -/
theorem validAfter_sync (v : BitVec 6) : validAfter .sync v = (v &&& 0b000111#6) ||| 0b001000#6 := rfl

/-- Settles O13: the stage ends with the series of all lags in CORR; its registers are what the loop of R87 finds in
that series, and it writes in its window only. -/
theorem syncFindsTheStartIndex : Obligations.SyncFindsTheStartIndex := by
  intro s ts d r hb ht hpos hmax hv hle hlend hdec hlenr hpre L M
  have he : stageError .sync (accept 0x04#8 [.sync] s) = none :=
    (stageError_sync_eq_none _).2 ⟨⟨hpos, hmax⟩, hv, hle⟩
  have hd : readComplexes s.mem .dec L = some d :=
    (readComplexes_eq_some _ _ _ _).2 ⟨hlend, fun k hk => hdec k (hk.trans_eq hlend.symm)⟩
  have hr : readComplexes s.mem .pre M = some r :=
    (readComplexes_eq_some _ _ _ _).2 ⟨hlenr, fun k hk => hpre k (hk.trans_eq hlenr.symm)⟩
  have hrun : runStage numHw .sync (accept 0x04#8 [.sync] s) = .done _ := stageSync_ends he hd hr
  have hL : L ≤ Config.nMax := readComplexes_length_le _ _ _ _ hd
  have hlen : (correlation numHw L M d r).length = L - M + 1 := correlation_length numHw L M d r
  refine ⟨storeReals s.mem .corr (correlation numHw L M d r), correlation numHw L M d r, hlen,
    fun o ho => ⟨correlation_getElem? numHw d r ho, ?_⟩, ?_, runStage_bytesKept hrun⟩
  · exact realEntry_storeReals _ _ rfl _ _ (by omega) (by omega)
  · dsimp only
    rw [← validAfter_sync, ← syncResults_eq s.cfg L s.res (correlation_ne_nil numHw L M d r)]
    exact issue_single_done hb ht hrun

end Sys2Proof.Machine
end

section
/-! qam_demodulator: what the loop of R93 finds, and the DEMAP command from its acceptance to its completion
(spec/45_demapper.md R92, R93, R95, R96; spec/47_control.md R103). -/

namespace Sys2Proof.Machine

/-! ### The first point at minimum distance (R93) -/

/-- Under `NUM_REF` the loop of R93 is the first-minimum search of the entries by squared distance. -/
theorem nearestIndex_mem_argmin (table : Vector ConstPoint 16) (z : C64) :
    nearestIndex numRef table z ∈ (List.finRange 16).argmin fun j => distanceSq z table[j].point := by
  rw [nearestIndex, List.argmin, List.finRange_succ, List.tail_cons, List.foldl_cons]
  refine List.foldl_hom some fun best j => ?_
  simp only [List.argAux, numRef, refCloser, decide_eq_true_eq]
  exact (apply_ite some _ _ _).symm

theorem distanceSq_nearestIndex_le (table : Vector ConstPoint 16) (z : C64) (j : Fin 16) :
    distanceSq z table[nearestIndex numRef table z].point ≤ distanceSq z table[j].point :=
  List.le_of_mem_argmin (f := fun j : Fin 16 => distanceSq z table[j].point) (List.mem_finRange j)
    (nearestIndex_mem_argmin table z)

/-- An entry before the one found is not at the minimum distance too. -/
theorem distanceSq_nearestIndex_lt (table : Vector ConstPoint 16) (z : C64) (j : Fin 16)
    (hj : j < nearestIndex numRef table z) :
    distanceSq z table[nearestIndex numRef table z].point < distanceSq z table[j].point := by
  by_contra hle
  have hfirst := List.index_of_argmin (nearestIndex_mem_argmin table z) (List.mem_finRange j) (not_lt.1 hle)
  rw [List.idxOf_finRange, List.idxOf_finRange] at hfirst
  exact absurd hj (not_lt.2 hfirst)

/-! ### The order of the reset table (R40, R93) -/

/-- The four levels of the grid, ascending. -/
def gridLevel : Fin 4 → F64 :=
  ![0xC008000000000000#64, 0xBFF0000000000000#64, 0x3FF0000000000000#64, 0x4008000000000000#64]

theorem gridLevel_lt : ∀ a b : Fin 4, a < b → F64.lt (gridLevel a) (gridLevel b) = true := by decide

/-- R40: entry `j` has the real level of number `j div 4` and the imaginary level of number `j mod 4`. -/
theorem resetTable_point : ∀ j : Fin 16, resetTable[j].point =
    ⟨gridLevel (Fin.divNat (m := 4) (n := 4) j), gridLevel (Fin.modNat (m := 4) (n := 4) j)⟩ := by decide

/-- R93: by the real level first, then by the imaginary one, both ascending. -/
theorem resetTable_ascending (j k : Fin 16) (h : j < k) :
    F64.lt resetTable[j].point.re resetTable[k].point.re = true ∨
      resetTable[j].point.re = resetTable[k].point.re ∧
        F64.lt resetTable[j].point.im resetTable[k].point.im = true := by
  rw [resetTable_point, resetTable_point]
  have hdigits : Fin.divNat (m := 4) (n := 4) j < Fin.divNat (m := 4) (n := 4) k ∨
      Fin.divNat (m := 4) (n := 4) j = Fin.divNat (m := 4) (n := 4) k ∧
        Fin.modNat (m := 4) (n := 4) j < Fin.modNat (m := 4) (n := 4) k := by
    simp only [Fin.lt_def, Fin.ext_iff, Fin.coe_divNat, Fin.coe_modNat] at h ⊢
    omega
  rcases hdigits with hre | ⟨hre, him⟩
  · exact .inl (gridLevel_lt _ _ hre)
  · exact .inr ⟨congrArg gridLevel hre, gridLevel_lt _ _ him⟩

/-- Settles O59: the scan is the loop of R93 on indices, and under `NUM_REF` that loop is a first-minimum search.
Finiteness is not needed for it, since the model gives every word a number (log 14). -/
theorem nearestIsTheFirstMinimum : Obligations.NearestIsTheFirstMinimum :=
  ⟨nearest_eq_get_nearestIndex,
    fun table z _ _ => ⟨distanceSq_nearestIndex_le table z, distanceSq_nearestIndex_lt table z⟩,
    resetTable_ascending⟩

/-! ### Every point maps to itself (R96) -/

theorem distanceSq_self (z : C64) : distanceSq z z = 0 := by simp [distanceSq]

/-- R92: points that differ as numbers are at a positive distance. -/
theorem distanceSq_pos {z a : C64} (h : C64.toComplex a ≠ C64.toComplex z) : 0 < distanceSq z a := by
  refine (add_nonneg (sq_nonneg _) (sq_nonneg _)).lt_of_ne' fun h0 => h ?_
  obtain ⟨hre, him⟩ := (add_eq_zero_iff_of_nonneg (sq_nonneg _) (sq_nonneg _)).1 h0
  rw [sq_eq_zero_iff, sub_eq_zero] at hre him
  rw [C64.toComplex, C64.toComplex, hre, him]

/-- Settles O60: the entry found for a point is at distance 0 from it, as the point's own entry is, and no other entry
is. -/
theorem eachPointMapsToItself : Obligations.EachPointMapsToItself := by
  intro table j _ hdistinct
  have hpos : ∀ k : Fin 16, k ≠ j → 0 < distanceSq table[j].point table[k].point :=
    fun k hk => distanceSq_pos (hdistinct k j hk)
  have hself := distanceSq_self table[j].point
  have hbest : nearestIndex numRef table table[j].point = j := by
    by_contra hne
    have hmin := distanceSq_nearestIndex_le table table[j].point j
    exact absurd (hpos _ hne) (not_lt.2 (hmin.trans_eq hself))
  refine ⟨hbest, ?_, hself, hpos⟩
  rw [nearest_eq_get_nearestIndex, hbest]
  rfl

/-! ### DEMAP (R95) -/

/-- DEMAP ends when its check passes and the payload symbols are written. -/
theorem stageDemap_ends {num : NumRecord} {s : State} (he : stageError .demap s = none)
    (hz : ∀ p < s.res.payloadLen.toNat, (complexEntry s.mem .dec (s.res.payloadStart.toNat + p)).isSome = true) :
    ∃ s', stageDemap num s = .done s' := by
  obtain ⟨zs, hzs⟩ : ∃ zs, readEach (complexEntry s.mem .dec) (payloadIndices s.res) = some zs := by
    refine (readEach_isSome _ _).2 fun k hk => ?_
    obtain ⟨p, hp, rfl⟩ := List.mem_map.1 hk
    exact hz p (List.mem_range.1 hp)
  rw [stageDemap, afterChecks_of_none _ _ _ he]
  dsimp only
  rw [hzs]
  exact ⟨_, rfl⟩

/-- The only result register DEMAP writes is BIT_COUNT (R38). -/
theorem stageDemap_res {num : NumRecord} {s s' : State} (h : stageDemap num s = .done s') :
    s'.res = { s.res with bitCount := BitVec.ofNat 64 (4 * s.res.payloadLen.toNat) } := by
  obtain ⟨-, zs, -, rfl⟩ := stageDemap_done num s s' h
  rfl

/-- What DEMAP leaves, in terms of the symbols it found: DEC, the table and the payload bounds are still in place, so
its promise is about them. -/
theorem stageDemap_codes {s s' : State} (h : stageDemap numHw s = .done s') {p : Nat} {z : C64}
    (hp : p < s.res.payloadLen.toNat) (hz : complexEntry s.mem .dec (s.res.payloadStart.toNat + p) = some z) :
    realEntry s'.mem .code p = some ((s.table.get (nearestIndex numHw s.table z)).code.setWidth 64) := by
  have hdec := (runStage_entries_other numHw .demap s s' h .dec (by decide)).2 rfl
  obtain ⟨-, -, -, -, -, -, htable, -⟩ := runStage_done_frame numHw .demap s s' h
  obtain ⟨hcodes, -⟩ := stageDemap_promised h
  rw [resultsHold, stageDemap_res h, htable] at hcodes
  obtain ⟨z', hz', hcode⟩ := hcodes p hp
  obtain rfl : z = z' := Option.some.inj (hz.symm.trans ((hdec _).symm.trans hz'))
  exact hcode

/-- The fifth stage keeps the four VALID bits before its own and no later one (R22). -/
theorem validAfter_demap (v : BitVec 6) : validAfter .demap v = (v &&& 0b001111#6) ||| 0b010000#6 := rfl

/-- Settles O14: the stage ends, codes the symbols it read, and writes BIT_COUNT and in its window only. -/
theorem demapMapsEachSymbolToItsNearestCode : Obligations.DemapMapsEachSymbolToItsNearestCode := by
  intro s ts hb ht hv hz
  have he : stageError .demap (accept 0x05#8 [.demap] s) = none := (stageError_demap_eq_none _).2 hv
  obtain ⟨s', hrun⟩ : ∃ s', runStage numHw .demap (accept 0x05#8 [.demap] s) = .done s' := stageDemap_ends he hz
  have hres : s'.res = { s.res with bitCount := BitVec.ofNat 64 (4 * s.res.payloadLen.toNat) } :=
    stageDemap_res (s := accept 0x05#8 [.demap] s) hrun
  refine ⟨s'.mem, ?_, fun p z hp hz => stageDemap_codes hrun hp hz, runStage_bytesKept hrun⟩
  rw [← validAfter_demap, ← hres]
  exact issue_single_done hb ht hrun

end Sys2Proof.Machine
end

section
/-! bit_packer: a character as the codes of two symbols, and the PACK command from its acceptance to its completion
(spec/46_bit_packer.md R97 to R99; spec/47_control.md R103). -/

namespace Sys2Proof.Machine

/-! ### A character is two codes (R97, R98) -/

/-- The four bits R97 takes from a code, the first the most significant, are the numeral in bits 3:0. -/
theorem toNat_code (w : Word) : (w.extractLsb' 0 4).toNat =
    8 * (w.getLsbD 3).toNat + 4 * (w.getLsbD 2).toNat + 2 * (w.getLsbD 1).toNat + (w.getLsbD 0).toNat := by
  have hnibble : ∀ n : BitVec 4, n.toNat =
      8 * (n.getLsbD 3).toNat + 4 * (n.getLsbD 2).toNat + 2 * (n.getLsbD 1).toNat + (n.getLsbD 0).toNat := by decide
  simpa using hnibble (w.extractLsb' 0 4)

/-- R97: the bits of code `p` stand at `4p` to `4p + 3`, the most significant first. -/
theorem sequenceBit_of_code {codes : List Word} {p i : Nat} {w : Word} (hw : codes[p]? = some w) (hi : i < 4) :
    sequenceBit codes (4 * p + i) = w.getLsbD (3 - i) := by
  have hdiv : (4 * p + i) / 4 = p := by omega
  have hmod : (4 * p + i) % 4 = i := by omega
  rw [sequenceBit, hdiv, hmod, List.getD_eq_getElem?_getD, hw, Option.getD_some]

/-- The first four bits of group `t` are code `2t`, the last four code `2t + 1`. -/
theorem characterValue_eq_two_codes {codes : List Word} {t : Nat} {hi lo : Word} (hhi : codes[2 * t]? = some hi)
    (hlo : codes[2 * t + 1]? = some lo) :
    characterValue codes t = 16 * (hi.extractLsb' 0 4).toNat + (lo.extractLsb' 0 4).toNat := by
  have hfirst : ∀ i < 4, sequenceBit codes (8 * t + i) = hi.getLsbD (3 - i) := fun i h4 => by
    rw [← sequenceBit_of_code hhi h4]
    congr 1
    omega
  have hlast : ∀ i < 4, sequenceBit codes (8 * t + (4 + i)) = lo.getLsbD (3 - i) := fun i h4 => by
    rw [← sequenceBit_of_code hlo h4]
    congr 1
    omega
  have hsplit : characterValue codes t = ∑ i ∈ Finset.range 4, (hi.getLsbD (3 - i)).toNat * 2 ^ (7 - i) +
      ∑ i ∈ Finset.range 4, (lo.getLsbD (3 - i)).toNat * 2 ^ (7 - (4 + i)) := by
    rw [characterValue, Finset.sum_range_add _ 4 4]
    congr 1 <;> refine Finset.sum_congr rfl fun i h4 => ?_
    · rw [hfirst i (Finset.mem_range.1 h4)]
    · rw [hlast i (Finset.mem_range.1 h4)]
  rw [hsplit, toNat_code, toNat_code]
  simp only [Finset.sum_range_succ, Finset.sum_range_zero, Nat.reduceSub]
  omega

/-- Two 4-bit codes side by side, zero-extended to a word. -/
theorem ofNat_two_codes (hi lo : BitVec 4) : BitVec.ofNat 64 (16 * hi.toNat + lo.toNat) = 0#56 ++ hi ++ lo := by
  refine BitVec.eq_of_toNat_eq ?_
  rw [BitVec.toNat_append, BitVec.toNat_append, ← Nat.shiftLeft_add_eq_or_of_lt lo.isLt,
    ← Nat.shiftLeft_add_eq_or_of_lt hi.isLt, Nat.shiftLeft_eq, Nat.shiftLeft_eq, BitVec.toNat_ofNat,
    BitVec.toNat_ofNat]
  omega

/-! ### PACK (R98) -/

/-- PACK ends when its check passes and the codes are written. -/
theorem stagePack_ends {s : State} {codes : List Word} (he : stageError .pack s = none)
    (hc : readReals s.mem .code (s.res.bitCount.toNat / 4) = some codes) : ∃ s', stagePack s = .done s' := by
  rw [stagePack, afterChecks_of_none _ _ _ he]
  dsimp only
  rw [hc]
  exact ⟨_, rfl⟩

/-- The only result register PACK writes is CHAR_COUNT (R39). -/
theorem stagePack_res {s s' : State} (h : stagePack s = .done s') :
    s'.res = { s.res with charCount := BitVec.ofNat 64 (s.res.bitCount.toNat / 8) } := by
  obtain ⟨-, codes, -, rfl⟩ := stagePack_done s s' h
  rfl

/-- R39: CHAR_COUNT is `BIT_COUNT div 8`, which fits in a word. -/
theorem stagePack_charCount {s s' : State} (h : stagePack s = .done s') :
    s'.res.charCount.toNat = s.res.bitCount.toNat / 8 := by
  rw [stagePack_res h]
  exact toNat_ofNat_word ((Nat.div_le_self _ _).trans_lt s.res.bitCount.isLt)

/-- What PACK leaves, in terms of the codes it found: CODE and BIT_COUNT are still in place, so its promise is about
them. -/
theorem stagePack_chars {s s' : State} {codes : List Word} (h : stagePack s = .done s')
    (hc : readReals s.mem .code (s.res.bitCount.toNat / 4) = some codes) {t : Nat} (ht : t < s.res.bitCount.toNat / 8) :
    realEntry s'.mem .text t = some (BitVec.ofNat 64 (characterValue codes t)) := by
  have hcode := (runStage_entries_other numHw .pack s s' h .code (by decide)).1
  have hbits : s'.res.bitCount = s.res.bitCount := by rw [stagePack_res h]
  obtain ⟨codes', hlen, hread, hchars⟩ := (stagePack_promised h).1
  rw [hbits] at hlen
  have hc' : readReals s.mem .code (s.res.bitCount.toNat / 4) = some codes' :=
    (readReals_eq_some _ _ _ _).2 ⟨hlen, fun p hp => (hcode p).symm.trans (hread p (hp.trans_eq hlen.symm))⟩
  obtain rfl : codes' = codes := Option.some.inj (hc'.symm.trans hc)
  exact hchars t (ht.trans_eq (stagePack_charCount h).symm)

/-- The law derived in R98, for the stage: a complete group lies within the codes, so both its codes were read. -/
theorem stagePack_two_codes {s s' : State} (h : stagePack s = .done s') {t : Nat} {hi lo : Word}
    (ht : t < s.res.bitCount.toNat / 8) (hhi : realEntry s.mem .code (2 * t) = some hi)
    (hlo : realEntry s.mem .code (2 * t + 1) = some lo) :
    realEntry s'.mem .text t = some (0#56 ++ hi.extractLsb' 0 4 ++ lo.extractLsb' 0 4) := by
  obtain ⟨-, codes, hc, -⟩ := stagePack_done s s' h
  obtain ⟨-, hread⟩ := (readReals_eq_some _ _ _ _).1 hc
  have hhi' : codes[2 * t]? = some hi := (hread _ (by omega)).symm.trans hhi
  have hlo' : codes[2 * t + 1]? = some lo := (hread _ (by omega)).symm.trans hlo
  rw [stagePack_chars h hc ht, characterValue_eq_two_codes hhi' hlo', ofNat_two_codes]

/-- The sixth stage keeps the five VALID bits before its own (R22). -/
theorem validAfter_pack (v : BitVec 6) : validAfter .pack v = (v &&& 0b011111#6) ||| 0b100000#6 := rfl

/-- Settles O15: the stage ends, packs the codes it read, and writes CHAR_COUNT and in its window only. -/
theorem packPacksCompleteGroups : Obligations.PackPacksCompleteGroups := by
  intro s ts codes hb ht hv hlen hcodes C
  have he : stageError .pack (accept 0x06#8 [.pack] s) = none := (stageError_pack_eq_none _).2 hv
  have hc : readReals s.mem .code (s.res.bitCount.toNat / 4) = some codes :=
    (readReals_eq_some _ _ _ _).2 ⟨hlen, fun p hp => hcodes p (hp.trans_eq hlen.symm)⟩
  obtain ⟨s', hrun⟩ : ∃ s', runStage numHw .pack (accept 0x06#8 [.pack] s) = .done s' := stagePack_ends he hc
  have hres : s'.res = { s.res with charCount := BitVec.ofNat 64 C } :=
    stagePack_res (s := accept 0x06#8 [.pack] s) hrun
  refine ⟨s'.mem, ?_, fun t ht => stagePack_chars hrun hc ht, runStage_bytesKept hrun⟩
  rw [← validAfter_pack, ← hres]
  exact issue_single_done hb ht hrun

/-! ### A PACK command that has completed -/

/-- A one-stage command given one core turn reports DONE only when its stage ended; what it leaves is then what the
stage left (R102, R103). -/
theorem stage_done_of_issue_single {num : NumRecord} {opc : BitVec 8} {st : Stage} {s t : State} {ts : List Turn}
    (hb : s.status.busy = false) (ht : s.turns = .core :: ts) (h : issue num opc [st] s = .next t)
    (hdone : t.status.done = true) :
    ∃ s', runStage num st (accept opc [st] s) = .done s' ∧ t = { completeOk s' with turns := ts } := by
  rw [issue_single num opc st s ts hb ht] at h
  cases hrun : runStage num st (accept opc [st] s) with
  | done s' =>
    rw [hrun] at h
    exact ⟨s', rfl, (Host.Outcome.next.inj h).symm⟩
  | raised e =>
    rw [hrun] at h
    cases h
    cases hdone
  | fault f =>
    rw [hrun] at h
    cases h

/-- Settles O16: the memory of the completed command is what the stage left. -/
theorem characterIsTwoCodes : Obligations.CharacterIsTwoCodes := by
  intro s t ts k hi lo hb ht h hdone hk hhi hlo
  obtain ⟨s', hrun, rfl⟩ := stage_done_of_issue_single hb ht h hdone
  exact stagePack_two_codes (s := accept 0x06#8 [.pack] s) hrun hk hhi hlo

/-- Settles O17: everything rests on CHAR_COUNT being `BIT_COUNT div 8`, and the window of TEXT having that length. -/
theorem incompleteGroupIsDropped : Obligations.IncompleteGroupIsDropped := by
  intro s t ts hb ht h hdone
  obtain ⟨s', hrun, rfl⟩ := stage_done_of_issue_single hb ht h hdone
  have hcount : s'.res.charCount.toNat = s.res.bitCount.toNat / 8 :=
    stagePack_charCount (s := accept 0x06#8 [.pack] s) hrun
  have hkept : bytesKeptOutside [(0xA0000, 8 * (s.res.bitCount.toNat / 8))] s.mem s'.mem := runStage_bytesKept hrun
  refine ⟨fun k r hr hbits => ?_, fun hbits => ⟨?_, hcount.trans (by omega)⟩⟩
  · obtain rfl : s.res.bitCount.toNat / 8 = k := by omega
    exact ⟨hcount, hkept⟩
  · split <;> omega

end Sys2Proof.Machine
end

section
/-! The control commands and the idle core (spec/47_control.md R100 to R104, R106; spec/70_reset_and_hazards.md R126,
R128): what turns a command away, what an acceptance leaves, NOP and SRESET from their write to their end, and the
steps of a core that has nothing to run. -/

namespace Sys2Proof.Machine

/-! ### Refusal and acceptance (R100, R101) -/

/-- Settles O7. -/
theorem busyCoreTurnsCommandsAway : Obligations.BusyCoreTurnsCommandsAway := by
  intro i s hi hb
  rw [exec_eq_issue i hi, issue_busy _ _ _ s hb]
  rfl

/-- With no core turn first in the schedule, nothing is granted (log 2). -/
theorem grantedSteps_of_no_core (num : NumRecord) {ts : List Turn} (s : State) (h : ∀ ts', ts ≠ .core :: ts') :
    grantedSteps num ts s = .next { s with turns := ts } := by
  cases ts with
  | nil => rfl
  | cons x ts =>
    refine grantedSteps_access num x ts s ?_
    rintro rfl
    exact h ts rfl

/-- Settles O8: with nothing granted, the issue of an idle core is the acceptance. -/
theorem acceptanceSetsBusyAndTheStageList : Obligations.AcceptanceSetsBusyAndTheStageList := by
  intro i s stages hmem hb hts
  have htable : ∀ x ∈ [(Instr.nop, ([] : List Stage)), (.dconv, [.dconv]), (.filt, [.filt]), (.decim, [.decim]),
      (.sync, [.sync]), (.demap, [.demap]), (.pack, [.pack]), (.run, pipeline)],
      x.1 ≠ .sreset ∧ x.2 = commandStages x.1 := by decide
  obtain ⟨hi, rfl⟩ : i ≠ .sreset ∧ stages = commandStages i := htable _ hmem
  rw [exec_eq_issue i hi, issue_idle _ _ _ s hb, grantedSteps_of_no_core _ _ hts,
    BitVec.setWidth_eq_extractLsb' (by decide)]
  rfl

/-! ### NOP (R104) -/

/-- The one core step of a command with no stage completes it (R102). -/
theorem coreStep_of_opq_nil (num : NumRecord) {s : State} (hq : s.opq = []) :
    coreStep num s = .next (completeOk s) := by
  simp [coreStep, hq]

/-- Settles O9: the acceptance clears the report, and the one core step completes the command. -/
theorem nopCompletesAndChangesNothingElse : Obligations.NopCompletesAndChangesNothingElse := by
  intro s ts hb ht
  have hissue : exec .nop s = grantedSteps numHw (.core :: ts) (accept 0x00#8 [] s) := by
    rw [← ht]
    exact issue_idle numHw 0x00#8 [] s hb
  rw [hissue, grantedSteps_core _ _ _ rfl, coreStep_of_opq_nil _ rfl, andThen_next, grantedSteps_idle _ _ _ rfl]
  rfl

/-- What a command with no stage leaves alone: it has no stage pending, and a core step without one only completes. -/
theorem issue_nil_frame {num : NumRecord} {opc : BitVec 8} {s t : State} (h : issue num opc [] s = .next t) :
    t.mem = s.mem ∧ t.res = s.res ∧ t.valid = s.valid := by
  rcases issue_next num opc [] s t h with ⟨-, rfl⟩ | ⟨-, hg⟩
  · exact ⟨rfl, rfl, rfl⟩
  · have hkept : t.opq = [] ∧ t.mem = s.mem ∧ t.res = s.res ∧ t.valid = s.valid := by
      refine grantedSteps_induct num (fun u => u.opq = [] ∧ u.mem = s.mem ∧ u.res = s.res ∧ u.valid = s.valid)
        (fun _ _ hu => hu) (fun u v hu _ huv => ?_) _ (accept opc [] s) _ ⟨rfl, rfl, rfl, rfl⟩ hg
      rw [coreStep_of_opq_nil num hu.1] at huv
      cases huv
      exact ⟨rfl, hu.2⟩
    exact hkept.2

/-- Settles O25. -/
theorem nopFrame : Obligations.NopFrame := fun _ _ h =>
  ⟨exec_commandFrame (i := .nop) (by decide) h, issue_nil_frame h⟩

/-! ### SRESET (R106, R128) -/

/-- A byte is forgotten when it lies in one of the windows, and no other byte is. -/
theorem readByte_forget_windows (bs : List Buffer) (m : Memory) (a : Nat) :
    ((∃ b ∈ bs, b.base ≤ a ∧ a < b.base + b.span) →
      readByte (bs.foldl (fun m b => forgetRange m b.base b.span) m) a = none) ∧
    ((¬ ∃ b ∈ bs, b.base ≤ a ∧ a < b.base + b.span) →
      readByte (bs.foldl (fun m b => forgetRange m b.base b.span) m) a = readByte m a) := by
  induction bs generalizing m with
  | nil => simp
  | cons b bs ih =>
    obtain ⟨hin, hout⟩ := ih (forgetRange m b.base b.span)
    rw [readByte_forgetRange] at hout
    rw [List.foldl_cons, List.exists_mem_cons_iff]
    by_cases hbs : ∃ b ∈ bs, b.base ≤ a ∧ a < b.base + b.span
    · exact ⟨fun _ => hin hbs, fun h => absurd (.inr hbs) h⟩
    · rw [hout hbs]
      exact ⟨fun h => if_pos (h.resolve_right hbs), fun h => if_neg fun hb => h (.inl hb)⟩

/-- Settles O20: the memory is that of `softReset`; of a running command only the stage at the head of OPQ has outputs
to forget (log 8). -/
theorem sresetRestoresTheResetState : Obligations.SresetRestoresTheResetState := by
  refine fun s => ⟨(softReset s).mem, rfl, fun hb => ?_, fun hb a => ?_⟩
  · rw [softReset_mem, hb]
    rfl
  · rw [softReset_mem, if_pos hb]
    cases hq : s.opq with
    | nil => exact ⟨fun ⟨_, _, h, _⟩ => absurd h (by simp), fun _ => rfl⟩
    | cons st rest =>
      obtain ⟨hin, hout⟩ := readByte_forget_windows st.outputs s.mem a
      refine ⟨fun ⟨st', rest', h, hb⟩ => ?_, fun h => hout fun hb => h ⟨st, rest, rfl, hb⟩⟩
      cases h
      exact hin hb

/-! ### An idle core (R102, R124; log 17) -/

/-- Settles O46. -/
theorem idleCoreStaysStill : Obligations.IdleCoreStaysStill := by
  refine fun s ts hb => ⟨fun ht => ?_, fun ht => ?_⟩
  · rw [step_of_nil s ht, coreTurn_idle _ _ hb]
  · rw [step_of_cons s _ ts ht]
    exact coreTurn_idle numHw _ hb

end Sys2Proof.Machine
end

section
/-! The core sequencer step by step (spec/47_control.md R102, R103, R107, R112; spec/80_timing.md R133, R135): what one
core step of a running command does, and how many of them end it. -/

namespace Sys2Proof.Machine

/-! ### What a stage works on -/

/-- The fields a stage reads and writes are the same (R69). -/
structure SameStageData (s t : State) : Prop where
  cfg : t.cfg = s.cfg
  table : t.table = s.table
  valid : t.valid = s.valid
  mem : t.mem = s.mem
  res : t.res = s.res

theorem SameStageData.refl (s : State) : SameStageData s s := ⟨rfl, rfl, rfl, rfl, rfl⟩

theorem SameStageData.symm {s t : State} (h : SameStageData s t) : SameStageData t s :=
  ⟨h.cfg.symm, h.table.symm, h.valid.symm, h.mem.symm, h.res.symm⟩

theorem SameStageData.trans {s t u : State} (h : SameStageData s t) (h' : SameStageData t u) : SameStageData s u :=
  ⟨h'.cfg.trans h.cfg, h'.table.trans h.table, h'.valid.trans h.valid, h'.mem.trans h.mem, h'.res.trans h.res⟩

theorem sameStageData_accept (opc : BitVec 8) (stages : List Stage) (s : State) :
    SameStageData s (accept opc stages s) :=
  ⟨rfl, rfl, rfl, rfl, rfl⟩

theorem sameStageData_idleWithOneCoreTurn (s : State) (ts : List Turn) :
    SameStageData (idleWithOneCoreTurn s) { s with turns := ts } :=
  ⟨rfl, rfl, rfl, rfl, rfl⟩

/-- A state with the VALID bits, the memory and the result registers of another: all that a stage writes. -/
def State.withOutputs (s t : State) : State := { s with valid := t.valid, mem := t.mem, res := t.res }

/-- A stage answers by the fields it works on alone, and keeps the others (R69). -/
theorem SameStageData.runStage_done {num : NumRecord} {st : Stage} {s u s' : State} (h : SameStageData s u)
    (hrun : runStage num st s = .done s') : runStage num st u = .done (u.withOutputs s') :=
  runStage_congr num st s u s' h.cfg h.res h.valid h.mem h.table hrun

/-- What a stage leaves in two states it works on alike is the same data. -/
theorem SameStageData.withOutputs {num : NumRecord} {st : Stage} {s u s' : State} (h : SameStageData s u)
    (hrun : runStage num st s = .done s') : SameStageData s' (u.withOutputs s') := by
  obtain ⟨-, -, -, -, -, hcfg, htable, -⟩ := runStage_done_frame num st s s' hrun
  exact ⟨h.cfg.trans hcfg.symm, h.table.trans htable.symm, rfl, rfl, rfl⟩

/-- A stage that ends changes its outputs only. -/
theorem runStage_done_eq {num : NumRecord} {st : Stage} {s s' : State} (hrun : runStage num st s = .done s') :
    s' = s.withOutputs s' :=
  StageResult.done.inj (hrun.symm.trans ((SameStageData.refl s).runStage_done hrun))

/-- Two states in which a stage's checks fail alike and its body stops alike. -/
theorem afterChecks_fault_congr {st : Stage} {s u : State} {body : State → StageResult} {f : Fault}
    (he : stageError st u = stageError st s) (hbody : body s = .fault f → body u = .fault f)
    (h : afterChecks st s body = .fault f) : afterChecks st u body = .fault f := by
  obtain ⟨hs, hfault⟩ := afterChecks_fault st s body f h
  exact (afterChecks_of_none st u body (he.trans hs)).trans (hbody hfault)

/-- A stage that stops names the first of its operands that is missing, and reads them from the fields it works on. -/
theorem SameStageData.runStage_fault {num : NumRecord} {st : Stage} {s u : State} {f : Fault}
    (h : SameStageData s u) (hrun : runStage num st s = .fault f) : runStage num st u = .fault f := by
  have he : stageError st u = stageError st s := stageError_congr st u s h.cfg h.res h.valid
  obtain ⟨hcfg, -, -, hmem, hres⟩ := h
  cases st <;>
    simp only [runStage, stageDconv, stageFilt, stageDecim, stageSync, stageDemap, stagePack] at hrun ⊢ <;>
    refine afterChecks_fault_congr he ?_ hrun <;> simp only [hcfg, hmem, hres]
  case dconv => cases readReals s.mem .sample s.cfg.n.toNat <;> simp
  case filt => cases readReals s.mem .i s.cfg.n.toNat <;> cases readReals s.mem .q s.cfg.n.toNat <;> simp
  case decim =>
    cases readEach (realEntry s.mem .iF) (keptIndices s.cfg) <;>
      cases readEach (realEntry s.mem .qF) (keptIndices s.cfg) <;> simp
  case sync =>
    cases readComplexes s.mem .dec s.res.lLen.toNat <;> cases readComplexes s.mem .pre s.cfg.m.toNat <;> simp
  case demap => cases readEach (complexEntry s.mem .dec) (payloadIndices s.res) <;> simp
  case pack => cases readReals s.mem .code (s.res.bitCount.toNat / 4) <;> simp

/-! ### One core step (R102) -/

theorem setTurns_self {s : State} {ts : List Turn} (h : s.turns = ts) : { s with turns := ts } = s := by
  subst h
  rfl

/-- A step of a busy core, by a turn of the schedule or with none left (log 3). -/
theorem step_busy_core {s : State} {ts : List Turn} (hb : s.status.busy = true)
    (ht : (s.turns = [] ∧ ts = []) ∨ s.turns = .core :: ts) : step s = coreStep numHw { s with turns := ts } := by
  rcases ht with ⟨ht, rfl⟩ | ht
  · rw [step_of_nil s ht, setTurns_self ht, coreTurn_busy _ _ hb]
  · rw [step_of_cons s _ ts ht]
    exact coreTurn_busy numHw _ hb

theorem coreStep_of_done {num : NumRecord} {s s' : State} {st : Stage} {rest : List Stage} (hq : s.opq = st :: rest)
    (hrun : runStage num st s = .done s') : coreStep num s = .next (afterStage rest s') := by
  simp only [coreStep, hq, hrun]

theorem coreStep_of_raised {num : NumRecord} {s : State} {st : Stage} {rest : List Stage} {e : CmdError}
    (hq : s.opq = st :: rest) (hrun : runStage num st s = .raised e) : coreStep num s = .next (failStage st e s) := by
  simp only [coreStep, hq, hrun]

theorem coreStep_of_fault {num : NumRecord} {s : State} {st : Stage} {rest : List Stage} {f : Fault}
    (hq : s.opq = st :: rest) (hrun : runStage num st s = .fault f) : coreStep num s = .fault f := by
  simp only [coreStep, hq, hrun]

/-! ### A stage and its own command (R107) -/

theorem exec_command (st : Stage) (s : State) : exec st.command s = issue numHw st.opcode [st] s := by
  cases st <;> rfl

/-- A stage command that completed without error: its stage ends on the state the command was given, and the command
leaves what the stage does (R103; log 2). -/
theorem stage_done_of_command_done {st : Stage} {s t : State} {ts : List Turn} (hb : s.status.busy = false)
    (ht : s.turns = .core :: ts) (h : exec st.command s = .next t) (hdone : t.status.done = true) :
    ∃ s', runStage numHw st s = .done s' ∧ t = commandDone st.opcode s'.valid s'.mem s'.res ts s := by
  rw [exec_command] at h
  obtain ⟨u, hrun, -⟩ := stage_done_of_issue_single hb ht h hdone
  obtain ⟨-, hvalid, -⟩ := runStage_done_frame numHw st _ u hrun
  rw [issue_single_done hb ht hrun] at h
  refine ⟨_, (sameStageData_accept _ _ s).symm.runStage_done hrun, ?_⟩
  rw [← Host.Outcome.next.inj h, State.withOutputs, hvalid]
  rfl

/-- A stage command that stops: its stage stops on the state the command was given. -/
theorem stage_fault_of_command_fault {st : Stage} {s : State} {ts : List Turn} {f : Fault} (hb : s.status.busy = false)
    (ht : s.turns = .core :: ts) (h : exec st.command s = .fault f) : runStage numHw st s = .fault f := by
  rw [exec_command, issue_single _ _ _ _ ts hb ht] at h
  cases hrun : runStage numHw st (accept st.opcode [st] s) with
  | fault f' =>
    rw [hrun] at h
    cases h
    exact (sameStageData_accept _ _ s).symm.runStage_fault hrun
  | done s' => rw [hrun] at h; cases h
  | raised e => rw [hrun] at h; cases h

/-- Settles O22: the step is a core step, the stage at the head of OPQ answers as in its own command, and the rest of
OPQ says whether the command goes on. -/
theorem coreStepRunsTheStageAtTheHead : Obligations.CoreStepRunsTheStageAtTheHead := by
  intro s ts hb ht ended
  rw [step_busy_core hb ht]
  refine ⟨fun hq => ?_, fun st rest hq => ?_⟩
  · rw [coreStep_of_opq_nil _ (s := { s with turns := ts }) hq, completeOk, ← hq]
    rfl
  have hqt : State.opq { s with turns := ts } = st :: rest := hq
  refine ⟨fun u hu hdone => ?_, fun e he => ?_, fun f hf => ?_⟩
  · obtain ⟨s', hrun, rfl⟩ := stage_done_of_command_done rfl rfl hu hdone
    rw [coreStep_of_done hqt ((sameStageData_idleWithOneCoreTurn s ts).runStage_done hrun)]
    refine ⟨fun hrest => ?_, fun hrest => ?_⟩
    · obtain ⟨st', more, rfl⟩ := List.exists_cons_of_ne_nil hrest
      rfl
    · rw [hrest]
      rfl
  · have he' : stageError st { s with turns := ts } = some e := by
      rw [← he]
      exact stageError_congr st { s with turns := ts } s rfl rfl rfl
    refine ⟨clearFrom st s.valid, ?_, fun st' => stageValid_clearFrom st st' s.valid⟩
    rw [coreStep_of_raised hqt ((runStage_raised_iff numHw st _ e).2 he')]
    rfl
  · have hrun := stage_fault_of_command_fault rfl rfl hf
    exact coreStep_of_fault hqt ((sameStageData_idleWithOneCoreTurn s ts).runStage_fault hrun)

/-! ### How many core steps end a command (R102, R133, R135) -/

/-- The core steps a command has left at most: one for each stage pending, and one for a NOP (R102). -/
def stepsLeft (s : State) : Nat := if s.status.busy then max 1 s.opq.length else 0

/-- The core alone has turns left, and an idle core has no stage pending (R43). -/
structure CoreAlone (s : State) : Prop where
  turns : ∀ x ∈ s.turns, x = .core
  idle_opq : s.status.busy = false → s.opq = []

/-- Each core step of a running command leaves fewer of them. -/
theorem stepsLeft_coreStep {num : NumRecord} {s t : State} (hb : s.status.busy = true) (h : coreStep num s = .next t) :
    stepsLeft t < stepsLeft s ∧ (t.status.busy = false → t.opq = []) := by
  have hleft : stepsLeft s = max 1 s.opq.length := if_pos hb
  have hidle : ∀ u : State, u.status.busy = false → stepsLeft u < stepsLeft s := fun u hu => by
    have : stepsLeft u = 0 := if_neg (by simp [hu])
    omega
  rcases coreStep_next num s t h with ⟨-, rfl⟩ | ⟨st, rest, s', hq, hrun, rfl⟩ | ⟨st, rest, e, -, -, rfl⟩
  · exact ⟨hidle _ rfl, fun _ => rfl⟩
  · obtain ⟨-, -, hstatus, -⟩ := runStage_done_frame num st s s' hrun
    cases rest with
    | nil => exact ⟨hidle _ rfl, fun _ => rfl⟩
    | cons st' more =>
      have hb' : (afterStage (st' :: more) s').status.busy = true := (congrArg Status.busy hstatus).trans hb
      refine ⟨?_, fun hf => absurd (hb'.symm.trans hf) (by decide)⟩
      rw [hleft, stepsLeft, if_pos hb', hq, afterStage_opq]
      simp only [List.length_cons]
      omega
  · exact ⟨hidle _ rfl, fun _ => rfl⟩

/-- With no turn left but the core's, a step of a busy core is a core step, and one of an idle core drops the turn. -/
theorem step_of_core_turns {s : State} (hs : ∀ x ∈ s.turns, x = .core) :
    step s = coreTurn numHw { s with turns := s.turns.tail } := by
  cases ht : s.turns with
  | nil => rw [step_of_nil s ht, List.tail_nil, setTurns_self ht]
  | cons x ts =>
    obtain rfl : x = .core := hs x (by simp [ht])
    exact step_of_cons s _ ts ht

theorem CoreAlone.after_coreTurn {num : NumRecord} {s t : State} (hs : CoreAlone s) (h : coreTurn num s = .next t) :
    CoreAlone t ∧ stepsLeft t ≤ stepsLeft s - 1 := by
  cases hb : s.status.busy with
  | false =>
    rw [coreTurn_idle num s hb] at h
    cases h
    exact ⟨hs, by simp [stepsLeft, hb]⟩
  | true =>
    rw [coreTurn_busy num s hb] at h
    obtain ⟨-, -, hturns, -⟩ := coreStep_frame num s t h
    obtain ⟨hlt, hopq⟩ := stepsLeft_coreStep hb h
    exact ⟨⟨hturns ▸ hs.turns, hopq⟩, Nat.le_sub_one_of_lt hlt⟩

theorem CoreAlone.after_step {s t : State} (hs : CoreAlone s) (h : step s = .next t) :
    CoreAlone t ∧ stepsLeft t ≤ stepsLeft s - 1 := by
  rw [step_of_core_turns hs.turns] at h
  exact CoreAlone.after_coreTurn (s := { s with turns := s.turns.tail })
    ⟨fun x hx => hs.turns x (List.mem_of_mem_tail hx), hs.idle_opq⟩ h

/-- Left alone for as many steps as it has left, the core is idle. -/
theorem CoreAlone.after_run {k : Nat} {s t : State} (hs : CoreAlone s) (hk : stepsLeft s ≤ k)
    (h : Sys2Proof.core.run k s = .next t) : CoreAlone t ∧ stepsLeft t = 0 := by
  induction k generalizing s with
  | zero =>
    cases h
    exact ⟨hs, Nat.le_zero.1 hk⟩
  | succ k ih =>
    obtain ⟨u, hu, hrun⟩ := (andThen_eq_next _ _ _).1 ((coreRun_succ k s).symm.trans h)
    obtain ⟨hu', hle⟩ := hs.after_step hu
    exact ih hu' (by omega) hrun

theorem stepsLeft_eq_zero {s : State} : stepsLeft s = 0 ↔ s.status.busy = false := by
  cases hb : s.status.busy <;> simp [stepsLeft, hb]

theorem runEnded_iff (s : State) :
    runEnded s = true ↔ (∀ x ∈ s.turns, x.isAccess = false) ∧ s.status.busy = false := by
  simp [runEnded]

/-- What is left to a run that has ended: a turn of the idle core, which drops it, or the platform's reset (log 17). -/
theorem step_of_runEnded {s t : State} (hs : runEnded s = true) (h : step s = .next t) :
    t = { s with turns := s.turns.tail } ∨
    (∃ ts, s.turns = .reset :: ts) ∧ t = powerOnReset { s with turns := s.turns.tail } := by
  obtain ⟨hturns, hb⟩ := (runEnded_iff s).1 hs
  cases ht : s.turns with
  | nil =>
    rw [(idleCoreStaysStill s [] hb).1 ht] at h
    cases h
    exact .inl (setTurns_self ht).symm
  | cons x ts =>
    have hx := hturns x (by simp [ht])
    cases x with
    | core =>
      rw [(idleCoreStaysStill s ts hb).2 ht] at h
      cases h
      exact .inl rfl
    | reset =>
      rw [step_of_cons s _ ts ht] at h
      cases h
      exact .inr ⟨⟨ts, rfl⟩, rfl⟩
    | read a => cases hx
    | write a v => cases hx

/-- Settles O48: each core step leaves fewer of them, and an ended run has no access left that could start a command. -/
theorem acceptedCommandsComplete : Obligations.AcceptedCommandsComplete := by
  refine ⟨fun s t hts hb h => ?_, fun s t hs h => ?_⟩
  · have hstart : CoreAlone s := ⟨hts, fun hf => absurd (hb.symm.trans hf) (by decide)⟩
    obtain ⟨ht, hleft⟩ := hstart.after_run (if_pos hb).le h
    have hidle := stepsLeft_eq_zero.1 hleft
    exact ⟨hidle, ht.idle_opq hidle, (runEnded_iff t).2 ⟨fun x hx => by rw [ht.turns x hx]; rfl, hidle⟩⟩
  · obtain ⟨hturns, hb⟩ := (runEnded_iff s).1 hs
    have htail : ∀ x ∈ s.turns.tail, x.isAccess = false := fun x hx => hturns x (List.mem_of_mem_tail hx)
    rcases step_of_runEnded hs h with rfl | ⟨⟨ts, hreset⟩, rfl⟩
    · exact ⟨(runEnded_iff _).2 ⟨htail, hb⟩, fun _ => rfl⟩
    · exact ⟨(runEnded_iff _).2 ⟨htail, rfl⟩, fun hno => absurd hreset (hno ts)⟩

end Sys2Proof.Machine
end

section
/-! RUN as the sequence of the six stages (spec/47_control.md R105, R107): what stages that end one after the other
make of memory, VALID and the result registers, and how the command that holds them ends (R103, R89). -/

namespace Sys2Proof.Machine

/-! ### Stages one after the other (R107) -/

/-- The stages of a list end one after the other, from the fields of `s` a stage works on to those of `t`. -/
inductive StagesEnd (num : NumRecord) : List Stage → State → State → Prop
  | nil {s t : State} (h : SameStageData s t) : StagesEnd num [] s t
  | cons {st : Stage} {rest : List Stage} {s s' t : State} (hrun : runStage num st s = .done s')
      (hrest : StagesEnd num rest s' t) : StagesEnd num (st :: rest) s t

/-- The stages see the data they work on only. -/
theorem StagesEnd.congr_left {num : NumRecord} {stages : List Stage} {s u t : State} (hs : StagesEnd num stages s t)
    (h : SameStageData s u) : StagesEnd num stages u t := by
  induction hs generalizing u with
  | nil hst => exact .nil (h.symm.trans hst)
  | cons hrun _ ih => exact .cons (h.runStage_done hrun) (ih (h.withOutputs hrun))

/-- The core turns the schedule grants to a running command whose next stages end: they leave OPQ, and when they are
the last ones the command completes (R102). -/
theorem grantedSteps_stagesEnd {num : NumRecord} {stages : List Stage} (hne : stages ≠ []) (rest : List Stage)
    (ts : List Turn) {s t : State} (hb : s.status.busy = true) (hq : s.opq = stages ++ rest)
    (h : StagesEnd num stages s t) :
    grantedSteps num (List.replicate stages.length .core ++ ts) s =
      grantedSteps num ts (afterStage rest (s.withOutputs t)) := by
  induction stages generalizing s with
  | nil => exact absurd rfl hne
  | cons st stages ih =>
    obtain - | ⟨hrun, hstages⟩ := h
    rename_i s'
    rw [List.length_cons, List.replicate_succ, List.cons_append, grantedSteps_core _ _ _ hb, coreStep_of_done hq hrun,
      andThen_next, runStage_done_eq hrun]
    cases stages with
    | nil =>
      obtain ⟨⟨-, -, hvalid, hmem, hres⟩⟩ := hstages
      rw [State.withOutputs, State.withOutputs, hvalid, hmem, hres]
      rfl
    | cons st' more =>
      let u : State := afterStage (st' :: more ++ rest) (s.withOutputs s')
      have hdata : SameStageData s' u := ((SameStageData.refl s).withOutputs hrun).trans ⟨rfl, rfl, rfl, rfl, rfl⟩
      refine (ih (List.cons_ne_nil _ _) (s := u) hb rfl (hstages.congr_left hdata)).trans ?_
      cases rest <;> rfl

/-- A command whose stages all end, given a core turn for each, completes with what they leave (R103, R107). -/
theorem issue_stagesEnd {num : NumRecord} {opc : BitVec 8} {stages : List Stage} (hne : stages ≠ []) {s t : State}
    {ts : List Turn} (hb : s.status.busy = false) (ht : s.turns = List.replicate stages.length .core ++ ts)
    (h : StagesEnd num stages s t) :
    issue num opc stages s = .next (commandDone opc t.valid t.mem t.res ts s) := by
  rw [issue_idle num opc stages s hb, ht,
    grantedSteps_stagesEnd hne [] ts rfl (List.append_nil stages).symm (h.congr_left (sameStageData_accept _ _ s)),
    afterStage_nil, grantedSteps_idle _ _ _ rfl]
  rfl

/-- A command whose first stages end and whose next one raises, given a core turn for each, ends with the report of
that stage (R102, R112). -/
theorem issue_stagesEnd_raised {num : NumRecord} {opc : BitVec 8} {stages rest : List Stage} {st : Stage}
    (hne : stages ≠ []) {s t : State} {e : CmdError} {ts : List Turn} (hb : s.status.busy = false)
    (ht : s.turns = List.replicate stages.length .core ++ .core :: ts) (h : StagesEnd num stages s t)
    (he : stageError st t = some e) (hcfg : t.cfg = s.cfg) :
    issue num opc (stages ++ st :: rest) s =
      .next (commandFailed opc st.opcode e.code.value e.info (clearFrom st t.valid) t.mem t.res ts s) := by
  let u : State := afterStage (st :: rest) ((accept opc (stages ++ st :: rest) s).withOutputs t)
  have hu : runStage num st u = .raised e :=
    (runStage_raised_iff num st u e).2 ((stageError_congr st u t hcfg.symm rfl rfl).trans he)
  rw [issue_idle num opc _ s hb, ht,
    grantedSteps_stagesEnd hne (st :: rest) _ rfl rfl (h.congr_left (sameStageData_accept _ _ s)),
    grantedSteps_core _ _ _ rfl, coreStep_of_raised rfl hu, andThen_next, grantedSteps_idle _ _ _ rfl]
  rfl

/-! ### Six stage commands (R107) -/

/-- A stage command that completed without error, given one core turn: its stage ends in front of the stages that end
on what the command leaves. -/
theorem stagesEnd_of_command_done {st : Stage} {s t : State} (hb : s.status.busy = false)
    (h : exec st.command { s with turns := [.core] } = .next t) (hdone : t.status.done = true) :
    ∃ valid mem res, t = commandDone st.opcode valid mem res [] s ∧
      ∀ rest u, StagesEnd numHw rest t u → StagesEnd numHw (st :: rest) s u := by
  have hdata : SameStageData { s with turns := [.core] } s := ⟨rfl, rfl, rfl, rfl, rfl⟩
  obtain ⟨s', hrun, rfl⟩ := stage_done_of_command_done (s := { s with turns := [.core] }) hb rfl h hdone
  refine ⟨s'.valid, s'.mem, s'.res, rfl, fun rest u hrest => ?_⟩
  exact .cons (hdata.runStage_done hrun) (hrest.congr_left ⟨rfl, rfl, rfl, rfl, rfl⟩)

/-- Settles O19: each command runs its stage on what the one before left, so the six stages end one after the other
from the state the RUN starts in. -/
theorem runEqualsSixStageCommands : Obligations.RunEqualsSixStageCommands := by
  intro s s1 s2 s3 s4 s5 s6 ts hb ht h1 hd1 h2 hd2 h3 hd3 h4 hd4 h5 hd5 h6 hd6
  obtain ⟨_, _, _, rfl, hdconv⟩ := stagesEnd_of_command_done (st := .dconv) hb h1 hd1
  obtain ⟨_, _, _, rfl, hfilt⟩ := stagesEnd_of_command_done (st := .filt) rfl h2 hd2
  obtain ⟨_, _, _, rfl, hdecim⟩ := stagesEnd_of_command_done (st := .decim) rfl h3 hd3
  obtain ⟨_, _, _, rfl, hsync⟩ := stagesEnd_of_command_done (st := .sync) rfl h4 hd4
  obtain ⟨_, _, _, rfl, hdemap⟩ := stagesEnd_of_command_done (st := .demap) rfl h5 hd5
  obtain ⟨_, _, _, rfl, hpack⟩ := stagesEnd_of_command_done (st := .pack) rfl h6 hd6
  have hstages := hdconv _ _ (hfilt _ _ (hdecim _ _ (hsync _ _ (hdemap _ _ (hpack _ _ (.nil (.refl _)))))))
  exact issue_stagesEnd (opc := 0x07#8) (List.cons_ne_nil _ _) hb ht hstages

/-! ### The stages of a RUN (R105) -/

theorem StagesEnd.append {num : NumRecord} {stages stages' : List Stage} {s t u : State}
    (h : StagesEnd num stages s t) (h' : StagesEnd num stages' t u) : StagesEnd num (stages ++ stages') s u := by
  induction h with
  | nil hst => exact h'.congr_left hst.symm
  | cons hrun _ ih => exact .cons hrun (ih h')

/-- DCONV leaves VALID on its own results alone, whatever VALID promised before (R22). -/
theorem coverageInv_after_dconv {s s' : State} (h : runStage numHw .dconv s = .done s') : CoverageInv s' := by
  obtain ⟨-, hvalid, -⟩ := runStage_done_frame numHw .dconv s s' h
  rw [coverageInv_iff]
  intro st hv
  rw [hvalid, stageValid_validAfter] at hv
  obtain rfl : st = .dconv := by simpa [Stage.index] using hv
  exact runStage_promised h

/-- A stage that reads what earlier stages wrote ends once its checks pass (R42). -/
theorem CoverageInv.runStage_ends {st : Stage} {s : State} (hs : CoverageInv s) (hst : st ≠ .dconv ∧ st ≠ .sync)
    (he : stageError st s = none) : ∃ s', runStage numHw st s = .done s' := by
  cases hrun : runStage numHw st s with
  | done s' => exact ⟨s', rfl⟩
  | raised e => cases he.symm.trans ((runStage_raised_iff numHw st s e).1 hrun)
  | fault f =>
    cases st with
    | dconv => exact absurd rfl hst.1
    | sync => exact absurd rfl hst.2
    | filt => exact absurd hrun (hs.filt_not_fault f)
    | decim => exact absurd hrun (hs.decim_not_fault f)
    | demap => exact absurd hrun (hs.demap_not_fault f)
    | pack => exact absurd hrun (hs.pack_not_fault f)

/-- What the checks of the stages after it see of a stage that ends: its configuration, and VALID (R22). -/
theorem runStage_cfg_valid {num : NumRecord} {st : Stage} {s s' : State} (h : runStage num st s = .done s') :
    s'.cfg = s.cfg ∧ s'.valid = validAfter st s.valid := by
  obtain ⟨-, hvalid, -, -, -, hcfg, -⟩ := runStage_done_frame num st s s' h
  exact ⟨hcfg, hvalid⟩

/-- No stage writes PRE (R69). -/
theorem runStage_pre {num : NumRecord} {st : Stage} {s s' : State} (h : runStage num st s = .done s') (k : Nat) :
    complexEntry s'.mem .pre k = complexEntry s.mem .pre k :=
  (runStage_entries_other num st s s' h .pre (by cases st <;> decide)).2 rfl k

/-- The first three stages end for every legal configuration over a written waveform; L_LEN is the one result register
they write, and PRE stands (R76, R80, R84). -/
theorem frontStages_end {s : State} (hn : 1 ≤ s.cfg.n.toNat ∧ s.cfg.n.toNat ≤ 4096) (hfs : s.cfg.fsHz ≠ 0#64)
    (hdecim : s.cfg.decim ≠ 0#64) (hx : realsWritten s.mem .sample s.cfg.n.toNat) :
    ∃ t, StagesEnd numHw [.dconv, .filt, .decim] s t ∧ CoverageInv t ∧ t.cfg = s.cfg ∧ t.valid = 0b000111#6 ∧
      t.res = { s.res with lLen := BitVec.ofNat 64 (decimatedLength s.cfg) } ∧
      ∀ k, complexEntry t.mem .pre k = complexEntry s.mem .pre k := by
  obtain ⟨s1, h1⟩ : ∃ s1, runStage numHw .dconv s = .done s1 :=
    stageDconv_ends numHw s ((stageError_dconv_eq_none s).2 ⟨hn, hfs⟩) hx
  have hcov1 := coverageInv_after_dconv h1
  obtain ⟨hc1, hv1⟩ := runStage_cfg_valid h1
  rw [validAfter_dconv] at hv1
  have he2 : stageError .filt s1 = none := (stageError_filt_eq_none s1).2 (by rw [hc1, hv1]; exact ⟨hn, hfs, rfl⟩)
  obtain ⟨s2, h2⟩ := hcov1.runStage_ends (by decide) he2
  have hcov2 := hcov1.after_runStage h2
  obtain ⟨hc2, hv2⟩ := runStage_cfg_valid h2
  rw [hc1] at hc2
  rw [hv1] at hv2
  have he3 : stageError .decim s2 = none :=
    (stageError_decim_eq_none s2).2 (by rw [hc2, hv2]; exact ⟨hn, hdecim, rfl⟩)
  obtain ⟨s3, h3⟩ := hcov2.runStage_ends (by decide) he3
  obtain ⟨hc3, hv3⟩ := runStage_cfg_valid h3
  rw [hv2] at hv3
  have hr1 : s1.res = s.res := runStage_otherResultsKept h1
  have hr2 : s2.res = s1.res := runStage_otherResultsKept h2
  refine ⟨s3, .cons h1 (.cons h2 (.cons h3 (.nil (.refl s3)))), hcov2.after_runStage h3, hc3.trans hc2, hv3, ?_,
    fun k => ?_⟩
  · rw [stageDecim_res h3, hc2, hr2, hr1]
  · rw [runStage_pre h3, runStage_pre h2, runStage_pre h1]

/-- The last three stages end after the first three for a written preamble no longer than the stream (R91, R95, R98). -/
theorem backStages_end {s : State} (hs : CoverageInv s) (hv : s.valid = 0b000111#6)
    (hm : 1 ≤ s.cfg.m.toNat ∧ s.cfg.m.toNat ≤ 4096) (hle : s.cfg.m.toNat ≤ s.res.lLen.toNat)
    (hpre : complexesWritten s.mem .pre s.cfg.m.toNat) :
    ∃ t, StagesEnd numHw [.sync, .demap, .pack] s t ∧ CoverageInv t ∧ t.cfg = s.cfg ∧ t.valid = 0b111111#6 := by
  have hdec : stageValid s.valid .decim = true := by rw [hv]; rfl
  obtain ⟨-, -, hstream⟩ := hs.dec hdec
  obtain ⟨d, hd⟩ := (readComplexes_isSome _ _ _).2 hstream
  obtain ⟨r, hr⟩ := (readComplexes_isSome _ _ _).2 hpre
  obtain ⟨s1, h1⟩ : ∃ s1, runStage numHw .sync s = .done s1 :=
    ⟨_, stageSync_ends ((stageError_sync_eq_none s).2 ⟨hm, hdec, hle⟩) hd hr⟩
  have hcov1 := hs.after_runStage h1
  obtain ⟨hc1, hv1⟩ := runStage_cfg_valid h1
  rw [hv] at hv1
  have he2 : stageError .demap s1 = none := (stageError_demap_eq_none s1).2 (by rw [hv1]; rfl)
  obtain ⟨s2, h2⟩ := hcov1.runStage_ends (by decide) he2
  have hcov2 := hcov1.after_runStage h2
  obtain ⟨hc2, hv2⟩ := runStage_cfg_valid h2
  rw [hv1] at hv2
  have he3 : stageError .pack s2 = none := (stageError_pack_eq_none s2).2 (by rw [hv2]; rfl)
  obtain ⟨s3, h3⟩ := hcov2.runStage_ends (by decide) he3
  obtain ⟨hc3, hv3⟩ := runStage_cfg_valid h3
  rw [hv2] at hv3
  exact ⟨s3, .cons h1 (.cons h2 (.cons h3 (.nil (.refl s3)))), hcov2.after_runStage h3, hc3.trans (hc2.trans hc1),
    hv3⟩

/-- R83: the decimated length fits its register. -/
theorem toNat_decimatedLength {c : ConfigRegs} (hdecim : c.decim ≠ 0#64) :
    (BitVec.ofNat 64 (decimatedLength c)).toNat = decimatedLength c :=
  toNat_ofNat_word ((decimatedLength_le c hdecim).trans_lt c.n.isLt)

/-- Settles O18: all six stages end, and the coverage invariant they leave says what the six VALID bits promise. -/
theorem runCompletesThePipeline : Obligations.RunCompletesThePipeline := by
  intro s ts hb ht hpos hmax hfs hdecim hmpos hmle hx hpre
  obtain ⟨u, hfront, hcovu, hcu, hvu, hru, hpreu⟩ := frontStages_end ⟨hpos, hmax⟩ hfs hdecim hx
  have hlen : u.res.lLen.toNat = decimatedLength s.cfg := by rw [hru]; exact toNat_decimatedLength hdecim
  have hmle' : s.cfg.m.toNat ≤ decimatedLength s.cfg := hmle
  have hmmax := decimatedLength_le s.cfg hdecim
  obtain ⟨t, hback, hcov, hct, hv⟩ := backStages_end hcovu hvu (by rw [hcu]; omega) (by rwa [hcu, hlen])
    (fun k hk => by rw [hpreu]; exact hpre k (hcu ▸ hk))
  have hc : t.cfg = s.cfg := hct.trans hcu
  have hvalid : ∀ st, stageValid t.valid st = true := fun st => by rw [hv]; cases st <;> rfl
  obtain ⟨-, hL, -⟩ := hcov.dec (hvalid .decim)
  obtain ⟨-, -, -, hstart, -, hfrom, hpay⟩ := hcov.sync (hvalid .sync)
  obtain ⟨hbits, -⟩ := hcov.code (hvalid .demap)
  obtain ⟨hchars, htext⟩ := hcov.text (hvalid .pack)
  rw [hc] at hL hstart hfrom
  have hrun : exec .run s = .next (commandDone 0x07#8 0b111111#6 t.mem t.res ts s) := by
    rw [← hv]
    exact issue_stagesEnd (List.cons_ne_nil _ _) hb ht (hfront.append hback)
  refine ⟨t.mem, t.res, hrun, hL, hstart, hfrom, hpay, hbits, by omega, fun k hk => ?_, fun a ha => ?_⟩
  · obtain ⟨w, hw, -⟩ := htext k hk
    exact isSome_of_eq_some hw
  · exact (runFrame _ _ hrun).2 a (.inl ha)

/-- The preamble check is the first that fails when M is in range and V_DEC set (R89, R113). -/
theorem stageError_sync_tooLong {s : State} (hpos : 1 ≤ s.cfg.m.toNat) (hmax : s.cfg.m.toNat ≤ 4096)
    (hv : stageValid s.valid .decim = true) (hlt : s.res.lLen.toNat < s.cfg.m.toNat) :
    stageError .sync s = some ⟨.preambleTooLong, s.cfg.m⟩ := by
  have hm : outOfRange s.cfg.m = false := (outOfRange_eq_false _).2 ⟨hpos, hmax⟩
  simp [stageError, stageChecks, firstFailure, checkM, checkValid, checkPreamble, hm, hv, hlt]

/-- Settles O23: the first three stages end, and SYNC raises before it reads a preamble entry. -/
theorem runReportsATooLongPreamble : Obligations.RunReportsATooLongPreamble := by
  intro s ts hb ht hpos hmax hfs hdecim hmmax hlong hx
  obtain ⟨u, hfront, -, hcu, hvu, hru, -⟩ := frontStages_end ⟨hpos, hmax⟩ hfs hdecim hx
  have hlen : u.res.lLen.toNat = decimatedLength s.cfg := by rw [hru]; exact toNat_decimatedLength hdecim
  have hlong' : decimatedLength s.cfg < s.cfg.m.toNat := hlong
  have he : stageError .sync u = some ⟨.preambleTooLong, s.cfg.m⟩ := by
    rw [← hcu]
    exact stageError_sync_tooLong (by rw [hcu]; omega) (by rwa [hcu]) (by rw [hvu]; rfl)
      (by rwa [hcu, hlen])
  refine ⟨u.mem, ?_⟩
  have hrun := issue_stagesEnd_raised (opc := 0x07#8) (stages := [.dconv, .filt, .decim]) (rest := [.demap, .pack])
    (List.cons_ne_nil _ _) hb ht hfront he hcu
  rw [hru, hvu] at hrun
  exact hrun

end Sys2Proof.Machine
end

section
/-! The state after reset and after the platform's reset turn (spec/10_state.md R40; spec/70_reset_and_hazards.md R125 to
R127), and the invariants that hold there. -/

namespace Sys2Proof.Machine

/-- Settles O1: the registers and the sixteen rows of R40's table are compared one by one, and memory lists no byte. -/
theorem resetGivesEveryRegisterItsValue : Obligations.ResetGivesEveryRegisterItsValue := by
  refine ⟨?registers, ?table, rfl, rfl, fun _ => rfl⟩
  case registers => decide
  case table => decide

/-- Settles O45. -/
theorem platformResetForgetsTheBuffers : Obligations.PlatformResetForgetsTheBuffers :=
  fun s ts ht => step_of_cons s .reset ts ht

/-- A state without memory lists nothing outside the windows. -/
theorem memoryInv_of_mem_nil {t : State} (h : t.mem = []) : MemoryInv t where
  wf := by rw [h]; exact .nil
  mapped c hc := by rw [h] at hc; cases hc

/-- Settles O51: after reset no command runs, no VALID bit is set and memory is empty. -/
theorem invariantsHoldAtReset : Obligations.InvariantsHoldAtReset :=
  ⟨controlInv_of_reset rfl rfl rfl rfl, coverageInv_of_valid_zero rfl, memoryInv_of_mem_nil rfl⟩

end Sys2Proof.Machine
end

section
/-! The error reports of the six stage commands (spec/60_exceptions.md R109 to R113): which check is the first to fail,
and how a command whose stage raises ends. -/

namespace Sys2Proof.Machine

/-! ### The first check that fails (R113) -/

theorem firstFailure_of_fails {c : StageCheck} (cs : List StageCheck) (h : c.1 = true) :
    firstFailure (c :: cs) = some c.2 :=
  if_pos h

theorem firstFailure_of_passes {c : StageCheck} {cs : List StageCheck} {e : CmdError} (h : c.1 = false)
    (hcs : firstFailure cs = some e) : firstFailure (c :: cs) = some e := by
  rw [firstFailure, h]
  exact hcs

/-- A length register fails its check exactly outside 1..N_MAX (R25, R31). -/
theorem outOfRange_eq_true (w : Word) : outOfRange w = true ↔ w.toNat = 0 ∨ 4096 < w.toNat := by
  rw [outOfRange, Bool.or_eq_true, beq_iff_eq, decide_eq_true_iff, Config.nMax]

/-! ### A stage command whose stage raises -/

/-- A stage command given one core turn whose check fails ends with that stage's report: it clears the stage's own and
every later VALID bit, and writes no memory byte and no result register (R103, R110, R112; log 2). -/
theorem exec_command_of_stageError {st : Stage} {s : State} {ts : List Turn} {e : CmdError}
    (hb : s.status.busy = false) (ht : s.turns = .core :: ts) (he : stageError st s = some e) :
    exec st.command s = .next
      (commandFailed st.opcode st.opcode e.code.value e.info (clearFrom st s.valid) s.mem s.res ts s) := by
  have hrun : runStage numHw st (accept st.opcode [st] s) = .raised e :=
    (runStage_raised_iff numHw st _ e).2 ((stageError_congr st (accept st.opcode [st] s) s rfl rfl rfl).trans he)
  rw [exec_command, issue_single numHw _ st s ts hb ht, hrun]
  rfl

/-- Settles O21: in each row of R113's table the checks before the one reported pass. -/
theorem stageCommandsReportTheFirstFailedCheck : Obligations.StageCommandsReportTheFirstFailedCheck := by
  intro s ts hb ht badN badM failed
  have report := fun (st : Stage) (e : CmdError) => exec_command_of_stageError (st := st) (e := e) hb ht
  have failsN : badN → (checkN s).1 = true := (outOfRange_eq_true _).2
  have passesN : ¬ badN → (checkN s).1 = false := fun h => eq_false_of_ne_true (mt (outOfRange_eq_true _).1 h)
  have failsM : badM → (checkM s).1 = true := (outOfRange_eq_true _).2
  have passesM : ¬ badM → (checkM s).1 = false := fun h => eq_false_of_ne_true (mt (outOfRange_eq_true _).1 h)
  have failsFs : s.cfg.fsHz = 0#64 → (checkFs s).1 = true := beq_iff_eq.2
  have passesFs : s.cfg.fsHz ≠ 0#64 → (checkFs s).1 = false := beq_eq_false_iff_ne.2
  have failsDecim : s.cfg.decim = 0#64 → (checkDecim s).1 = true := beq_iff_eq.2
  have passesDecim : s.cfg.decim ≠ 0#64 → (checkDecim s).1 = false := beq_eq_false_iff_ne.2
  have failsValid (st : Stage) : s.valid.getLsbD st.index = false → (checkValid st s).1 = true := congrArg not
  refine ⟨fun hN => ?_, fun hN hfs => ?_, fun hN => ?_, fun hN hfs => ?_, fun hN hfs hv => ?_, fun hN => ?_,
    fun hN hd => ?_, fun hN hd hv => ?_, fun hM => ?_, fun hM hv => ?_, fun hM hv hlt => ?_, fun hv => ?_, fun hv => ?_⟩
  · exact report .dconv _ (firstFailure_of_fails _ (failsN hN))
  · exact report .dconv _ (firstFailure_of_passes (passesN hN) (firstFailure_of_fails _ (failsFs hfs)))
  · exact report .filt _ (firstFailure_of_fails _ (failsN hN))
  · exact report .filt _ (firstFailure_of_passes (passesN hN) (firstFailure_of_fails _ (failsFs hfs)))
  · exact report .filt _ (firstFailure_of_passes (passesN hN) (firstFailure_of_passes (passesFs hfs)
      (firstFailure_of_fails _ (failsValid .dconv hv))))
  · exact report .decim _ (firstFailure_of_fails _ (failsN hN))
  · exact report .decim _ (firstFailure_of_passes (passesN hN) (firstFailure_of_fails _ (failsDecim hd)))
  · exact report .decim _ (firstFailure_of_passes (passesN hN) (firstFailure_of_passes (passesDecim hd)
      (firstFailure_of_fails _ (failsValid .filt hv))))
  · exact report .sync _ (firstFailure_of_fails _ (failsM hM))
  · exact report .sync _ (firstFailure_of_passes (passesM hM) (firstFailure_of_fails _ (failsValid .decim hv)))
  · obtain ⟨hpos, hmax⟩ := (outOfRange_eq_false _).1 (passesM hM)
    exact report .sync _ (stageError_sync_tooLong hpos hmax hv hlt)
  · exact report .demap _ (firstFailure_of_fails _ (failsValid .sync hv))
  · exact report .pack _ (firstFailure_of_fails _ (failsValid .demap hv))

end Sys2Proof.Machine
end

section
/-! PEND rises only at the completion of a command (spec/60_exceptions.md R116, R117; spec/47_control.md R103): what each
turn of the schedule does to it. -/

namespace Sys2Proof.Machine

/-- A command has completed: BUSY is 0, and DONE or ERR reports how it ended (R103). -/
def Completed (t : State) : Prop := t.status.busy = false ∧ (t.status.done = true ∨ t.status.err = true)

/-- PEND is no higher in the second state than in the first. -/
def PendKept (s t : State) : Prop := t.intr.pend = true → s.intr.pend = true

theorem pendKept_of_eq {s t : State} (h : t.intr = s.intr) : PendKept s t := fun ht => h ▸ ht

/-! ### The core -/

/-- A core step sets PEND only when it completes the command (R102, R103). -/
theorem coreStep_pend {num : NumRecord} {s t : State} (h : coreStep num s = .next t) : PendKept s t ∨ Completed t := by
  rcases coreStep_next num s t h with ⟨-, rfl⟩ | ⟨st, rest, s', -, hrun, rfl⟩ | ⟨st, rest, e, -, -, rfl⟩
  · exact .inr ⟨rfl, .inl rfl⟩
  · obtain ⟨-, -, -, hintr, -⟩ := runStage_done_frame num st s s' hrun
    cases rest with
    | nil => exact .inr ⟨rfl, .inl rfl⟩
    | cons st' more => exact .inl (pendKept_of_eq hintr)
  · exact .inr ⟨rfl, .inr rfl⟩

/-- A core's turn sets PEND only when a command was running and completes (R102; log 17). -/
theorem coreTurn_pend {num : NumRecord} {s t : State} (h : coreTurn num s = .next t) :
    PendKept s t ∨ (Completed t ∧ s.status.busy = true) := by
  cases hb : s.status.busy with
  | true =>
    rw [coreTurn_busy _ _ hb] at h
    exact (coreStep_pend h).imp_right fun hc => ⟨hc, rfl⟩
  | false =>
    rw [coreTurn_idle _ _ hb] at h
    cases h
    exact .inl id

/-- A command issued sets PEND only when the steps granted to it complete it: a core that has completed is idle and
takes no further one (log 2). -/
theorem exec_pend {i : Instr} {s t : State} (h : exec i s = .next t) : PendKept s t ∨ Completed t := by
  by_cases hi : i = .sreset
  · subst hi
    cases h
    exact .inl fun hp => by cases hp
  · rw [exec_eq_issue i hi] at h
    refine issue_induct numHw (fun u => PendKept s u ∨ Completed u) (fun _ _ hu => hu) (fun u v hu hb huv => ?_) _ _ s t
      (.inl id) (fun _ => .inl id) h
    rcases hu with hkept | ⟨hidle, -⟩
    · exact (coreStep_pend huv).imp_left fun hv hp => hkept (hv hp)
    · cases hb.symm.trans hidle

/-! ### The bus -/

/-- A CTRL write sets PEND only at a completion: of the command it issues, or of the illegal word at once (R66, R101). -/
theorem ctrlWrite_pend {w : Word} {s t : State} (h : ctrlWrite w s = .next t) : PendKept s t ∨ Completed t := by
  rcases ctrlWrite_next w s t h with ⟨i, -, h⟩ | ⟨e, -, rfl⟩
  · exact exec_pend h
  · cases hb : s.status.busy with
    | true =>
      rw [issueIllegal_busy w s hb]
      exact .inl id
    | false =>
      rw [issueIllegal_idle w s hb]
      exact .inr ⟨hb, .inr rfl⟩

/-- A write to an input whose store leaves INTR alone. -/
theorem inputWrite_intr {f : State → State} {s : State} (hf : (f s).intr = s.intr) :
    (inputWrite f s).intr = s.intr := by
  unfold inputWrite
  split
  · rfl
  · exact hf

/-- A register write but to CTRL can only clear PEND (R49, R117). -/
theorem regWrite_pend (r : Reg) (v : Word) (s : State) : PendKept s (regWrite r v s) := by
  unfold regWrite
  split
  · exact id
  · split
    · exact fun hp => ((Bool.and_eq_true _ _).mp hp).1
    · exact pendKept_of_eq (inputWrite_intr rfl)

/-- A bus write sets PEND only at CTRL (R117). -/
theorem memWrite_pend {a : Addr} {v : Word} {s t : State} (h : memWrite a v s = .next t) :
    PendKept s t ∨ (Completed t ∧ a = 0x00008#20) := by
  rcases memWrite_next a v s t h with
    ⟨-, rfl⟩ | ⟨ha, h⟩ | ⟨r, -, -, rfl⟩ | ⟨j, f, -, rfl⟩ | ⟨b, k, -, rfl⟩
  · exact .inl id
  · exact (ctrlWrite_pend h).imp_right fun hc => ⟨hc, eq_of_busTarget_ctrl a ha⟩
  · exact .inl (regWrite_pend r v s)
  · exact .inl (pendKept_of_eq (inputWrite_intr rfl))
  · unfold bufferWrite
    split
    · exact .inl (pendKept_of_eq (inputWrite_intr rfl))
    · exact .inl id

/-! ### A step -/

/-- A step sets PEND only at a completion, in a core step or at a CTRL write (R103, R117). -/
theorem step_pend {s t : State} (h : step s = .next t) : PendKept s t ∨
    (Completed t ∧ (s.status.busy = true ∨ ∃ w ts, s.turns = .write 0x00008#20 w :: ts)) := by
  cases hts : s.turns with
  | nil =>
    rw [step_of_nil s hts] at h
    exact (coreTurn_pend h).imp_right fun ⟨hc, hb⟩ => ⟨hc, .inl hb⟩
  | cons x ts =>
    rw [step_of_cons s x ts hts] at h
    rcases takeTurn_next x _ t h with ⟨-, h⟩ | ⟨a, -, rfl⟩ | ⟨a, v, rfl, h⟩ | ⟨-, rfl⟩
    · exact (coreTurn_pend h).imp_right fun ⟨hc, hb⟩ => ⟨hc, .inl hb⟩
    · obtain ⟨-, hintr, -⟩ := hostRead_frame a { s with turns := ts }
      exact .inl (pendKept_of_eq (s := s) hintr)
    · refine (memWrite_pend h).imp_right ?_
      rintro ⟨hc, rfl⟩
      exact ⟨hc, .inr ⟨v, ts, rfl⟩⟩
    · exact .inl fun hp => by cases hp

/-- Settles O44. -/
theorem pendRisesOnlyAtACompletion : Obligations.PendRisesOnlyAtACompletion := by
  refine fun s t h => ⟨rfl, fun hs ht => ?_⟩
  rcases step_pend h with hkept | ⟨⟨hidle, hreport⟩, hcause⟩
  · cases hs.symm.trans (hkept ht)
  · exact ⟨hidle, hreport, hcause⟩

end Sys2Proof.Machine
end
